-- ==== Sys2Proof/Word.lean ====
section
/-! DEFINITION. The two word types of the block: a byte of a buffer and a 32-bit register word. -/

namespace Sys2Proof

/-- One byte of a buffer or of a block (00_scope.md R8: bytes are unsigned). -/
abbrev Byte := BitVec 8

/-- One 32-bit word of the register file (10_state.md R21). -/
abbrev Word := BitVec 32

end Sys2Proof
end

