-- ==== Sys2Proof/Syntax.lean ====
section
/-! DEFINITION. The instructions: one constructor for each row of spec/opcode_table.json, and the contexts in which the
engine fetches one. -/

namespace Sys2Proof

/-- The twelve rows of the opcode table: five of the 32-bit command word (30_encoding.md R80, R81) and seven elements of
a block (R82 to R86). -/
inductive Instr where
  /-- COMPRESS_FAST, `CMD.OP = 1`. -/
  | compressFast
  /-- COMPRESS_HC, `CMD.OP = 2`. -/
  | compressHc
  /-- DECOMPRESS, `CMD.OP = 3`. -/
  | decompress
  /-- BOUND, `CMD.OP = 4`. -/
  | bound
  /-- ILLEGAL_COMMAND: any other command word, as its two fields (R81). -/
  | illegalCommand (op : BitVec 4) (reserved : BitVec 28)
  /-- TOKEN: literal nibble and match nibble (R83). -/
  | token (ln mn : BitVec 4)
  /-- LITLEN_EXT_CONT: the byte 0xFF in a literal-length extension (R84). -/
  | litlenExtCont
  /-- LITLEN_EXT_END: the terminator of a literal-length extension (R84). -/
  | litlenExtEnd (t : Byte)
  /-- LITERAL: one literal byte (R85). -/
  | literal (b : Byte)
  /-- OFFSET16: the match offset (R86). -/
  | offset16 (off : BitVec 16)
  /-- MATCHLEN_EXT_CONT: the byte 0xFF in a match-length extension (R84). -/
  | matchlenExtCont
  /-- MATCHLEN_EXT_END: the terminator of a match-length extension (R84). -/
  | matchlenExtEnd (t : Byte)
  deriving DecidableEq, Repr

/-- What the engine's next fetch is: the command word, or the element that the grammar of R82 expects at this place of
the block. -/
inductive Ctx where
  | command
  | token
  | litExt
  | literal
  | offset
  | matchExt
  deriving DecidableEq, Repr

/-- The context in which an instruction stands (R82). -/
def Instr.ctx : Instr → Ctx
  | .compressFast => .command
  | .compressHc => .command
  | .decompress => .command
  | .bound => .command
  | .illegalCommand _ _ => .command
  | .token _ _ => .token
  | .litlenExtCont => .litExt
  | .litlenExtEnd _ => .litExt
  | .literal _ => .literal
  | .offset16 _ => .offset
  | .matchlenExtCont => .matchExt
  | .matchlenExtEnd _ => .matchExt

/-- One line of the block notation of R90: a sequence (`SEQ lit off len`) or a final sequence (`LAST lit`). -/
inductive Line where
  | seq (lit : List Byte) (off : Nat) (len : Nat)
  | last (lit : List Byte)
  deriving DecidableEq, Repr

end Sys2Proof
end

