-- ==== Sys2Proof/Config.lean ====
section
/-! DEFINITION. The fixed constants (00_scope.md R6), the implementation parameters (R7) and the free values: what the
spec leaves unspecified, as constants with no body. -/

namespace Sys2Proof

namespace Config

/-- `WIN_SIZE` (R6): the window size, and the number of cells of each table. -/
abbrev winSize : Nat := 65536
/-- `WIN_MASK` (R6): the chain table's index mask. -/
abbrev winMask : Nat := 65535
/-- `MAX_OFFSET` (R6, 90_conflicts.md C1). -/
abbrev maxOffset : Nat := 65535
/-- `MIN_MATCH` (R6). -/
abbrev minMatch : Nat := 4
/-- `MF_LIMIT` (R6). -/
abbrev mfLimit : Nat := 12
/-- `HASH_SHIFT` (R6). -/
abbrev hashShift : Nat := 16
/-- `HASH_MUL` (R6). -/
abbrev hashMul : Word := 0x9E3779B1#32
/-- `LIT_NIB_MAX` and `ML_NIB_MAX` (R6): the nibble that says "continued". -/
abbrev nibMax : Nat := 15
/-- `EXT_CONT` (R6): the extension byte that says "more follows". -/
abbrev extCont : Byte := 0xFF#8

end Config

/-- The parameters R7 leaves to the implementation ("the model takes each as an argument"): plain data carried by the
state, which no step changes (log entry 3). -/
structure Params where
  /-- `POS_W`, the width of a stored position. -/
  posW : Nat
  /-- `MAX_SRC_LEN`, the largest accepted SRC_LEN. -/
  maxSrcLen : Nat
  /-- `MAX_DST_CAP`, the largest accepted DST_CAP. -/
  maxDstCap : Nat
  /-- `BASE_REG`. -/
  baseReg : Nat
  /-- `BASE_SRC`. -/
  baseSrc : Nat
  /-- `BASE_DST`. -/
  baseDst : Nat
  /-- `BASE_HTF`. -/
  baseHtf : Nat
  deriving DecidableEq, Repr

/-- Two address ranges, each a base and a size, share no address. -/
def Params.apart (a m b n : Nat) : Bool := decide (a + m ≤ b) || decide (b + n ≤ a)

/-- The constraints of R7's table, and that the four host-visible spaces do not overlap (20_memory.md R69, R70; log
entry 3). -/
def Params.valid (p : Params) : Bool :=
  decide (p.posW ≤ 32) && decide (p.maxSrcLen < 2 ^ p.posW) && decide (p.maxDstCap < 2 ^ p.posW)
    && decide (p.maxSrcLen + p.maxSrcLen / 255 + 16 < 2 ^ 32)
    && Params.apart p.baseReg 64 p.baseSrc p.maxSrcLen && Params.apart p.baseReg 64 p.baseDst p.maxDstCap
    && Params.apart p.baseReg 64 p.baseHtf 262144 && Params.apart p.baseSrc p.maxSrcLen p.baseDst p.maxDstCap
    && Params.apart p.baseSrc p.maxSrcLen p.baseHtf 262144 && Params.apart p.baseDst p.maxDstCap p.baseHtf 262144

/-- DESIGN CHOICE (log entry 3): the parameters of the state after reset. POS_W is R7's default, the two limits are the
largest R7's constraints allow, the bases are any four that keep the spaces apart. -/
def Params.standard : Params where
  posW := 32
  maxSrcLen := 4278190064
  maxDstCap := 4294967295
  baseReg := 0x00000000
  baseHtf := 0x00040000
  baseSrc := 0x100000000
  baseDst := 0x200000000

/-- The two byte buffers (10_state.md R34, R35). -/
inductive BufferId where
  | src
  | dst
  deriving DecidableEq, Repr

/-- The three tables of positions (10_state.md R36, R37). -/
inductive TableId where
  | htF
  | htH
  | ct
  deriving DecidableEq, Repr

/-- The engine's working registers (10_state.md R30) and latched operands (R29). A register of R30 with no stated width
is a natural number. -/
structure Working where
  /-- Latched SRC_LEN. -/
  n : Nat
  /-- Latched DST_CAP. -/
  cap : Nat
  /-- Latched `sext_32(DEPTH)`. -/
  depth : Int
  /-- Scan limit `n - MF_LIMIT`. -/
  sn : Nat
  /-- Source cursor. -/
  si : Nat
  /-- Destination cursor. -/
  di : Nat
  /-- Start of the unemitted literal run. -/
  anchor : Nat
  /-- The four bytes at `si`. -/
  x : BitVec 32
  /-- Hash index. -/
  h : BitVec 16
  /-- Candidate position read from HT_F. -/
  ref : Nat
  /-- Offset. -/
  off : Nat
  /-- Match-extension cursor. -/
  p : Nat
  /-- `L`, literal length; in the decoder's copy of a run, the literals still to come (log entry 18). -/
  litLen : Nat
  /-- `M`, match length; while the decoder reads it, the sum so far (log entry 18). -/
  matchLen : Nat
  /-- `D`, effective depth. -/
  effDepth : Nat
  /-- `try`, remaining candidate budget. -/
  tryLeft : Nat
  /-- Current chain candidate. -/
  next : Nat
  /-- Length of the best match so far. -/
  bestLen : Nat
  /-- Offset of the best match so far. -/
  bestOff : Nat
  /-- Length of the current candidate. -/
  ml : Nat
  /-- Match nibble of the decoder's current token `T` (43_decoder.md R203, read by R206; log entry 18). -/
  mn : BitVec 4
  deriving DecidableEq, Repr, Inhabited

namespace Config

/-- A byte of a buffer that is unspecified (10_state.md R39, 60_exceptions.md R243c): free, one for each buffer, number
of times the byte became unspecified, and address (log entries 4 and 6). -/
opaque freeByte : BufferId → Nat → Nat → Byte

/-- A table entry that is unspecified (10_state.md R39: `HTF_INIT` is a draw): free, one for each table, draw and index
(log entries 5 and 8). -/
opaque freeCell : TableId → Nat → Nat → Nat

/-- What a host read returns while BUSY = 1 where the spec leaves it unspecified (70_reset_and_hazards.md R281): free,
one for each draw (log entry 9). -/
opaque freeWord : Nat → Word

/-- The working registers after a command completes (10_state.md R33): free, one record for each draw (log entry 7). -/
opaque freeWorking : Nat → Working

end Config

end Sys2Proof
end

