-- ==== Sys2Proof/WellFormed.lean ====
section
/-! DEFINITION. Which instruction terms stand for an encoding of the opcode table. -/

namespace Sys2Proof

/-- A command word's two fields are one of R80's four commands. -/
def legalCommand (op : BitVec 4) (reserved : BitVec 28) : Bool :=
  reserved == 0#28 && (op == 1#4 || op == 2#4 || op == 3#4 || op == 4#4)

/-- The value of each operand is one the row's encoding admits: the fields of ILLEGAL_COMMAND are no legal command (R81),
an extension's terminator is 0x00 to 0xFE (R84), an offset is 1 to 65535 (R86). -/
def Instr.wf : Instr → Bool
  | .compressFast => true
  | .compressHc => true
  | .decompress => true
  | .bound => true
  | .illegalCommand op reserved => !legalCommand op reserved
  | .token _ _ => true
  | .litlenExtCont => true
  | .litlenExtEnd t => t != Config.extCont
  | .literal _ => true
  | .offset16 off => off != 0#16
  | .matchlenExtCont => true
  | .matchlenExtEnd t => t != Config.extCont

end Sys2Proof
end

