-- ==== Sys2Proof/Decode.lean ====
section
/-! DEFINITION. The decoder of command words and block elements, the encoder, and the block encodings of R82 to R87 that
the packer and the assembler notation of R90 share. -/

namespace Sys2Proof

/-- Why bytes are no instruction. -/
inductive Reject where
  /-- The block ends inside or before the element (R88, 43_decoder.md R201). -/
  | truncated
  /-- An offset of 0 (R86, R88). -/
  | zeroOffset
  deriving DecidableEq, Repr

/-- What decoding answers: an instruction with the bytes left over, or a named rejection. -/
inductive Decoded where
  | ok (i : Instr) (rest : List Byte)
  | rejected (why : Reject)
  deriving DecidableEq, Repr

/-- The little-endian 32-bit value of four bytes (20_memory.md R60). -/
def wordOfBytes (b0 b1 b2 b3 : Byte) : Word := b3 ++ b2 ++ b1 ++ b0

/-- The four bytes of a 32-bit value, least significant first (20_memory.md R60). -/
def bytesOfWord (w : Word) : List Byte :=
  [w.extractLsb' 0 8, w.extractLsb' 8 8, w.extractLsb' 16 8, w.extractLsb' 24 8]

/-- The command word of R80 and R81: `OP` in bits 3:0, bits 31:4 reserved. Every word is an instruction. -/
def decodeCommand (w : Word) : Instr :=
  let op : BitVec 4 := w.extractLsb' 0 4
  let reserved : BitVec 28 := w.extractLsb' 4 28
  if reserved ≠ 0#28 then .illegalCommand op reserved
  else if op = 1#4 then .compressFast
  else if op = 2#4 then .compressHc
  else if op = 3#4 then .decompress
  else if op = 4#4 then .bound
  else .illegalCommand op reserved

/-- A command word at the front of the bytes. -/
def decodeCommandBytes : List Byte → Decoded
  | b0 :: b1 :: b2 :: b3 :: rest => .ok (decodeCommand (wordOfBytes b0 b1 b2 b3)) rest
  | _ => .rejected .truncated

/-- A token byte (R83): bits 7:4 and bits 3:0. -/
def decodeToken : List Byte → Decoded
  | b :: rest => .ok (.token (b.extractLsb' 4 4) (b.extractLsb' 0 4)) rest
  | [] => .rejected .truncated

/-- A byte of a literal-length extension (R84): 0xFF continues and any other value ends. -/
def decodeLitExt : List Byte → Decoded
  | b :: rest => .ok (if b = Config.extCont then .litlenExtCont else .litlenExtEnd b) rest
  | [] => .rejected .truncated

/-- A literal byte (R85). -/
def decodeLiteral : List Byte → Decoded
  | b :: rest => .ok (.literal b) rest
  | [] => .rejected .truncated

/-- An offset, low byte first (R86). -/
def decodeOffset : List Byte → Decoded
  | lo :: hi :: rest => if hi ++ lo = 0#16 then .rejected .zeroOffset else .ok (.offset16 (hi ++ lo)) rest
  | _ => .rejected .truncated

/-- A byte of a match-length extension (R84). -/
def decodeMatchExt : List Byte → Decoded
  | b :: rest => .ok (if b = Config.extCont then .matchlenExtCont else .matchlenExtEnd b) rest
  | [] => .rejected .truncated

/-- The first instruction of the bytes in the given context (R82). -/
def decode (c : Ctx) (bs : List Byte) : Decoded :=
  match c with
  | .command => decodeCommandBytes bs
  | .token => decodeToken bs
  | .litExt => decodeLitExt bs
  | .literal => decodeLiteral bs
  | .offset => decodeOffset bs
  | .matchExt => decodeMatchExt bs

/-- The context in which a word of the opcode table is read when only its width and bits are known (log entry 15): 32
bits are a command word and 16 an offset; of the 8-bit rows, 0xFF alone has a row of its own fixed to it (the first is
LITLEN_EXT_CONT), and any other byte is the TOKEN that opens a block. -/
def tableCtx (nbits w : Nat) : Option Ctx :=
  if nbits = 32 then some .command
  else if nbits = 16 then some .offset
  else if nbits = 8 then some (if w % 256 = 255 then .litExt else .token)
  else none

/-- The bytes of a table word as the hardware stores them, the first at the lowest address (20_memory.md R60). -/
def tableBytes (nbits w : Nat) : List Byte :=
  (List.range (nbits / 8)).map fun k => BitVec.ofNat 8 (w / 256 ^ k)

/-- The instruction the decoder reads from a word numbered as the opcode table numbers it. -/
def decodeTableWord (nbits w : Nat) : Option Instr :=
  match tableCtx nbits w with
  | none => none
  | some c =>
    match decode c (tableBytes nbits w) with
    | .ok i _ => some i
    | .rejected _ => none

/-- The command word with the given fields (R80). -/
def commandWord (op : BitVec 4) (reserved : BitVec 28) : Word := reserved ++ op

/-- The bytes of an instruction, from the same tables (R80, R81, R83 to R86). -/
def encode : Instr → List Byte
  | .compressFast => bytesOfWord (commandWord 1#4 0#28)
  | .compressHc => bytesOfWord (commandWord 2#4 0#28)
  | .decompress => bytesOfWord (commandWord 3#4 0#28)
  | .bound => bytesOfWord (commandWord 4#4 0#28)
  | .illegalCommand op reserved => bytesOfWord (commandWord op reserved)
  | .token ln mn => [ln ++ mn]
  | .litlenExtCont => [Config.extCont]
  | .litlenExtEnd t => [t]
  | .literal b => [b]
  | .offset16 off => [off.extractLsb' 0 8, off.extractLsb' 8 8]
  | .matchlenExtCont => [Config.extCont]
  | .matchlenExtEnd t => [t]

/-- `Token(L, X)` (40_token_codec.md R111). -/
def tokenByte (L X : Nat) : Byte :=
  BitVec.ofNat 4 (min L Config.nibMax) ++ BitVec.ofNat 4 (min X Config.nibMax)

/-- The bytes `PutExt(v)` emits (40_token_codec.md R112): `v / 255` bytes 0xFF, then `v mod 255`. -/
def extBytes (v : Nat) : List Byte :=
  List.replicate (v / 255) Config.extCont ++ [BitVec.ofNat 8 (v % 255)]

/-- The extension of a length whose nibble field holds `v`: none below 15 (R84). -/
def lenExt (v : Nat) : List Byte := if Config.nibMax ≤ v then extBytes (v - Config.nibMax) else []

/-- The two bytes of an offset, low byte first (R86). -/
def offsetBytes (off : Nat) : List Byte := [BitVec.ofNat 8 off, BitVec.ofNat 8 (off / 256)]

/-- The bytes of a sequence with literals `lit`, offset `off` and match length `len` (R82; 40_token_codec.md R113). -/
def seqBytes (lit : List Byte) (off len : Nat) : List Byte :=
  tokenByte lit.length (len - Config.minMatch) :: (lenExt lit.length ++ lit ++ offsetBytes off
    ++ lenExt (len - Config.minMatch))

/-- The bytes of a final sequence before its literals (40_token_codec.md R114, `EmitLastHeader`). -/
def lastHeader (L : Nat) : List Byte := tokenByte L 0 :: lenExt L

/-- The bytes of one line of the notation of R90, written with the packer rules. -/
def Line.bytes : Line → List Byte
  | .seq lit off len => seqBytes lit off len
  | .last lit => lastHeader lit.length ++ lit

/-- The block a program in the notation of R90 assembles to. -/
def assemble (prog : List Line) : List Byte := prog.flatMap Line.bytes

end Sys2Proof
end

