-- ==== Sys2Proof/Machine/State.lean ====
section
/-! DEFINITION. The state of the block as plain data (10_state.md R40), the host's actions, the reasons a step can stop,
and the state after reset. -/

namespace Sys2Proof.Machine

/-- Keyed data in one canonical form: keys strictly rising (`Cells.wf`). -/
abbrev Cells (β : Type) := List (Nat × β)

/-- The bytes of a buffer that hold a known value. An address that is not listed holds an unspecified byte, which reads
as a free value (log entry 4). -/
abbrev Memory := List Host.Cell

/-- A byte buffer (10_state.md R34, R35). `draws` holds, newest first, the limit of each event that left every byte
below the limit unspecified (60_exceptions.md R243c, 70_reset_and_hazards.md R270); the number of limits above an
address keys its free value (log entry 21). -/
structure Buf where
  cells : Memory
  draws : List Nat
  deriving DecidableEq, Repr

/-- What the entries a table does not list hold: 0 (10_state.md R37, after COMPRESS_HC zeroed it), or a free value. -/
inductive Fill where
  | zero
  | drawn (draw : Nat)
  deriving DecidableEq, Repr

/-- A table of 65536 positions (10_state.md R36, R37). -/
structure Table where
  cells : Cells Nat
  fill : Fill
  deriving DecidableEq, Repr

/-- What the engine does (10_state.md R40, 60_exceptions.md R253): idle, or busy, its next fetch in the given context. -/
inductive Engine where
  | idle
  | busy (c : Ctx)
  deriving DecidableEq, Repr

/-- The outcomes of a command, `STATUS.ERR` (10_state.md R26). -/
inductive Err where
  | ok
  | invalidSourceShortBuffer
  | illegalRequest
  deriving DecidableEq, Repr

/-- The width of a host access. -/
inductive Width where
  | byte
  | half
  | word
  deriving DecidableEq, Repr

/-- One action from outside the engine: a bus read or write (10_state.md R20a), a reset by the platform
(70_reset_and_hazards.md R270), or a pause that leaves the engine one step (log entry 2). -/
inductive HostEvent where
  | read (addr : Nat) (w : Width)
  | write (addr : Nat) (w : Width) (data : Word)
  | reset
  | pause
  deriving DecidableEq, Repr

/-- What the engine wrote and the host has not been promised yet: 20_memory.md R72b promises a command's writes to the reads
issued after the host has observed DONE = 1 (70_reset_and_hazards.md R283; log entry 27). -/
structure Unseen where
  /-- RESULT was written. -/
  result : Bool
  /-- DST was written below this limit. -/
  dst : Nat
  /-- The addresses below it that the host has itself written since. -/
  dstOwn : List Nat
  /-- The cells of HT_F that were written. -/
  htF : List Nat
  deriving DecidableEq, Repr

/-- The host has been promised everything. -/
def Unseen.nothing : Unseen := ⟨false, 0, [], []⟩

/-- The machine's state. -/
structure State where
  /-- The implementation parameters of 00_scope.md R7 (log entry 3). -/
  cfg : Params
  /-- CMD: the command word last written (10_state.md R22; log entry 11). -/
  cmd : Word
  /-- SRC_LEN (10_state.md R23). -/
  srcLen : Word
  /-- DST_CAP (10_state.md R24). -/
  dstCap : Word
  /-- DEPTH (10_state.md R25). -/
  depth : Word
  /-- STATUS (10_state.md R26). -/
  status : Word
  /-- RESULT (10_state.md R27). -/
  result : Word
  /-- The source buffer (10_state.md R34). -/
  src : Buf
  /-- The destination buffer (10_state.md R35). -/
  dst : Buf
  /-- The caller-owned fast hash table (10_state.md R36). -/
  htF : Table
  /-- The HC hash table (10_state.md R37). -/
  htH : Table
  /-- The HC chain table (10_state.md R37). -/
  ct : Table
  /-- Idle or busy (10_state.md R40). -/
  engine : Engine
  /-- The working registers (10_state.md R29, R30). -/
  wk : Working
  /-- What the host and the platform do next, oldest first (log entry 2). -/
  inbox : List HostEvent
  /-- The data of the last host read (log entry 20). -/
  readData : Word
  /-- What the engine wrote since the host last observed DONE = 1 (log entry 27). -/
  unseen : Unseen
  /-- Every outcome with ERR ≠ 0, newest first, kept permanently (60_exceptions.md R246; log entry 19). -/
  faultLog : List Err
  /-- The counter that keys free values (log entry 21). -/
  draws : Nat
  deriving DecidableEq, Repr

/-- Why the machine stops at an address the spec says does not exist. -/
inductive Fault where
  /-- Raised by a host access that lies in none of the four host-visible spaces (20_memory.md R69). Safe: the spec gives
  such an address no contents (log entry 13). -/
  | busUnmapped (addr : Nat)
  deriving DecidableEq, Repr

/-- Why a step has no meaning. -/
inductive Refusal where
  /-- Raised by an arm of `exec` whose instruction has no meaning yet. Safe. No arm raises it. -/
  | notModelled (mnemonic : String)
  /-- Raised by a host write while BUSY = 1 (70_reset_and_hazards.md R281: "the model refuses it"). Safe. -/
  | hostWriteWhileBusy (addr : Nat)
  /-- Raised by a register access that is not 32-bit or not word-aligned (10_state.md R28: "the model refuses it").
  Safe. -/
  | registerAccessForm (addr : Nat)
  /-- Raised by an HTF access that is not 32-bit or not word-aligned (20_memory.md R63; log entry 13). Safe. -/
  | htfAccessForm (addr : Nat)
  deriving DecidableEq, Repr

/-- The working registers after reset: unspecified and never read before written (10_state.md R39); DESIGN CHOICE 0
(log entry 7). -/
def workingReset : Working where
  n := 0
  cap := 0
  depth := 0
  sn := 0
  si := 0
  di := 0
  anchor := 0
  x := 0
  h := 0
  ref := 0
  off := 0
  p := 0
  litLen := 0
  matchLen := 0
  effDepth := 0
  tryLeft := 0
  next := 0
  bestLen := 0
  bestOff := 0
  ml := 0
  mn := 0

/-- The state after reset for given parameters (10_state.md R39): registers 0, the engine idle, the buffers and tables
unspecified. -/
def State.resetFor (p : Params) : State where
  cfg := p
  cmd := 0
  srcLen := 0
  dstCap := 0
  depth := 0
  status := 0
  result := 0
  src := ⟨[], []⟩
  dst := ⟨[], []⟩
  htF := ⟨[], .drawn 0⟩
  htH := ⟨[], .drawn 0⟩
  ct := ⟨[], .drawn 0⟩
  engine := .idle
  wk := workingReset
  inbox := []
  readData := 0
  unseen := .nothing
  faultLog := []
  draws := 1

/-- The machine right after reset (10_state.md R39), with the parameters of log entry 3. -/
def State.reset : State := State.resetFor Params.standard

end Sys2Proof.Machine
end

