-- ==== Sys2Proof/Machine/Flags.lean ====
section
/-! DEFINITION. The STATUS register (10_state.md R26): its fields, and the words the engine writes to it. They are the
block's only flags. -/

namespace Sys2Proof.Machine

/-- The code of an outcome in `STATUS.ERR` (10_state.md R26). -/
def Err.code : Err → BitVec 4
  | .ok => 0
  | .invalidSourceShortBuffer => 1
  | .illegalRequest => 2

/-- The STATUS word with the given fields; bits 3:2 and 31:8 are 0 (10_state.md R26). -/
def statusWord (busy done : Bool) (err : BitVec 4) : Word :=
  0#24 ++ err ++ 0#2 ++ BitVec.ofBool done ++ BitVec.ofBool busy

/-- `STATUS.BUSY`, bit 0. -/
def statusBusy (w : Word) : Bool := w.getLsbD 0

/-- `STATUS.DONE`, bit 1. -/
def statusDone (w : Word) : Bool := w.getLsbD 1

/-- `STATUS.ERR`, bits 7:4. -/
def statusErr (w : Word) : BitVec 4 := w.extractLsb' 4 4

/-- `STATUS.BUSY` of the state. -/
def State.isBusy (s : State) : Bool := statusBusy s.status

end Sys2Proof.Machine
end

