-- ==== Sys2Proof/Machine/Memory.lean ====
section
/-! DEFINITION. Keyed data in canonical form, and the operations over a byte buffer (10_state.md R34, R35) and a table of
positions (R36, R37). -/

namespace Sys2Proof.Machine

/-- The value listed at a key. -/
def Cells.read {β : Type} (m : Cells β) (a : Nat) : Option β :=
  match m with
  | [] => none
  | (k, v) :: r => if k = a then some v else Cells.read r a

/-- List a value at a key, keeping the keys strictly rising. -/
def Cells.write {β : Type} (m : Cells β) (a : Nat) (b : β) : Cells β :=
  match m with
  | [] => [(a, b)]
  | (k, v) :: r =>
    if a < k then (a, b) :: (k, v) :: r
    else if a = k then (a, b) :: r
    else (k, v) :: Cells.write r a b

/-- No longer list a key. -/
def Cells.erase {β : Type} (m : Cells β) (a : Nat) : Cells β := m.filter fun c => c.1 ≠ a

/-- No longer list any key below a limit. -/
def Cells.dropBelow {β : Type} (m : Cells β) (lim : Nat) : Cells β := m.filter fun c => lim ≤ c.1

/-- The canonical form: keys strictly rising. -/
def Cells.wf {β : Type} (m : Cells β) : Bool :=
  match m with
  | [] => true
  | (k, _) :: r => r.all (fun c => decide (k < c.1)) && Cells.wf r

/-- The canonical form of a buffer's memory. An unlisted address reads as no listed byte, so no entry can equal what an
unlisted address reads as (log entry 4). -/
def Memory.wf (m : Memory) : Bool := Cells.wf m

/-- How often the byte at an address became unspecified: the key of its free value (log entry 21). -/
def Buf.drawOf (b : Buf) (a : Nat) : Nat := (b.draws.filter fun lim => decide (a < lim)).length

/-- The byte at an address: the one last written (20_memory.md R68), a free value while it is unspecified. -/
def Buf.read (id : BufferId) (b : Buf) (a : Nat) : Byte :=
  match Cells.read b.cells a with
  | some v => v
  | none => Config.freeByte id (b.drawOf a) a

/-- Write one byte. -/
def Buf.write (b : Buf) (a : Nat) (v : Byte) : Buf := { b with cells := Cells.write b.cells a v }

/-- Write a list of bytes at consecutive addresses, in increasing order (20_memory.md R60). -/
def Buf.writeAll (b : Buf) (a : Nat) (vs : List Byte) : Buf :=
  match vs with
  | [] => b
  | v :: r => (b.write a v).writeAll (a + 1) r

/-- Every byte below the limit becomes unspecified (60_exceptions.md R243c, 70_reset_and_hazards.md R270). -/
def Buf.forget (b : Buf) (lim : Nat) : Buf where
  cells := Cells.dropBelow b.cells lim
  draws := lim :: b.draws

/-- The buffer's memory is canonical and lies inside its `size` bytes. -/
def Buf.wf (b : Buf) (size : Nat) : Bool := Memory.wf b.cells && b.cells.all fun c => decide (c.1 < size)

/-- What an unlisted entry of a table reads as. -/
def Fill.value (id : TableId) (posW : Nat) (f : Fill) (i : Nat) : Nat :=
  match f with
  | .zero => 0
  | .drawn k => Config.freeCell id k i % 2 ^ posW

/-- The position in entry `i`, an unsigned `POS_W`-bit value. -/
def Table.read (id : TableId) (posW : Nat) (t : Table) (i : Nat) : Nat :=
  match Cells.read t.cells i with
  | some v => v
  | none => t.fill.value id posW i

/-- Write a position, truncated to `POS_W` bits (10_state.md R36, R37). In a zeroed table an entry of 0 is not listed. -/
def Table.write (posW : Nat) (t : Table) (i v : Nat) : Table :=
  match t.fill with
  | .zero =>
    if v % 2 ^ posW = 0 then { t with cells := Cells.erase t.cells i }
    else { t with cells := Cells.write t.cells i (v % 2 ^ posW) }
  | .drawn _ => { t with cells := Cells.write t.cells i (v % 2 ^ posW) }

/-- Every entry 0 (42_hc_encoder.md R170). -/
def Table.zeroed : Table := ⟨[], .zero⟩

/-- Every entry unspecified (10_state.md R39). -/
def Table.unspecified (draw : Nat) : Table := ⟨[], .drawn draw⟩

/-- The table is canonical, its indexes are below WIN_SIZE, its entries `POS_W`-bit values, and a zeroed table lists no
entry of 0. -/
def Table.wf (posW : Nat) (t : Table) : Bool :=
  Cells.wf t.cells && t.cells.all fun c =>
    decide (c.1 < Config.winSize) && decide (c.2 < 2 ^ posW) && (decide (t.fill ≠ .zero) || decide (c.2 ≠ 0))

end Sys2Proof.Machine
end

