-- ==== Sys2Proof/Machine/Operands.lean ====
section
/-! DEFINITION. The operand forms: the latched command operands (10_state.md R29), the reads of SRC, DST and the tables,
little-endian words (20_memory.md R60), the fingerprint (00_scope.md R10), the match measurement (R11) and the bytes a
fetch reads. -/

namespace Sys2Proof.Machine

/-- `SRC[i]`. -/
def State.srcByte (s : State) (i : Nat) : Byte := s.src.read .src i

/-- `DST[i]`. -/
def State.dstByte (s : State) (i : Nat) : Byte := s.dst.read .dst i

/-- `HT_F[i]`. -/
def State.htfCell (s : State) (i : Nat) : Nat := s.htF.read .htF s.cfg.posW i

/-- `HT_H[i]`. -/
def State.hthCell (s : State) (i : Nat) : Nat := s.htH.read .htH s.cfg.posW i

/-- `CT[i]`. -/
def State.ctCell (s : State) (i : Nat) : Nat := s.ct.read .ct s.cfg.posW i

/-- The bytes `f a, …, f (a + n - 1)`. -/
def bytesFrom (f : Nat → Byte) (a n : Nat) : List Byte := (List.range n).map fun k => f (a + k)

/-- `MemRead(space, a, N)` (20_memory.md R60): the little-endian value of a list of bytes. -/
def leValue : List Byte → Nat
  | [] => 0
  | b :: r => b.toNat + 256 * leValue r

/-- `MemRead(SRC, p, 4)`, the fingerprint word (20_memory.md R60). -/
def State.srcWord (s : State) (p : Nat) : Word :=
  s.srcByte (p + 3) ++ s.srcByte (p + 2) ++ s.srcByte (p + 1) ++ s.srcByte p

/-- `hash(x) = ((x * HASH_MUL) mod 2^32) >> HASH_SHIFT` (00_scope.md R10), 16 bits. -/
def fpHash (x : Word) : BitVec 16 := ((x * Config.hashMul) >>> Config.hashShift).setWidth 16

/-- `fp(p)`, the fingerprint of source position `p` (00_scope.md R10). -/
def State.fp (s : State) (p : Nat) : BitVec 16 := fpHash (s.srcWord p)

/-- `CommonLen` over a byte function (00_scope.md R11): the number of leading equal positions, at most `limit`. -/
def commonLen (f : Nat → Byte) (a b limit : Nat) : Nat :=
  match limit with
  | 0 => 0
  | l + 1 => if f a = f b then 1 + commonLen f (a + 1) (b + 1) l else 0

/-- `CommonLen(a, b, limit)` (00_scope.md R11). -/
def State.commonLen (s : State) (a b limit : Nat) : Nat := Sys2Proof.Machine.commonLen s.srcByte a b limit

/-- `sext_32(DEPTH)` (10_state.md R25). -/
def depthValue (w : Word) : Int := w.toInt

/-- The effective depth `D` (42_hc_encoder.md R172). -/
def effectiveDepth (depth : Int) : Nat := if depth ≤ 0 then Config.winSize else depth.toNat

/-- The illegal-request check of 60_exceptions.md R241 for COMPRESS_FAST, COMPRESS_HC and DECOMPRESS. -/
def State.oversize (s : State) : Bool := decide (s.cfg.maxSrcLen < s.wk.n) || decide (s.cfg.maxDstCap < s.wk.cap)

/-- The illegal-request check of 60_exceptions.md R241 for BOUND, which ignores DST_CAP (10_state.md R24). -/
def State.oversizeSrc (s : State) : Bool := decide (s.cfg.maxSrcLen < s.wk.n)

/-- The bytes a fetch in the given context reads: the command word, or the at most two bytes of the block at `si` that
lie below `n` (43_decoder.md R201). -/
def State.fetchBytes (s : State) (c : Ctx) : List Byte :=
  match c with
  | .command => [s.cmd.extractLsb' 0 8, s.cmd.extractLsb' 8 8, s.cmd.extractLsb' 16 8, s.cmd.extractLsb' 24 8]
  | .token => bytesFrom s.srcByte s.wk.si (min 2 (s.wk.n - s.wk.si))
  | .litExt => bytesFrom s.srcByte s.wk.si (min 2 (s.wk.n - s.wk.si))
  | .literal => bytesFrom s.srcByte s.wk.si (min 2 (s.wk.n - s.wk.si))
  | .offset => bytesFrom s.srcByte s.wk.si (min 2 (s.wk.n - s.wk.si))
  | .matchExt => bytesFrom s.srcByte s.wk.si (min 2 (s.wk.n - s.wk.si))

end Sys2Proof.Machine
end

