-- ==== Sys2Proof/Machine/Ops.lean ====
section
/-! DEFINITION. The shared operations: starting a command (60_exceptions.md R241), completing one with or without an error
(R242, R243, R246), the platform reset (70_reset_and_hazards.md R270), and how a command's pseudocode goes on or ends. -/

namespace Sys2Proof.Machine

/-- Add an outcome to the permanent fault log unless it is `ok` (60_exceptions.md R246). -/
def logErr (log : List Err) (e : Err) : List Err :=
  match e with
  | .ok => log
  | .invalidSourceShortBuffer => .invalidSourceShortBuffer :: log
  | .illegalRequest => .illegalRequest :: log

/-- The byte of DST at an address is not promised to the host yet (20_memory.md R72b). -/
def Unseen.hides (u : Unseen) (a : Nat) : Bool := decide (a < u.dst) && !u.dstOwn.contains a

/-- A command has ended that may have written DST below `lim`: RESULT and those bytes are not promised yet. -/
def Unseen.ended (lim : Nat) (u : Unseen) : Unseen :=
  { u with result := true, dst := max u.dst lim, dstOwn := u.dstOwn.filter fun a => decide (lim ≤ a) }

/-- The engine has written cell `i` of HT_F. -/
def Unseen.engineCell (i : Nat) (u : Unseen) : Unseen := { u with htF := if u.htF.contains i then u.htF else i :: u.htF }

/-- The host has written `k` bytes of DST from `a` on: it reads its own bytes back (20_memory.md R68). -/
def Unseen.hostBytes (a k : Nat) (u : Unseen) : Unseen :=
  { u with dstOwn := ((List.range k).map (a + ·)).filter u.hides ++ u.dstOwn }

/-- The host has written cell `i` of HT_F: it reads it back (20_memory.md R68). -/
def Unseen.hostCell (i : Nat) (u : Unseen) : Unseen := { u with htF := u.htF.filter fun j => decide (j ≠ i) }

/-- Command completion (60_exceptions.md R242), the one operation that ends a command and the only effect an error has
(R246): STATUS and RESULT are written, the engine is idle, and the working registers become unspecified (10_state.md
R33). The command may have written DST below `lim`; the host is promised nothing of it yet (20_memory.md R72b). -/
def State.complete (e : Err) (r lim : Nat) (s : State) : State :=
  { s with
    status := statusWord false true e.code
    result := BitVec.ofNat 32 r
    engine := .idle
    wk := Config.freeWorking s.draws
    unseen := s.unseen.ended lim
    faultLog := logErr s.faultLog e
    draws := s.draws + 1 }

/-- Command start (60_exceptions.md R241): BUSY is set, DONE and ERR are cleared, the operands are latched (10_state.md
R29), the cursors `si` and `di` are 0 (R31), and the engine is to run the word `w`. The next start is also how the host acknowledges an outcome (R246). -/
def State.startCommand (w : Word) (s : State) : State :=
  { s with
    cmd := w
    status := statusWord true false 0
    engine := .busy .command
    wk := { s.wk with
      n := s.srcLen.toNat
      cap := s.dstCap.toNat
      depth := depthValue s.depth
      si := 0
      di := 0 } }

/-- `DST[0..cap)` becomes unspecified (60_exceptions.md R243c). -/
def State.forgetDst (s : State) : State := { s with dst := s.dst.forget s.wk.cap }

/-- Completion with InvalidSourceShortBuffer (60_exceptions.md R240): ERR = 1, RESULT = 0, `DST[0..cap)` unspecified. -/
def State.raiseShort (s : State) : State := s.forgetDst.complete .invalidSourceShortBuffer 0 s.wk.cap

/-- Completion with ILLEGAL_REQUEST (60_exceptions.md R241): ERR = 2, RESULT = 0, nothing else. -/
def State.rejectRequest (s : State) : State := s.complete .illegalRequest 0 0

/-- The platform reset (70_reset_and_hazards.md R270, 10_state.md R39). The command in progress is abandoned; the buffers,
tables and working registers become unspecified; the fault log is permanent. -/
def State.platformReset (s : State) : State :=
  { s with
    cmd := 0
    srcLen := 0
    dstCap := 0
    depth := 0
    status := 0
    result := 0
    src := s.src.forget s.cfg.maxSrcLen
    dst := s.dst.forget s.cfg.maxDstCap
    htF := .unspecified s.draws
    htH := .unspecified s.draws
    ct := .unspecified s.draws
    engine := .idle
    wk := Config.freeWorking s.draws
    unseen := .nothing
    draws := s.draws + 1 }

/-- How a piece of a command's pseudocode ends (00_scope.md R9). -/
inductive Run where
  /-- The command goes on. -/
  | go (s : State)
  /-- `return r`. -/
  | ret (r : Nat) (s : State)
  /-- `return 0` from the final test of 40_token_codec.md R115, after which DST[0..cap) is unspecified. -/
  | incompressible (s : State)
  /-- `raise InvalidSourceShortBuffer`. -/
  | raise (s : State)

/-- Go on with the next piece of pseudocode unless the command has ended. -/
def Run.andThen (m : Run) (f : State → Run) : Run :=
  match m with
  | .go s => f s
  | .ret r s => .ret r s
  | .incompressible s => .incompressible s
  | .raise s => .raise s

/-- The state a piece of pseudocode leaves: the completion of 60_exceptions.md R242 where the command has ended. A command that
returns `r` has written DST[0..r) at most. -/
def Run.settle : Run → State
  | .go s => s
  | .ret r s => s.complete .ok r r
  | .incompressible s => s.forgetDst.complete .ok 0 s.wk.cap
  | .raise s => s.raiseShort

/-- The engine fetches next in the given context. -/
def State.await (c : Ctx) (s : State) : State := { s with engine := .busy c }

end Sys2Proof.Machine
end

