-- ==== Sys2Proof/Machine/Bound.lean ====
section
/-! DEFINITION. BOUND (44_bound.md R230) and the illegal command word (30_encoding.md R81). -/

namespace Sys2Proof.Machine

/-- `compress_block_bound(n)` (44_bound.md R230). -/
def compressBound (n : Nat) : Nat := n + n / 255 + 16

/-- BOUND (44_bound.md R230). -/
def execBound (s : State) : Host.Outcome State Fault Refusal :=
  .next (if s.oversizeSrc then s.rejectRequest else s.complete .ok (compressBound s.wk.n) 0)

/-- ILLEGAL_COMMAND (30_encoding.md R81): whatever its fields hold, ERR = 2 and RESULT = 0. -/
def execIllegalCommand (_op : BitVec 4) (_reserved : BitVec 28) (s : State) : Host.Outcome State Fault Refusal :=
  .next s.rejectRequest

end Sys2Proof.Machine
end

