-- ==== Sys2Proof/Machine/Decoder.lean ====
section
/-! DEFINITION. DECOMPRESS and the elements of a block (43_decoder.md R200 to R208). Each element consumes its bytes at
`si` and leaves the engine waiting for the element the grammar of 30_encoding.md R82 expects next. -/

namespace Sys2Proof.Machine

/-- `si` passes `k` bytes of the block. -/
def State.consume (k : Nat) (s : State) : State := { s with wk := { s.wk with si := s.wk.si + k } }

/-- The end of a literal run: the end of the block, or an offset (43_decoder.md R204, R205). -/
def endOfLiterals (s : State) : Run := if s.wk.si = s.wk.n then .ret s.wk.di s else .go (s.await .offset)

/-- The literal length is known: the two checks of R203, then the run. -/
def literalRun (s : State) : Run :=
  if s.wk.n < s.wk.si + s.wk.litLen then .raise s
  else if s.wk.cap < s.wk.di + s.wk.litLen then .raise s
  else if s.wk.litLen = 0 then endOfLiterals s
  else .go (s.await .literal)

/-- The overlap-tolerant copy of R207: byte by byte, in increasing order, each read after every earlier write. -/
def copyBytes (count off di : Nat) (b : Buf) : Buf :=
  match count with
  | 0 => b
  | k + 1 => copyBytes k off (di + 1) (b.write di (b.read .dst (di - off)))

/-- The match length read so far is complete: MIN_MATCH is added (R206) and the match is copied (R207); then the next
token (R208). -/
def matchCopy (s : State) : Run :=
  if s.wk.cap < s.wk.di + (s.wk.matchLen + Config.minMatch) then .raise s
  else .go { s with
    dst := copyBytes (s.wk.matchLen + Config.minMatch) s.wk.off s.wk.di s.dst
    wk := { s.wk with
      matchLen := s.wk.matchLen + Config.minMatch
      di := s.wk.di + (s.wk.matchLen + Config.minMatch) }
    engine := .busy .token }

/-- The token's byte is read and its two nibbles are kept (R203). -/
def takeToken (ln mn : BitVec 4) (s : State) : State :=
  { s.consume 1 with wk := { (s.consume 1).wk with litLen := ln.toNat, mn := mn } }

/-- The token of R203: a literal nibble of 15 continues in a literal-length extension. -/
def tokenRun (ln mn : BitVec 4) (s : State) : Run :=
  if ln = 15#4 then .go ((takeToken ln mn s).await .litExt) else literalRun (takeToken ln mn s)

/-- TOKEN (30_encoding.md R83, 43_decoder.md R203). -/
def execToken (ln mn : BitVec 4) (s : State) : Host.Outcome State Fault Refusal := .next (tokenRun ln mn s).settle

/-- `v <- v + b` of `ReadLen` for a literal length (43_decoder.md R202). -/
def State.addLitLen (v : Nat) (s : State) : State := { s with wk := { s.wk with litLen := s.wk.litLen + v } }

/-- `v <- v + b` of `ReadLen` for a match length (43_decoder.md R202). -/
def State.addMatchLen (v : Nat) (s : State) : State := { s with wk := { s.wk with matchLen := s.wk.matchLen + v } }

/-- LITLEN_EXT_CONT (30_encoding.md R84, 43_decoder.md R202): adds 255, and more follows. -/
def execLitlenExtCont (s : State) : Host.Outcome State Fault Refusal :=
  .next (((s.consume 1).addLitLen 255).await .litExt)

/-- LITLEN_EXT_END (30_encoding.md R84, 43_decoder.md R202): adds `t` and ends; then the checks of R203. -/
def execLitlenExtEnd (t : Byte) (s : State) : Host.Outcome State Fault Refusal :=
  .next (literalRun ((s.consume 1).addLitLen t.toNat)).settle

/-- One byte of the literal run of R203. -/
def literalCopy (b : Byte) (s : State) : State :=
  { s with
    dst := s.dst.write s.wk.di b
    wk := { s.wk with si := s.wk.si + 1, di := s.wk.di + 1, litLen := s.wk.litLen - 1 } }

/-- The run goes on, or ends after its last byte (R203, R204). -/
def literalNext (s : State) : Run := if s.wk.litLen = 0 then endOfLiterals s else .go (s.await .literal)

/-- LITERAL (30_encoding.md R85, 43_decoder.md R203). -/
def execLiteral (b : Byte) (s : State) : Host.Outcome State Fault Refusal := .next (literalNext (literalCopy b s)).settle

/-- The match length's nibble (43_decoder.md R206): 15 continues in a match-length extension. -/
def matchNibble (s : State) : Run :=
  if s.wk.mn = 15#4 then .go ({ s with wk := { s.wk with matchLen := s.wk.mn.toNat } }.await .matchExt)
  else matchCopy { s with wk := { s.wk with matchLen := s.wk.mn.toNat } }

/-- The check of the offset (43_decoder.md R205). -/
def offsetRun (off : Nat) (s : State) : Run :=
  if off = 0 ∨ s.wk.di < off then .raise s
  else matchNibble { s with wk := { s.wk with off := off } }

/-- OFFSET16 (30_encoding.md R86, 43_decoder.md R205, R206). -/
def execOffset16 (off : BitVec 16) (s : State) : Host.Outcome State Fault Refusal :=
  .next (offsetRun off.toNat (s.consume 2)).settle

/-- MATCHLEN_EXT_CONT (30_encoding.md R84, 43_decoder.md R202, R206): adds 255, and more follows. -/
def execMatchlenExtCont (s : State) : Host.Outcome State Fault Refusal :=
  .next (((s.consume 1).addMatchLen 255).await .matchExt)

/-- MATCHLEN_EXT_END (30_encoding.md R84, 43_decoder.md R202, R206): adds `t` and ends; then the copy of R207. -/
def execMatchlenExtEnd (t : Byte) (s : State) : Host.Outcome State Fault Refusal :=
  .next (matchCopy ((s.consume 1).addMatchLen t.toNat)).settle

/-- The start of a block (43_decoder.md R200): an empty block returns 0 without examining `cap`; otherwise the first token
is fetched at `SRC[0]`. -/
def decompressRun (s : State) : Run :=
  if s.wk.n = 0 then .ret 0 s
  else .go ({ s with wk := { s.wk with si := 0, di := 0 } }.await .token)

/-- DECOMPRESS (43_decoder.md R200). -/
def execDecompress (s : State) : Host.Outcome State Fault Refusal :=
  .next (if s.oversize then s.rejectRequest else (decompressRun s).settle)

end Sys2Proof.Machine
end

