-- ==== Sys2Proof/Machine/Packer.lean ====
section
/-! DEFINITION. The sequence packer (40_token_codec.md R110 to R117), shared by the two encoders. -/

namespace Sys2Proof.Machine

/-- `Put(v)` (40_token_codec.md R110). -/
def put (v : Byte) (s : State) : Run :=
  if s.wk.cap ≤ s.wk.di then .raise s
  else .go { s with dst := s.dst.write s.wk.di v, wk := { s.wk with di := s.wk.di + 1 } }

/-- `Put` each byte in order (R110: "Every byte the packer emits goes through `Put`"). -/
def putAll (vs : List Byte) (s : State) : Run :=
  match vs with
  | [] => .go s
  | v :: r => (put v s).andThen (putAll r)

/-- The literals `SRC[anchor .. anchor+L)`. -/
def State.literals (s : State) (L : Nat) : List Byte := bytesFrom s.srcByte s.wk.anchor L

/-- `EmitSeq(L, off, M)` (40_token_codec.md R113), with `L`, `off` and `M` in the working registers. -/
def emitSeq (s : State) : Run := putAll (seqBytes (s.literals s.wk.litLen) s.wk.off s.wk.matchLen) s

/-- `EmitLastHeader(L)` (40_token_codec.md R114). -/
def emitLastHeader (s : State) : Run := putAll (lastHeader s.wk.litLen) s

/-- `EmitLastLiterals(L)` (40_token_codec.md R114). -/
def emitLastLiterals (s : State) : Run := putAll (s.literals s.wk.litLen) s

/-- The part of `Finish` after the final header: the incompressibility test, then the literals (40_token_codec.md R115,
R117). -/
def finishLiterals (s : State) : Run :=
  if s.wk.anchor ≤ s.wk.di then .incompressible s
  else (emitLastLiterals s).andThen fun t => .ret t.wk.di t

/-- `Finish()` (40_token_codec.md R115). -/
def finish (s : State) : Run :=
  if s.wk.anchor = 0 then .ret 0 s
  else (emitLastHeader { s with wk := { s.wk with litLen := s.wk.n - s.wk.anchor } }).andThen finishLiterals

/-- The early return of both encoders (41_fast_encoder.md R141, 42_hc_encoder.md R171). -/
def State.tooShort (s : State) : Bool := decide (s.wk.n ≤ Config.mfLimit) || decide (s.wk.cap = 0)

/-- The initialisation of both encoders (41_fast_encoder.md R142, 42_hc_encoder.md R171). -/
def State.startScan (s : State) : State :=
  { s with wk := { s.wk with sn := s.wk.n - Config.mfLimit, si := 0, anchor := 0, di := 0 } }

end Sys2Proof.Machine
end

