-- ==== Sys2Proof/Machine/Fast.lean ====
section
/-! DEFINITION. COMPRESS_FAST (41_fast_encoder.md R140 to R149). -/

namespace Sys2Proof.Machine

/-- The lookup of R143: HT_F is written whether or not the candidate is rejected. A candidate at or beyond `si` gives
`off` 0, which the range test rejects as it rejects the spec's negative difference. -/
def fastLookup (s : State) : State :=
  { s with
    wk := { s.wk with
      x := s.srcWord s.wk.si
      h := s.fp s.wk.si
      ref := s.htfCell (s.fp s.wk.si).toNat
      off := s.wk.si - s.htfCell (s.fp s.wk.si).toNat }
    htF := s.htF.write s.cfg.posW (s.fp s.wk.si).toNat s.wk.si
    unseen := s.unseen.engineCell (s.fp s.wk.si).toNat }

/-- The three tests of R143 pass: the cell is not dirty, the offset is in range, the bytes agree. -/
def fastAccepts (s : State) : Bool :=
  decide (s.wk.ref < s.wk.sn) && decide (1 ≤ s.wk.off) && decide (s.wk.off ≤ Config.maxOffset)
    && decide (s.srcWord s.wk.ref = s.wk.x)

/-- The match end `p` of R144. -/
def fastMatchEnd (s : State) : Nat :=
  if s.wk.si + Config.minMatch < s.wk.sn then
    s.wk.si + Config.minMatch + s.commonLen (s.wk.si + Config.minMatch) (s.wk.si + Config.minMatch - s.wk.off)
      (s.wk.sn - (s.wk.si + Config.minMatch))
  else s.wk.si + Config.minMatch

/-- The match extension (R144) and the literal length of the emission (R145). -/
def fastMeasure (s : State) : State :=
  { s with wk := { s.wk with
      p := fastMatchEnd s
      matchLen := fastMatchEnd s - s.wk.si
      litLen := s.wk.si - s.wk.anchor } }

/-- The advance past a match (41_fast_encoder.md R146, 42_hc_encoder.md R178). -/
def advanceMatch (s : State) : Run :=
  .go { s with wk := { s.wk with si := s.wk.si + s.wk.matchLen, anchor := s.wk.si + s.wk.matchLen } }

/-- What one iteration does after the lookup (R143 rejection, or R144 to R146). -/
def fastTake (s : State) : Run :=
  if fastAccepts s then (emitSeq (fastMeasure s)).andThen advanceMatch
  else .go { s with wk := { s.wk with si := s.wk.si + 1 } }

/-- The scan loop of R142, at most `fuel` iterations. -/
def fastScan (fuel : Nat) (s : State) : Run :=
  match fuel with
  | 0 => .go s
  | k + 1 => if s.wk.si < s.wk.sn then (fastTake (fastLookup s)).andThen (fastScan k) else .go s

/-- The command after its illegal-request check: R141, R142, R147. At most `sn` iterations run (R142). -/
def fastRun (s : State) : Run :=
  if s.tooShort then .ret 0 s
  else (fastScan s.startScan.wk.sn s.startScan).andThen finish

/-- COMPRESS_FAST (R140). -/
def execCompressFast (s : State) : Host.Outcome State Fault Refusal :=
  .next (if s.oversize then s.rejectRequest else (fastRun s).settle)

end Sys2Proof.Machine
end

