-- ==== Sys2Proof/Machine/Hc.lean ====
section
/-! DEFINITION. COMPRESS_HC (42_hc_encoder.md R170 to R180). -/

namespace Sys2Proof.Machine

/-- Both HC tables are zeroed before any other action (R170). -/
def State.zeroHc (s : State) : State := { s with htH := .zeroed, ct := .zeroed }

/-- The HC tables between HC commands hold any value (10_state.md R37, 93_implementation_defined.md U3; log entry 8). -/
def State.forgetHc (s : State) : State :=
  { s with htH := .unspecified s.draws, ct := .unspecified s.draws, draws := s.draws + 1 }

/-- The start of a chain walk (R174). -/
def hcLookup (s : State) : State :=
  { s with wk := { s.wk with
      x := s.srcWord s.wk.si
      h := s.fp s.wk.si
      bestLen := 0
      bestOff := 0
      next := s.hthCell (s.fp s.wk.si).toNat
      tryLeft := s.wk.effDepth } }

/-- The measurement of a candidate and its acceptance (R175). -/
def hcMeasure (s : State) : State :=
  if Config.minMatch ≤ s.wk.ml ∧ s.wk.bestLen < s.wk.ml then
    { s with wk := { s.wk with bestLen := s.wk.ml, bestOff := s.wk.si - s.wk.next } }
  else s

/-- `Candidate(next)` (R175): the cheap probe, then the measurement. -/
def hcCandidate (s : State) : State :=
  if s.srcByte (s.wk.next + s.wk.bestLen) = s.srcByte (s.wk.si + s.wk.bestLen) then
    hcMeasure { s with wk := { s.wk with ml := s.commonLen s.wk.next s.wk.si (s.wk.sn - s.wk.si) } }
  else s

/-- One unit of `try` is spent and the walk goes on at `link` (R174). -/
def hcFollow (tries link : Nat) (s : State) : State := { s with wk := { s.wk with tryLeft := tries, next := link } }

/-- The chain walk of R174: one unit of `try` for each candidate visited. -/
def hcWalk (try_ : Nat) (s : State) : State :=
  match try_ with
  | 0 => s
  | k + 1 =>
    if s.wk.next ≠ 0 ∧ s.wk.si < s.wk.next + Config.winSize then
      hcWalk k (hcFollow k (s.ctCell (s.wk.next % Config.winSize)) (hcCandidate s))
    else s

/-- The insertion of a position (R176, R177): its chain slot takes the head of its hash, and the head takes it. `p &
WIN_MASK` is `p mod WIN_SIZE`. -/
def hcInsert (q : Nat) (s : State) : State :=
  { s with
    ct := s.ct.write s.cfg.posW (q % Config.winSize) (s.hthCell (s.fp q).toNat)
    htH := s.htH.write s.cfg.posW (s.fp q).toNat q }

/-- Insert `count` positions from `q` upwards, in increasing order (R177). -/
def hcInsertFrom (count q : Nat) (s : State) : State :=
  match count with
  | 0 => s
  | k + 1 => hcInsertFrom k (q + 1) (hcInsert q s)

/-- The first match-interior position inserted (R177). -/
def hcInsertStart (s : State) : Nat := max (s.wk.si + 1) (s.wk.si + s.wk.bestLen - Config.winSize)

/-- The insertion of the match-interior positions, whose end is exclusive (R177, 90_conflicts.md C9). -/
def hcInsertMatch (s : State) : State := hcInsertFrom (s.wk.si + s.wk.bestLen - hcInsertStart s) (hcInsertStart s) s

/-- The operands of the emission (R178). -/
def hcMeasured (s : State) : State :=
  { s with wk := { s.wk with litLen := s.wk.si - s.wk.anchor, off := s.wk.bestOff, matchLen := s.wk.bestLen } }

/-- What one iteration does after the walk and the insertion of `si`: R176's advance, or R177 and R178. -/
def hcTake (s : State) : Run :=
  if s.wk.bestLen = 0 then .go { s with wk := { s.wk with si := s.wk.si + 1 } }
  else (emitSeq (hcMeasured (hcInsertMatch s))).andThen advanceMatch

/-- The search at one scan position, with the insertion of `si` (R174 to R176). -/
def hcSearch (s : State) : State := hcInsert s.wk.si (hcWalk s.wk.effDepth (hcLookup s))

/-- The scan loop of R171, at most `fuel` iterations. -/
def hcScan (fuel : Nat) (s : State) : Run :=
  match fuel with
  | 0 => .go s
  | k + 1 => if s.wk.si < s.wk.sn then (hcTake (hcSearch s)).andThen (hcScan k) else .go s

/-- The scan's initialisation, with the effective depth of R172. -/
def hcStart (s : State) : State :=
  { s.startScan with wk := { s.startScan.wk with effDepth := effectiveDepth s.wk.depth } }

/-- The command after its illegal-request check: R170, R171, R179. -/
def hcRun (s : State) : Run :=
  if s.tooShort then .ret 0 s.zeroHc
  else (hcScan (hcStart s).wk.sn (hcStart s.zeroHc)).andThen finish

/-- COMPRESS_HC (R171). -/
def execCompressHc (s : State) : Host.Outcome State Fault Refusal :=
  .next (if s.oversize then s.rejectRequest else (hcRun s).settle.forgetHc)

end Sys2Proof.Machine
end

