-- ==== Sys2Proof/Machine/Dispatch.lean ====
section
/-! DEFINITION. The meaning of each instruction: one arm per constructor. -/

namespace Sys2Proof.Machine

def exec (i : Instr) (s : State) : Host.Outcome State Fault Refusal :=
  match i with
  -- command words (30_encoding.md R80, R81)
  | .compressFast => Sys2Proof.Machine.execCompressFast s
  | .compressHc => Sys2Proof.Machine.execCompressHc s
  | .decompress => Sys2Proof.Machine.execDecompress s
  | .bound => Sys2Proof.Machine.execBound s
  | .illegalCommand op reserved => Sys2Proof.Machine.execIllegalCommand op reserved s
  -- elements of a block (30_encoding.md R82 to R86)
  | .token ln mn => Sys2Proof.Machine.execToken ln mn s
  | .litlenExtCont => Sys2Proof.Machine.execLitlenExtCont s
  | .litlenExtEnd t => Sys2Proof.Machine.execLitlenExtEnd t s
  | .literal b => Sys2Proof.Machine.execLiteral b s
  | .offset16 off => Sys2Proof.Machine.execOffset16 off s
  | .matchlenExtCont => Sys2Proof.Machine.execMatchlenExtCont s
  | .matchlenExtEnd t => Sys2Proof.Machine.execMatchlenExtEnd t s

end Sys2Proof.Machine
end

