-- ==== Sys2Proof/Machine/Bus.lean ====
section
/-! DEFINITION. What the agents do in one step: the engine's turn, which fetches, decodes and runs one instruction, and the
host's bus accesses (10_state.md R21, R28; 20_memory.md R63, R69; 70_reset_and_hazards.md R281). -/

namespace Sys2Proof.Machine

/-- The engine's turn. Idle, it does nothing (60_exceptions.md R253). Busy, it runs the instruction at its fetch point;
bytes that are no element of a block raise InvalidSourceShortBuffer (30_encoding.md R88, 43_decoder.md R201, R205). -/
def engineTurn (s : State) : Host.Outcome State Fault Refusal :=
  match s.engine with
  | .idle => .next s
  | .busy c =>
    match decode c (s.fetchBytes c) with
    | .ok i _ => exec i s
    | .rejected _ => .next s.raiseShort

/-- The number of bytes of an access. -/
def Width.bytes : Width → Nat
  | .byte => 1
  | .half => 2
  | .word => 4

/-- Where a bus address lies: a host-visible space and the byte offset in it (20_memory.md R69), or nowhere. -/
inductive Region where
  | reg (off : Nat)
  | src (off : Nat)
  | dst (off : Nat)
  | htf (off : Nat)
  | unmapped
  deriving DecidableEq, Repr

/-- The space an address lies in, from the bases of 00_scope.md R7. -/
def regionOf (p : Params) (a : Nat) : Region :=
  if p.baseReg ≤ a ∧ a < p.baseReg + 64 then .reg (a - p.baseReg)
  else if p.baseSrc ≤ a ∧ a < p.baseSrc + p.maxSrcLen then .src (a - p.baseSrc)
  else if p.baseDst ≤ a ∧ a < p.baseDst + p.maxDstCap then .dst (a - p.baseDst)
  else if p.baseHtf ≤ a ∧ a < p.baseHtf + 262144 then .htf (a - p.baseHtf)
  else .unmapped

/-- A word-aligned 32-bit access, the only form REG and HTF have (10_state.md R28, 20_memory.md R63). -/
def wordAccess (w : Width) (off : Nat) : Bool := decide (w = .word) && decide (off % 4 = 0)

/-- A completed host read. -/
def State.answer (data : Word) (s : State) : State := { s with readData := data }

/-- A host read whose value the spec leaves unspecified (70_reset_and_hazards.md R281, 20_memory.md R72b): a free value of the
access's width (log entries 9 and 27). -/
def State.answerFree (w : Width) (s : State) : State :=
  { s with readData := BitVec.ofNat 32 ((Config.freeWord s.draws).toNat % 256 ^ w.bytes), draws := s.draws + 1 }

/-- A host read of bytes, each of them free where it is hidden: while BUSY = 1 (70_reset_and_hazards.md R281), or before the
host has been promised the engine's write of it (20_memory.md R72b; log entries 9 and 27). -/
def State.answerBytes (hidden : Nat → Bool) (f : Nat → Byte) (off : Nat) (w : Width) (s : State) : State :=
  { s with
    readData := BitVec.ofNat 32 (leValue ((List.range w.bytes).map fun k =>
      if hidden (off + k) then (Config.freeWord s.draws).extractLsb' (8 * k) 8 else f (off + k)))
    draws := s.draws + 1 }

/-- A read of STATUS (10_state.md R26). One that shows DONE = 1 is the host's observation: every write of the engine so far is
now promised to it (20_memory.md R72b; log entry 27). -/
def State.answerStatus (s : State) : State :=
  { s with readData := s.status, unseen := if statusDone s.status then .nothing else s.unseen }

/-- A read of register slot `i` (10_state.md R21, R22, R27, R28). RESULT is free while BUSY = 1, and until the host has observed
DONE = 1 (log entry 27). -/
def readSlot (i : Nat) (s : State) : State :=
  if i = 1 then s.answer s.srcLen
  else if i = 2 then s.answer s.dstCap
  else if i = 3 then s.answer s.depth
  else if i = 4 then s.answerStatus
  else if i = 5 then (if s.isBusy || s.unseen.result then s.answerFree .word else s.answer s.result)
  else s.answer 0

/-- A write of register slot `i` while the engine is idle (10_state.md R21): slot 0 starts a command (R22), slots 4 to 15
ignore writes (R26 to R28). -/
def writeSlot (i : Nat) (data : Word) (s : State) : State :=
  if i = 0 then s.startCommand data
  else if i = 1 then { s with srcLen := data }
  else if i = 2 then { s with dstCap := data }
  else if i = 3 then { s with depth := data }
  else s

/-- A read of `w` bytes of a buffer of `size` bytes at an offset (20_memory.md R63, R72; log entry 13). -/
def readBuffer (base size off : Nat) (hidden : Nat → Bool) (f : Nat → Byte) (w : Width) (s : State) :
    Host.Outcome State Fault Refusal :=
  if size < off + w.bytes then .fault (.busUnmapped (base + size))
  else .next (s.answerBytes hidden f off w)

/-- A byte of SRC the host may not see: only while BUSY = 1, since no command writes SRC (10_state.md R34). -/
def State.srcHidden (s : State) (_a : Nat) : Bool := s.isBusy

/-- A byte of DST the host may not see. -/
def State.dstHidden (s : State) (a : Nat) : Bool := s.isBusy || s.unseen.hides a

/-- A cell of HT_F the host may not see. -/
def State.htfHidden (s : State) (i : Nat) : Bool := s.isBusy || s.unseen.htF.contains i

/-- A host read (10_state.md R21, R28; 20_memory.md R63, R69, R72; 70_reset_and_hazards.md R281, R283). -/
def hostRead (a : Nat) (w : Width) (s : State) : Host.Outcome State Fault Refusal :=
  match regionOf s.cfg a with
  | .reg off => if wordAccess w off then .next (readSlot (off / 4) s) else .refused (.registerAccessForm a)
  | .src off => readBuffer s.cfg.baseSrc s.cfg.maxSrcLen off s.srcHidden s.srcByte w s
  | .dst off => readBuffer s.cfg.baseDst s.cfg.maxDstCap off s.dstHidden s.dstByte w s
  | .htf off =>
    if wordAccess w off then
      .next (if s.htfHidden (off / 4) then s.answerFree .word else s.answer (BitVec.ofNat 32 (s.htfCell (off / 4))))
    else .refused (.htfAccessForm a)
  | .unmapped => .fault (.busUnmapped a)

/-- The low bytes of a word that an access of a width carries. -/
def dataBytes (w : Width) (data : Word) : List Byte := (bytesOfWord data).take w.bytes

/-- A host write while the engine is idle (10_state.md R21, R28, R36; 20_memory.md R63, R69). -/
def hostWriteIdle (a : Nat) (w : Width) (data : Word) (s : State) : Host.Outcome State Fault Refusal :=
  match regionOf s.cfg a with
  | .reg off => if wordAccess w off then .next (writeSlot (off / 4) data s) else .refused (.registerAccessForm a)
  | .src off =>
    if s.cfg.maxSrcLen < off + w.bytes then .fault (.busUnmapped (s.cfg.baseSrc + s.cfg.maxSrcLen))
    else .next { s with src := s.src.writeAll off (dataBytes w data) }
  | .dst off =>
    if s.cfg.maxDstCap < off + w.bytes then .fault (.busUnmapped (s.cfg.baseDst + s.cfg.maxDstCap))
    else .next { s with dst := s.dst.writeAll off (dataBytes w data), unseen := s.unseen.hostBytes off w.bytes }
  | .htf off =>
    if wordAccess w off then
      .next { s with htF := s.htF.write s.cfg.posW (off / 4) data.toNat, unseen := s.unseen.hostCell (off / 4) }
    else .refused (.htfAccessForm a)
  | .unmapped => .fault (.busUnmapped a)

/-- A host write: refused while BUSY = 1, a write to CMD included (70_reset_and_hazards.md R281, R282). DESIGN CHOICE (log
entry 13): so is one to an address in no space, before its address is looked at. -/
def hostWrite (a : Nat) (w : Width) (data : Word) (s : State) : Host.Outcome State Fault Refusal :=
  if s.isBusy then .refused (.hostWriteWhileBusy a) else hostWriteIdle a w data s

/-- One action from outside the engine (log entry 2). -/
def hostTurn (e : HostEvent) (s : State) : Host.Outcome State Fault Refusal :=
  match e with
  | .read a w => hostRead a w s
  | .write a w data => hostWrite a w data s
  | .reset => .next s.platformReset
  | .pause => engineTurn s

/-- A DECOMPRESS in progress whose next element, in the given context, is the given bytes at `SRC[si]`; the engine moves
next (log entry 16). -/
def placeElement (c : Ctx) (bs : List Byte) (s : State) : State :=
  { s with
    cmd := 3
    status := statusWord true false 0
    engine := .busy c
    src := s.src.writeAll s.wk.si bs
    wk := { s.wk with n := max s.wk.n (s.wk.si + bs.length) }
    inbox := .pause :: s.inbox }

/-- The command word written to CMD, as the host's write does (60_exceptions.md R241); the engine moves next (log entry
16). -/
def placeCommand (w : Nat) (s : State) : State :=
  { s.startCommand (BitVec.ofNat 32 w) with inbox := .pause :: s.inbox }

/-- A word of the opcode table placed at the fetch point. -/
def placeTableWord (nbits w : Nat) (s : State) : State :=
  match tableCtx nbits w with
  | none => s
  | some .command => placeCommand w s
  | some .token => placeElement .token (tableBytes nbits w) s
  | some .litExt => placeElement .litExt (tableBytes nbits w) s
  | some .literal => placeElement .literal (tableBytes nbits w) s
  | some .offset => placeElement .offset (tableBytes nbits w) s
  | some .matchExt => placeElement .matchExt (tableBytes nbits w) s

end Sys2Proof.Machine
end

