-- ==== Sys2Proof/Machine/Block.lean ====
section
/-! DEFINITION. The consolidated pseudocode of 43_decoder.md as one function over byte lists: what a whole block decodes
to. The machine runs a block element by element (Machine/Decoder.lean); statements compare the two. -/

namespace Sys2Proof.Machine

/-- `ReadLen(base)` (43_decoder.md R202): the sum of an extension and the bytes after it; none where it is truncated. -/
def readLen (v : Nat) (bs : List Byte) : Option (Nat × List Byte) :=
  match bs with
  | [] => none
  | b :: r => if b = Config.extCont then readLen (v + 255) r else some (v + b.toNat, r)

/-- The length a nibble gives, with its extension where the nibble is 15 (43_decoder.md R203, R206). -/
def nibbleLen (nib : Nat) (bs : List Byte) : Option (Nat × List Byte) :=
  if nib = Config.nibMax then readLen nib bs else some (nib, bs)

/-- The overlap-tolerant copy (43_decoder.md R207): each byte is the one `off` before the end of the output so far. -/
def overlapCopy (count off : Nat) (out : List Byte) : List Byte :=
  match count with
  | 0 => out
  | k + 1 => overlapCopy k off (out ++ [out.getD (out.length - off) 0])

/-- The match of a sequence, from its offset on (43_decoder.md R205 to R207): the output with the match, and the bytes
after the sequence. -/
def blockMatch (cap mn : Nat) (bs out : List Byte) : Option (List Byte × List Byte) :=
  match bs with
  | lo :: hi :: r =>
    if lo.toNat + 256 * hi.toNat = 0 ∨ out.length < lo.toNat + 256 * hi.toNat then none
    else
      match nibbleLen mn r with
      | none => none
      | some (m, r') =>
        if cap < out.length + (m + Config.minMatch) then none
        else some (overlapCopy (m + Config.minMatch) (lo.toNat + 256 * hi.toNat) out, r')
  | _ => none

/-- The loop of 43_decoder.md R203 to R208, at most `fuel` sequences: the output, or none where the decoder raises
InvalidSourceShortBuffer. -/
def blockLoop (cap fuel : Nat) (bs out : List Byte) : Option (List Byte) :=
  match fuel with
  | 0 => none
  | f + 1 =>
    match bs with
    | [] => none
    | t :: r =>
      match nibbleLen (t.toNat / 16) r with
      | none => none
      | some (l, r') =>
        if r'.length < l then none
        else if cap < out.length + l then none
        else if r'.length = l then some (out ++ r')
        else
          match blockMatch cap (t.toNat % 16) (r'.drop l) (out ++ r'.take l) with
          | none => none
          | some (out', r'') => blockLoop cap f r'' out'

/-- What DECOMPRESS makes of a block with capacity `cap` (43_decoder.md R200): the output bytes, or none for
InvalidSourceShortBuffer. Each sequence has at least one byte, so the block's length is enough fuel. -/
def decodeBlock (cap : Nat) (bs : List Byte) : Option (List Byte) :=
  if bs = [] then some [] else blockLoop cap bs.length bs []

end Sys2Proof.Machine
end

