-- ==== Sys2Proof/Safety.lean ====
section
/-! DEFINITION. The terms the statements use: what no instruction changes, the invariant every step keeps, and what a completed
command leaves. -/

namespace Sys2Proof.Machine

/-- The part of the state that no instruction writes: the parameters, the registers the host writes, SRC, and the host's
side of the bus (10_state.md R21, R29, R34). -/
structure HostSide (s t : State) : Prop where
  cfg : t.cfg = s.cfg
  cmd : t.cmd = s.cmd
  srcLen : t.srcLen = s.srcLen
  dstCap : t.dstCap = s.dstCap
  depth : t.depth = s.depth
  src : t.src = s.src
  inbox : t.inbox = s.inbox
  readData : t.readData = s.readData

/-- The three tables are unchanged. -/
structure SameTables (s t : State) : Prop where
  htF : t.htF = s.htF
  htH : t.htH = s.htH
  ct : t.ct = s.ct

/-- The engine's outcome registers are unchanged: STATUS, RESULT and the fault log. -/
structure SameOutcome (s t : State) : Prop where
  status : t.status = s.status
  result : t.result = s.result
  faultLog : t.faultLog = s.faultLog

/-- Every byte of DST at `lim` and above reads as before. -/
def SameDstFrom (lim : Nat) (s t : State) : Prop := ∀ a, lim ≤ a → t.dstByte a = s.dstByte a

/-- Every byte of DST reads as before. -/
def SameDst (s t : State) : Prop := ∀ a, t.dstByte a = s.dstByte a

/-- The state is one a command has just left with outcome `e` and byte count `r` (60_exceptions.md R242): STATUS is
`BUSY = 0, DONE = 1, ERR = e`, RESULT is `r`, the engine is idle, and the fault log of `s` has grown by an `e` other than
`ok`; the host is not promised RESULT before it observes DONE = 1 (20_memory.md R72b). -/
structure Completed (e : Err) (r : Nat) (s t : State) : Prop where
  status : t.status = statusWord false true e.code
  result : t.result = BitVec.ofNat 32 r
  engine : t.engine = .idle
  faultLog : t.faultLog = logErr s.faultLog e
  unseen : t.unseen.result = true

/-- The bytes of DST below `r` join those that the host is not promised before it observes DONE = 1 (20_memory.md R72b,
70_reset_and_hazards.md R283), and no others do. -/
def HidesBelow (r : Nat) (s t : State) : Prop := ∀ a, t.unseen.hides a = (decide (a < r) || s.unseen.hides a)

/-- What STATUS and RESULT hold, by what the engine does (10_state.md R26, R27): busy, BUSY alone; idle, one of the three
outcomes, with RESULT 0 after an error. -/
def statusLegal (s : State) : Prop :=
  match s.engine with
  | .idle => ∃ done e, s.status = statusWord false done (Err.code e) ∧ (e ≠ .ok → s.result = 0) ∧
      (done = false → e = .ok)
  | .busy _ => s.status = statusWord true false 0

/-- The cursors (10_state.md R31; 43_decoder.md R203, R205). At the start of a command both are 0. In a DECOMPRESS in progress
both are inside their buffers; within a literal run, the rest of the run fits both; before a match, the offset lies in the
output. -/
def cursorsLegal (s : State) : Prop :=
  match s.engine with
  | .idle => True
  | .busy c =>
    (c = .command → s.wk.si = 0 ∧ s.wk.di = 0) ∧
    (c ≠ .command →
      s.wk.n ≤ s.cfg.maxSrcLen ∧ s.wk.cap ≤ s.cfg.maxDstCap ∧ s.wk.si ≤ s.wk.n ∧ s.wk.di ≤ s.wk.cap ∧
        (c = .literal → 0 < s.wk.litLen ∧ s.wk.si + s.wk.litLen ≤ s.wk.n ∧ s.wk.di + s.wk.litLen ≤ s.wk.cap) ∧
        (c = .matchExt → 1 ≤ s.wk.off ∧ s.wk.off ≤ s.wk.di))

/-- The invariant of the block: parameters as 00_scope.md R7 asks, a legal STATUS (10_state.md R26), buffers and tables
canonical and inside their spaces (20_memory.md R69), legal cursors (10_state.md R31), a log of errors only. -/
structure Invariant (s : State) : Prop where
  params : s.cfg.valid = true
  status : statusLegal s
  src : s.src.wf s.cfg.maxSrcLen = true
  dst : s.dst.wf s.cfg.maxDstCap = true
  htF : s.htF.wf s.cfg.posW = true
  htH : s.htH.wf s.cfg.posW = true
  ct : s.ct.wf s.cfg.posW = true
  cursors : cursorsLegal s
  faultLog : ∀ e ∈ s.faultLog, e ≠ Err.ok

/-- The candidates a chain walk of 42_hc_encoder.md R174 visits from `next` on, at most `tries` of them, the most recent
first. -/
def hcVisited (s : State) (tries next : Nat) : List Nat :=
  match tries with
  | 0 => []
  | k + 1 =>
    if next ≠ 0 ∧ s.wk.si < next + Config.winSize then next :: hcVisited s k (s.ctCell (next % Config.winSize)) else []

/-- The length of the match a candidate offers at the scan position (42_hc_encoder.md R175). -/
def hcOffers (s : State) (c : Nat) : Nat := s.commonLen c s.wk.si (s.wk.sn - s.wk.si)

/-- What 42_hc_encoder.md R175 makes of the candidates `seen`, the most recent first: the longest match of at least 4 bytes
that one of them offers, and among equally long ones the most recent (R181); none when none offers 4 bytes. -/
def HcLongest (s : State) (seen : List Nat) (len off : Nat) : Prop :=
  (len = 0 ∧ off = 0 ∧ ∀ c ∈ seen, hcOffers s c < 4) ∨
    (4 ≤ len ∧ ∃ newer c older, seen = newer ++ c :: older ∧ hcOffers s c = len ∧ off = s.wk.si - c ∧
      (∀ d ∈ newer, hcOffers s d < len) ∧ ∀ d ∈ older, hcOffers s d ≤ len)

/-- The positions `from .. to`, the end exclusive, in increasing order. -/
def positions (start stop : Nat) : List Nat := List.range' start (stop - start)

/-- The scan positions COMPRESS_FAST visits, in order (41_fast_encoder.md R149): each is looked up; the next is one further
after a rejection, and the match end after a match that was emitted; none follows an emission that failed (R148). -/
def fastVisited (fuel : Nat) (s : State) : List Nat :=
  match fuel with
  | 0 => []
  | k + 1 =>
    if s.wk.si < s.wk.sn then
      s.wk.si ::
        (if fastAccepts (fastLookup s) then
          match emitSeq (fastMeasure (fastLookup s)) with
          | .go t => fastVisited k { t with wk := { t.wk with
              si := fastMatchEnd (fastLookup s), anchor := fastMatchEnd (fastLookup s) } }
          | .ret _ _ => []
          | .incompressible _ => []
          | .raise _ => []
        else fastVisited k { fastLookup s with wk := { (fastLookup s).wk with si := s.wk.si + 1 } })
    else []

/-- The state with another latched capacity. -/
def State.withCap (cap : Nat) (s : State) : State := { s with wk := { s.wk with cap := cap } }

/-- The outcome of an encode of `s` by 40_token_codec.md R116, `u` being what its scan loop leaves when capacity never runs
out: `S` is what the loop emitted, `Hd` the final header, and the literals from `anchor` on are the rest. With no match DST
is as before (60_exceptions.md R243d). -/
def EncodeOutcome (s u t : State) : Prop :=
  let S := bytesFrom u.dstByte 0 u.wk.di
  let Hd := lastHeader (s.wk.n - u.wk.anchor)
  let rest := s.wk.n - u.wk.anchor
  (u.wk.anchor = 0 → Completed .ok 0 s t ∧ SameDst s t) ∧
  (u.wk.anchor ≠ 0 → s.wk.cap < S.length + Hd.length → Completed .invalidSourceShortBuffer 0 s t) ∧
  (u.wk.anchor ≠ 0 → S.length + Hd.length ≤ s.wk.cap → u.wk.anchor ≤ S.length + Hd.length → Completed .ok 0 s t) ∧
  (S.length + Hd.length < u.wk.anchor → S.length + Hd.length ≤ s.wk.cap → s.wk.cap < S.length + Hd.length + rest →
    Completed .invalidSourceShortBuffer 0 s t) ∧
  (S.length + Hd.length < u.wk.anchor → S.length + Hd.length + rest ≤ s.wk.cap →
    Completed .ok (S.length + Hd.length + rest) s t ∧
      bytesFrom t.dstByte 0 (S.length + Hd.length + rest) = S ++ Hd ++ bytesFrom s.srcByte u.wk.anchor rest)

/-- One sequence of a block: its literals, offset and match length (30_encoding.md R82). -/
structure Sequence where
  lit : List Byte
  off : Nat
  len : Nat
  deriving DecidableEq, Repr

/-- What a sequence appends to the output (43_decoder.md R203, R207). -/
def Sequence.expand (out : List Byte) (q : Sequence) : List Byte := overlapCopy q.len q.off (out ++ q.lit)

/-- A sequence is legal after the output `out` (30_encoding.md R86, R88, R89). -/
def Sequence.legal (out : List Byte) (q : Sequence) : Prop :=
  Config.minMatch ≤ q.len ∧ 1 ≤ q.off ∧ q.off ≤ Config.maxOffset ∧ q.off ≤ (out ++ q.lit).length

/-- Each sequence is legal after the output of those before it. -/
def legalFrom (out : List Byte) (qs : List Sequence) : Prop :=
  match qs with
  | [] => True
  | q :: r => q.legal out ∧ legalFrom (q.expand out) r

/-- The bytes of a block: its sequences, then a final sequence with the literals `last` (30_encoding.md R82). -/
def blockBytes (qs : List Sequence) (last : List Byte) : List Byte :=
  assemble (qs.map (fun q => Line.seq q.lit q.off q.len) ++ [.last last])

end Sys2Proof.Machine
end

