-- ==== Sys2Proof/Certificates/Slice0/Obligations.lean ====
section
/-! DEFINITION. The statements for the provers. Each cites the rules of spec/ it formalises; a value the spec leaves open is
a free value, and no statement rests on one. -/

open Sys2Proof Sys2Proof.Machine

/-! ### Encodings (30_encoding.md) -/

/-- Words written out from the encodings of R80, R81, R83, R84, R85 and R86 decode to the instructions they stand for. -/
def Obligations.WrittenOutWordsDecode : Prop :=
  decode .command [0x01, 0x00, 0x00, 0x00] = .ok .compressFast [] ∧
  decode .command [0x02, 0x00, 0x00, 0x00] = .ok .compressHc [] ∧
  decode .command [0x03, 0x00, 0x00, 0x00] = .ok .decompress [] ∧
  decode .command [0x04, 0x00, 0x00, 0x00] = .ok .bound [] ∧
  decode .command [0x00, 0x00, 0x00, 0x00] = .ok (.illegalCommand 0 0) [] ∧
  decode .command [0x14, 0x00, 0x00, 0x00] = .ok (.illegalCommand 4 1) [] ∧
  decode .token [0x1F, 0x61] = .ok (.token 1 15) [0x61] ∧
  decode .litExt [0xFF, 0x05] = .ok .litlenExtCont [0x05] ∧
  decode .litExt [0x05] = .ok (.litlenExtEnd 0x05) [] ∧
  decode .literal [0xFF] = .ok (.literal 0xFF) [] ∧
  decode .offset [0x00, 0x01] = .ok (.offset16 256) [] ∧
  decode .matchExt [0xFF] = .ok .matchlenExtCont [] ∧
  decode .matchExt [0x20] = .ok (.matchlenExtEnd 0x20) []

/-- The decoder reads every well-formed instruction's encoding back, whatever bytes follow (R80 to R86). -/
def Obligations.DecodeOfEncode : Prop :=
  ∀ (i : Instr) (rest : List Byte), i.wf = true → decode i.ctx (encode i ++ rest) = .ok i rest

/-- What the decoder reads is the encoding of the instruction it answers: no two instructions share an encoding in one
context, and no bit is dropped (R80 to R86). -/
def Obligations.EncodeOfDecode : Prop :=
  ∀ (c : Ctx) (bs rest : List Byte) (i : Instr), decode c bs = .ok i rest →
    bs = encode i ++ rest ∧ i.wf = true ∧ i.ctx = c

/-- The decoder rejects exactly an offset of 0 and bytes too few for the context (R82, R86, R88). -/
def Obligations.RejectedExactly : Prop :=
  ∀ (c : Ctx) (bs : List Byte),
    (decode c bs = .rejected .truncated ↔
      bs.length < (match c with | .command => 4 | .offset => 2 | _ => 1)) ∧
    (decode c bs = .rejected .zeroOffset ↔ c = .offset ∧ ∃ rest, bs = 0 :: 0 :: rest)

/-- R84: an extension of `k` bytes 0xFF and a terminator `t` below 0xFF has the value `255*k + t`, and each value has
exactly one extension, with `k = v / 255` and `t = v mod 255`. -/
def Obligations.ExtensionsAreUnique : Prop :=
  (∀ (k base : Nat) (t : Byte) (rest : List Byte), t ≠ 0xFF →
    readLen base (List.replicate k 0xFF ++ t :: rest) = some (base + 255 * k + t.toNat, rest)) ∧
  (∀ (base v : Nat) (bs rest : List Byte), readLen base bs = some (v, rest) →
    base ≤ v ∧ bs = List.replicate ((v - base) / 255) 0xFF ++ BitVec.ofNat 8 ((v - base) % 255) :: rest)

/-- R87: the sizes of a sequence and of a final sequence. -/
def Obligations.SequenceSizes : Prop :=
  (∀ (lit : List Byte) (off len : Nat), 4 ≤ len →
    (Line.seq lit off len).bytes.length =
      1 + (if lit.length < 15 then 0 else (lit.length - 15) / 255 + 1) + lit.length + 2 +
        (if len - 4 < 15 then 0 else (len - 4 - 15) / 255 + 1)) ∧
  (∀ lit : List Byte,
    (Line.last lit).bytes.length = 1 + (if lit.length < 15 then 0 else (lit.length - 15) / 255 + 1) + lit.length)

/-- R82, R83, R85 to R87 and the packer rules R111 to R114: a block of legal sequences and a final literal run of any
length (R210) decodes to what its sequences expand to, when the output fits. -/
def Obligations.BlocksDecodeToTheirSequences : Prop :=
  ∀ (qs : List Sequence) (last : List Byte) (cap : Nat), legalFrom [] qs →
    (qs.foldl Sequence.expand []).length + last.length ≤ cap →
    decodeBlock cap (blockBytes qs last) = some (qs.foldl Sequence.expand [] ++ last)

/-! ### Primitives (00_scope.md) -/

/-- R10: the hash of a 32-bit value is the product's upper 16 bits, the product truncated to 32 bits first; the fingerprint
of position `p` is the hash of the four bytes at `p`, read little-endian. -/
def Obligations.FingerprintIsTheHash : Prop :=
  (∀ x : Word, (fpHash x).toNat = ((x.toNat * 2654435761) % 4294967296) / 65536) ∧
  (∀ (s : State) (p : Nat), s.fp p = fpHash (s.srcWord p) ∧
    (s.srcWord p).toNat = (s.srcByte p).toNat + 256 * (s.srcByte (p + 1)).toNat + 65536 * (s.srcByte (p + 2)).toNat +
      16777216 * (s.srcByte (p + 3)).toNat)

/-- R11: `CommonLen` is the smallest `k` with `k = limit` or a difference at `k`. -/
def Obligations.CommonLenIsTheFirstDifference : Prop :=
  ∀ (s : State) (a b limit : Nat),
    s.commonLen a b limit ≤ limit ∧
    (∀ j, j < s.commonLen a b limit → s.srcByte (a + j) = s.srcByte (b + j)) ∧
    (s.commonLen a b limit = limit ∨
      s.srcByte (a + s.commonLen a b limit) ≠ s.srcByte (b + s.commonLen a b limit))

/-! ### Packer (40_token_codec.md) -/

/-- R110: `Put` writes one byte at `di`, or raises and writes nothing when `di >= cap`. -/
def Obligations.PutWritesOneByteOrRaises : Prop :=
  ∀ (v : Byte) (s : State),
    (s.wk.cap ≤ s.wk.di → put v s = .raise s) ∧
    (s.wk.di < s.wk.cap → ∃ t, put v s = .go t ∧ t.wk = { s.wk with di := s.wk.di + 1 } ∧
      t.dstByte s.wk.di = v ∧ (∀ a, a ≠ s.wk.di → t.dstByte a = s.dstByte a) ∧
      HostSide s t ∧ SameTables s t ∧ SameOutcome s t)

/-- R113: `EmitSeq(L, off, M)` appends the token, the literal extension, the literals, the offset's two bytes and the
match extension to the output; when they do not fit it raises. -/
def Obligations.EmitSeqAppendsTheSequence : Prop :=
  ∀ s : State, s.wk.di ≤ s.wk.cap →
    let bytes := tokenByte s.wk.litLen (s.wk.matchLen - 4) ::
      ((if 15 ≤ s.wk.litLen then extBytes (s.wk.litLen - 15) else []) ++ bytesFrom s.srcByte s.wk.anchor s.wk.litLen ++
        [BitVec.ofNat 8 (s.wk.off % 256), BitVec.ofNat 8 (s.wk.off / 256)] ++
        (if 15 ≤ s.wk.matchLen - 4 then extBytes (s.wk.matchLen - 4 - 15) else []))
    (s.wk.di + bytes.length ≤ s.wk.cap → ∃ t, emitSeq s = .go t ∧ t.wk = { s.wk with di := s.wk.di + bytes.length } ∧
      bytesFrom t.dstByte 0 t.wk.di = bytesFrom s.dstByte 0 s.wk.di ++ bytes) ∧
    (s.wk.cap < s.wk.di + bytes.length → ∃ t, emitSeq s = .raise t)

/-- R115: `Finish` returns 0 when no match was emitted; otherwise it writes the final header, raising when it does not
fit, tests `di >= anchor`, and only then writes the literals, raising when they do not fit. -/
def Obligations.FinishInOrder : Prop :=
  ∀ s : State, s.wk.di ≤ s.wk.cap → s.wk.anchor ≤ s.wk.n →
    (s.wk.anchor = 0 → finish s = .ret 0 s) ∧
    (s.wk.anchor ≠ 0 →
      let header := lastHeader (s.wk.n - s.wk.anchor)
      let before := s.wk.di + header.length
      (s.wk.cap < before → ∃ t, finish s = .raise t) ∧
      (before ≤ s.wk.cap → s.wk.anchor ≤ before → ∃ t, finish s = .incompressible t) ∧
      (before ≤ s.wk.cap → before < s.wk.anchor → s.wk.cap < before + (s.wk.n - s.wk.anchor) →
        ∃ t, finish s = .raise t) ∧
      (before < s.wk.anchor → before + (s.wk.n - s.wk.anchor) ≤ s.wk.cap →
        ∃ t, finish s = .ret (before + (s.wk.n - s.wk.anchor)) t ∧
          bytesFrom t.dstByte 0 (before + (s.wk.n - s.wk.anchor)) =
            bytesFrom s.dstByte 0 s.wk.di ++ header ++ bytesFrom s.srcByte s.wk.anchor (s.wk.n - s.wk.anchor)))

/-! ### The match finders (41_fast_encoder.md, 42_hc_encoder.md) -/

/-- R143: the lookup reads the cell of the fingerprint and then writes `si` to it; the candidate is accepted exactly when
it passes the three tests. That the write keeps POS_W bits of `si` is the model's choice, log entry 25. -/
def Obligations.FastLookupAndTests : Prop :=
  ∀ s : State,
    (fastLookup s).wk.ref = s.htfCell (s.fp s.wk.si).toNat ∧
    (fastLookup s).htfCell (s.fp s.wk.si).toNat = s.wk.si % 2 ^ s.cfg.posW ∧
    (∀ i, i ≠ (s.fp s.wk.si).toNat → (fastLookup s).htfCell i = s.htfCell i) ∧
    (fastAccepts (fastLookup s) = true ↔
      s.htfCell (s.fp s.wk.si).toNat < s.wk.sn ∧
      (1 : Int) ≤ (s.wk.si : Int) - s.htfCell (s.fp s.wk.si).toNat ∧
      (s.wk.si : Int) - s.htfCell (s.fp s.wk.si).toNat ≤ 65535 ∧
      ∀ k, k < 4 → s.srcByte (s.htfCell (s.fp s.wk.si).toNat + k) = s.srcByte (s.wk.si + k))

/-- R144: the match has at least 4 bytes, agrees with the bytes `off` before it, and ends at the first difference or at
`sn`, whichever comes first. -/
def Obligations.FastMatchEndsAtTheFirstDifference : Prop :=
  ∀ s : State, s.wk.off ≤ s.wk.si + 4 →
    s.wk.si + 4 ≤ fastMatchEnd s ∧
    fastMatchEnd s ≤ max (s.wk.si + 4) s.wk.sn ∧
    (∀ q, s.wk.si + 4 ≤ q → q < fastMatchEnd s → s.srcByte q = s.srcByte (q - s.wk.off)) ∧
    (fastMatchEnd s < s.wk.sn → s.srcByte (fastMatchEnd s) ≠ s.srcByte (fastMatchEnd s - s.wk.off))

/-- R174, R175 and the result of R181: the walk chooses the longest match of at least 4 bytes that the visited candidates
offer, and among equally long ones the most recently inserted; it finds none when none offers 4 bytes. -/
def Obligations.HcWalkTakesTheLongest : Prop :=
  ∀ (s : State) (tries : Nat), s.wk.bestLen = 0 → s.wk.bestOff = 0 →
    (hcVisited s tries s.wk.next).length ≤ tries ∧
    HcLongest s (hcVisited s tries s.wk.next) (hcWalk tries s).wk.bestLen (hcWalk tries s).wk.bestOff

/-- R176 and R177: inserting a position puts the old head of its hash in its chain slot and the position in the head, and
changes no other entry. The positions inside a match are inserted from `max(si + 1, si + best_len - 65536)` up to the match
end, the end exclusive, in increasing order, and no others; without a match none are. The search at a scan position inserts
that position, after its walk, and no other. A position is stored in POS_W bits: the model's choice, log entry 25. -/
def Obligations.HcInsertionLinksTheChain : Prop :=
  (∀ (s : State) (q : Nat), s.htH.wf s.cfg.posW = true →
    (hcInsert q s).hthCell (s.fp q).toNat = q % 2 ^ s.cfg.posW ∧
    (∀ i, i ≠ (s.fp q).toNat → (hcInsert q s).hthCell i = s.hthCell i) ∧
    (hcInsert q s).ctCell (q % 65536) = s.hthCell (s.fp q).toNat ∧
    (∀ i, i ≠ q % 65536 → (hcInsert q s).ctCell i = s.ctCell i)) ∧
  (∀ s : State, s.wk.bestLen = 0 → hcTake s = .go { s with wk := { s.wk with si := s.wk.si + 1 } }) ∧
  (∀ s t : State, 4 ≤ s.wk.bestLen → hcTake s = .go t →
    let inside := positions (max (s.wk.si + 1) (s.wk.si + s.wk.bestLen - 65536)) (s.wk.si + s.wk.bestLen)
    t.wk.si = s.wk.si + s.wk.bestLen ∧ t.wk.anchor = s.wk.si + s.wk.bestLen ∧
    t.htH = (inside.foldl (fun u q => hcInsert q u) s).htH ∧ t.ct = (inside.foldl (fun u q => hcInsert q u) s).ct) ∧
  (∀ s : State, (hcSearch s).wk.si = s.wk.si ∧ (hcSearch s).htH = (hcInsert s.wk.si s).htH ∧
    (hcSearch s).ct = (hcInsert s.wk.si s).ct)

/-- R172: a depth of 0 or less means 65536, any other depth is taken as it is, and at most that many candidates are visited
at one scan position; the depth is DEPTH read as two's complement (R25). COMPRESS_HC starts its scan with that budget, each
scan position keeps it for the next, and the search at a position makes the choice of R174 and R175 among the candidates
that the whole budget visits; depths with one budget give one outcome. -/
def Obligations.EffectiveDepthOfTheRegister : Prop :=
  (∀ d : Int, (d ≤ 0 → effectiveDepth d = 65536) ∧ (0 < d → (effectiveDepth d : Int) = d)) ∧
  (∀ w : Word, effectiveDepth (depthValue w) = if w.toNat = 0 ∨ 2147483648 ≤ w.toNat then 65536 else w.toNat) ∧
  (∀ s : State, (hcStart s).wk.effDepth = effectiveDepth s.wk.depth) ∧
  (∀ s t : State, hcTake (hcSearch s) = .go t → t.wk.effDepth = s.wk.effDepth) ∧
  (∀ s : State,
    let seen := hcVisited s s.wk.effDepth (s.hthCell (s.fp s.wk.si).toNat)
    seen.length ≤ s.wk.effDepth ∧ HcLongest s seen (hcSearch s).wk.bestLen (hcSearch s).wk.bestOff) ∧
  (∀ (s : State) (d : Int), effectiveDepth d = effectiveDepth s.wk.depth →
    exec .compressHc { s with wk := { s.wk with depth := d } } = exec .compressHc s)

/-! ### Commands -/

/-- R230: the command word 4 is BOUND; it returns `n + n/255 + 16`, which fits RESULT, and touches no buffer and no table; a
length beyond MAX_SRC_LEN is an illegal request. -/
def Obligations.BoundReturnsTheFormula : Prop :=
  decodeCommand 4#32 = .bound ∧
  ∀ s : State, s.cfg.valid = true →
    ∃ t, exec .bound s = .next t ∧ HostSide s t ∧ SameTables s t ∧ SameDst s t ∧
      (s.wk.n ≤ s.cfg.maxSrcLen → Completed .ok (s.wk.n + s.wk.n / 255 + 16) s t ∧
        t.result.toNat = s.wk.n + s.wk.n / 255 + 16) ∧
      (s.cfg.maxSrcLen < s.wk.n → Completed .illegalRequest 0 s t)

/-- R81: the opcodes 0 and 5 to 15, and any word with a reserved bit set, are illegal, and no other word is; an illegal word,
whatever its fields, completes with ERR = 2 and RESULT = 0 and changes nothing else. -/
def Obligations.IllegalCommandCompletes : Prop :=
  (∀ w : Word, (∃ op reserved, decodeCommand w = .illegalCommand op reserved) ↔
    (w.toNat % 16 = 0 ∨ 5 ≤ w.toNat % 16 ∨ w.toNat / 16 ≠ 0)) ∧
  (∀ (op : BitVec 4) (reserved : BitVec 28) (s : State),
    ∃ t, exec (.illegalCommand op reserved) s = .next t ∧ Completed .illegalRequest 0 s t ∧
      statusErr t.status = 2#4 ∧ HostSide s t ∧ SameTables s t ∧ SameDst s t)

/-- R241: a command whose SRC_LEN exceeds MAX_SRC_LEN, or (BOUND apart) whose DST_CAP exceeds MAX_DST_CAP, completes with
ERR = 2 and RESULT = 0 and changes no buffer and no table. -/
def Obligations.OversizeRequestsAreIllegal : Prop :=
  ∀ (i : Instr) (s : State),
    ((i = .compressFast ∨ i = .compressHc ∨ i = .decompress) ∧
        (s.cfg.maxSrcLen < s.wk.n ∨ s.cfg.maxDstCap < s.wk.cap)) ∨
      (i = .bound ∧ s.cfg.maxSrcLen < s.wk.n) →
    ∃ t, exec i s = .next t ∧ Completed .illegalRequest 0 s t ∧ HostSide s t ∧ SameTables s t ∧ SameDst s t

/-- R141 and the early return of R171: with `n <= 12` or `cap = 0` both encoders return 0 without an error, write no DST
byte and leave HT_F as it is. -/
def Obligations.ShortInputsReturnZero : Prop :=
  ∀ (i : Instr) (s : State), i = .compressFast ∨ i = .compressHc →
    s.wk.n ≤ s.cfg.maxSrcLen → s.wk.cap ≤ s.cfg.maxDstCap → (s.wk.n ≤ 12 ∨ s.wk.cap = 0) →
    ∃ t, exec i s = .next t ∧ Completed .ok 0 s t ∧ HostSide s t ∧ SameDst s t ∧ t.htF = s.htF

/-- R115, R116, R140, R142 to R148, R242 and R243: COMPRESS_FAST completes, with a byte count at most `cap` or with
InvalidSourceShortBuffer; it writes nothing at `cap` and above, nothing at and above a nonzero result, and neither HC table;
the bytes below a nonzero result are not promised to the host before it observes DONE = 1 (R72, R283).
Past the early return of R141, its scan loop run with any capacity of BOUND(n) or more comes to its end, `si` between `sn`
and `sn + 3` (R31), and what the loop then leaves decides the command's outcome by R116: a result of 0 only when no match was
found (DST as before) or the header reaches `anchor`. While `si < sn` the loop looks up, emits and passes an accepted match or
goes one position on, and repeats. -/
def Obligations.CompressFastCompletes : Prop :=
  (∀ (k : Nat) (v : State),
    (v.wk.si < v.wk.sn → fastScan (k + 1) v =
      (if fastAccepts (fastLookup v) then (emitSeq (fastMeasure (fastLookup v))).andThen advanceMatch
        else .go { fastLookup v with wk := { (fastLookup v).wk with si := v.wk.si + 1 } }).andThen (fastScan k)) ∧
    (v.wk.sn ≤ v.wk.si → fastScan k v = .go v)) ∧
  ∀ s : State, s.wk.n ≤ s.cfg.maxSrcLen → s.wk.cap ≤ s.cfg.maxDstCap →
    ∃ t, exec .compressFast s = .next t ∧ HostSide s t ∧ SameDstFrom s.wk.cap s t ∧ t.htH = s.htH ∧ t.ct = s.ct ∧
      ((∃ r, r ≤ s.wk.cap ∧ Completed .ok r s t ∧ (r ≠ 0 → SameDstFrom r s t ∧ HidesBelow r s t)) ∨
        Completed .invalidSourceShortBuffer 0 s t) ∧
      (12 < s.wk.n → 0 < s.wk.cap → ∀ big, s.wk.n + s.wk.n / 255 + 16 ≤ big →
        ∃ u, fastScan (s.wk.n - 12) (s.withCap big).startScan = .go u ∧
          s.wk.n - 12 ≤ u.wk.si ∧ u.wk.si ≤ s.wk.n - 12 + 3 ∧ EncodeOutcome s u t)

/-- R115, R116, R170, R171, R174 to R181, R242 and R243: COMPRESS_HC completes likewise, leaves HT_F as it is, and has the
outcome R116 gives from what its scan loop leaves, the loop starting with both HC tables zeroed and the budget of R172. While
`si < sn` the loop searches at `si`, takes what the search chose, and repeats; every match ends at or below `sn` (R181), so
the loop ends at `si = sn`. -/
def Obligations.CompressHcCompletes : Prop :=
  (∀ (k : Nat) (v : State),
    (v.wk.si < v.wk.sn → hcScan (k + 1) v = (hcTake (hcSearch v)).andThen (hcScan k)) ∧
    (v.wk.sn ≤ v.wk.si → hcScan k v = .go v)) ∧
  ∀ s : State, s.wk.n ≤ s.cfg.maxSrcLen → s.wk.cap ≤ s.cfg.maxDstCap →
    ∃ t, exec .compressHc s = .next t ∧ HostSide s t ∧ SameDstFrom s.wk.cap s t ∧ t.htF = s.htF ∧
      ((∃ r, r ≤ s.wk.cap ∧ Completed .ok r s t ∧ (r ≠ 0 → SameDstFrom r s t ∧ HidesBelow r s t)) ∨
        Completed .invalidSourceShortBuffer 0 s t) ∧
      (12 < s.wk.n → 0 < s.wk.cap → ∀ big, s.wk.n + s.wk.n / 255 + 16 ≤ big →
        ∃ u, hcScan (s.wk.n - 12) (hcStart (s.withCap big).zeroHc) = .go u ∧
          u.wk.si = s.wk.n - 12 ∧ EncodeOutcome s u t)

/-- R117: a nonzero result of COMPRESS_FAST or COMPRESS_HC is strictly less than `n`. -/
def Obligations.NonzeroResultsAreSmaller : Prop :=
  ∀ (i : Instr) (s t : State), i = .compressFast ∨ i = .compressHc → exec i s = .next t →
    t.result ≠ 0 → t.result.toNat < s.wk.n

/-- R140: what COMPRESS_FAST leaves in DST[0..RESULT) decodes to SRC[0..n), whatever HT_F held (R149). -/
def Obligations.CompressFastRoundTrips : Prop :=
  ∀ (s t : State) (cap : Nat), s.cfg.valid = true → exec .compressFast s = .next t → t.result ≠ 0 → s.wk.n ≤ cap →
    decodeBlock cap (bytesFrom t.dstByte 0 t.result.toNat) = some (bytesFrom s.srcByte 0 s.wk.n)

/-- R171 with R140: what COMPRESS_HC leaves in DST[0..RESULT) decodes to SRC[0..n), whatever the depth. -/
def Obligations.CompressHcRoundTrips : Prop :=
  ∀ (s t : State) (cap : Nat), s.cfg.valid = true → exec .compressHc s = .next t → t.result ≠ 0 → s.wk.n ≤ cap →
    decodeBlock cap (bytesFrom t.dstByte 0 t.result.toNat) = some (bytesFrom s.srcByte 0 s.wk.n)

/-- R231: with `cap >= BOUND(n)` neither encoder raises InvalidSourceShortBuffer; a request within the limits completes
with ERR = 0 and a byte count. -/
def Obligations.BoundCapacitySuffices : Prop :=
  ∀ (i : Instr) (s : State), i = .compressFast ∨ i = .compressHc → s.wk.n + s.wk.n / 255 + 16 ≤ s.wk.cap →
    ∃ t, exec i s = .next t ∧ statusErr t.status ≠ 1#4 ∧
      (s.wk.n ≤ s.cfg.maxSrcLen → s.wk.cap ≤ s.cfg.maxDstCap → ∃ r, r ≤ s.wk.n ∧ Completed .ok r s t)

/-- R148 and R149: COMPRESS_FAST leaves HT_F with exactly the writes `HT_F[fp(si)] <- si` over the scan positions it visited,
in increasing order: 0, then one further after a rejection, the match end after a match, none after an emission that failed;
the early return and an illegal request leave it as it is. So each cell holds what it held, or a scan position below `sn`
whose fingerprint is the cell's index. -/
def Obligations.FastTableHoldsScanPositions : Prop :=
  ∀ s t : State, s.cfg.valid = true → exec .compressFast s = .next t →
    (∀ i, t.htfCell i = s.htfCell i ∨ ∃ p, p < s.wk.n - 12 ∧ (s.fp p).toNat = i ∧ t.htfCell i = p) ∧
    ((s.wk.n ≤ 12 ∨ s.wk.cap = 0 ∨ s.cfg.maxSrcLen < s.wk.n ∨ s.cfg.maxDstCap < s.wk.cap) → t.htF = s.htF) ∧
    (s.wk.n ≤ s.cfg.maxSrcLen → s.wk.cap ≤ s.cfg.maxDstCap → 12 < s.wk.n → 0 < s.wk.cap →
      let visited := fastVisited (s.wk.n - 12) s.startScan
      visited.head? = some 0 ∧ visited.Pairwise (· < ·) ∧ (∀ p ∈ visited, p < s.wk.n - 12) ∧
      ∀ i, t.htfCell i = visited.foldl (fun c p => if (s.fp p).toNat = i then p else c) (s.htfCell i))

/-- R170: COMPRESS_HC neither reads nor writes HT_F: with any other content of HT_F it does the same. -/
def Obligations.CompressHcIgnoresFastTable : Prop :=
  ∀ (s t : State) (table : Table), exec .compressHc s = .next t →
    exec .compressHc { s with htF := table } = .next { t with htF := table }

/-- R65: COMPRESS_FAST and COMPRESS_HC read no `SRC[i]` with `i >= n`: with another SRC that agrees below `n` they do the
same. -/
def Obligations.EncodersReadOnlyTheirInput : Prop :=
  ∀ (i : Instr) (s t : State) (other : Buf), i = .compressFast ∨ i = .compressHc →
    (∀ k, k < s.wk.n → other.read .src k = s.srcByte k) → exec i s = .next t →
    exec i { s with src := other } = .next { t with src := other }

/-! ### The copy engine (43_decoder.md) -/

/-- R200: DECOMPRESS returns 0 for an empty block without examining `cap`; otherwise its cursors are 0 and its first token
is fetched next. -/
def Obligations.DecompressStartsTheBlock : Prop :=
  ∀ s : State, s.wk.n ≤ s.cfg.maxSrcLen → s.wk.cap ≤ s.cfg.maxDstCap →
    (s.wk.n = 0 → ∃ t, exec .decompress s = .next t ∧ Completed .ok 0 s t ∧ HostSide s t ∧ SameTables s t ∧
      SameDst s t) ∧
    (s.wk.n ≠ 0 → ∃ t, exec .decompress s = .next t ∧ t.engine = .busy .token ∧
      t.wk = { s.wk with si := 0, di := 0 } ∧ HostSide s t ∧ SameTables s t ∧ SameOutcome s t ∧ SameDst s t)

/-- R200 to R209 as a whole: a DECOMPRESS command, its request within the limits, runs its block element by element to
the end that the pseudocode gives: the decoded bytes in DST and their number in RESULT, every other byte of DST as
before; or ERR = 1 and RESULT = 0, DST at `cap` and above as before. SRC and the tables do not change. Model choice,
log entry 1: the block runs one element a step. -/
def Obligations.DecompressRunsTheBlock : Prop :=
  ∀ s : State, s.engine = .busy .command → s.cmd = 3 → s.inbox = [] →
    s.wk.n ≤ s.cfg.maxSrcLen → s.wk.cap ≤ s.cfg.maxDstCap →
    ∃ k t, k ≤ s.wk.n + 2 ∧ core.run k s = .next t ∧ HostSide s t ∧ SameTables s t ∧
      match decodeBlock s.wk.cap (bytesFrom s.srcByte 0 s.wk.n) with
      | some out => Completed .ok out.length s t ∧ out.length ≤ s.wk.cap ∧
          bytesFrom t.dstByte 0 out.length = out ∧ SameDstFrom out.length s t ∧ HidesBelow out.length s t
      | none => Completed .invalidSourceShortBuffer 0 s t ∧ SameDstFrom s.wk.cap s t

/-- R203 and R204 for TOKEN: a literal nibble of 15 awaits the extension; otherwise the two checks, and then the literals,
the end of the block, or the offset. -/
def Obligations.TokenOpensTheRun : Prop :=
  ∀ (ln mn : BitVec 4) (s : State),
    let w := { s.wk with si := s.wk.si + 1, litLen := ln.toNat, mn := mn }
    (ln = 15#4 → exec (.token ln mn) s = .next { s with wk := w, engine := .busy .litExt }) ∧
    (ln ≠ 15#4 → s.wk.si + 1 + ln.toNat ≤ s.wk.n → s.wk.di + ln.toNat ≤ s.wk.cap → ln ≠ 0#4 →
      exec (.token ln mn) s = .next { s with wk := w, engine := .busy .literal }) ∧
    (ln = 0#4 → s.wk.si + 1 < s.wk.n → s.wk.di ≤ s.wk.cap →
      exec (.token ln mn) s = .next { s with wk := w, engine := .busy .offset }) ∧
    (ln = 0#4 → s.wk.si + 1 = s.wk.n → s.wk.di ≤ s.wk.cap →
      ∃ t, exec (.token ln mn) s = .next t ∧ Completed .ok s.wk.di s t ∧ HostSide s t ∧ SameTables s t ∧ SameDst s t) ∧
    (ln ≠ 15#4 → s.wk.n < s.wk.si + 1 + ln.toNat ∨ s.wk.cap < s.wk.di + ln.toNat →
      ∃ t, exec (.token ln mn) s = .next t ∧ Completed .invalidSourceShortBuffer 0 s t)

/-- R202: a continuation byte adds 255 to the length and another extension byte is read next. -/
def Obligations.ContinuationAdds255 : Prop :=
  ∀ s : State,
    exec .litlenExtCont s = .next { s with
      wk := { s.wk with si := s.wk.si + 1, litLen := s.wk.litLen + 255 }, engine := .busy .litExt } ∧
    exec .matchlenExtCont s = .next { s with
      wk := { s.wk with si := s.wk.si + 1, matchLen := s.wk.matchLen + 255 }, engine := .busy .matchExt }

/-- R202, R203 and R204 for LITLEN_EXT_END: the terminator is added, then the two checks, and then the literals (or, for a
run of no bytes, which the 15 of the nibble rules out in a block, the end of the block or the offset). For `b` = 0xFF, which
is no terminator (R84), the clause is the model's choice, log entry 24. -/
def Obligations.LiteralExtensionEnds : Prop :=
  ∀ (b : Byte) (s : State),
    let len := s.wk.litLen + b.toNat
    let w := { s.wk with si := s.wk.si + 1, litLen := len }
    (s.wk.si + 1 + len ≤ s.wk.n → s.wk.di + len ≤ s.wk.cap → 0 < len →
      exec (.litlenExtEnd b) s = .next { s with wk := w, engine := .busy .literal }) ∧
    (len = 0 → s.wk.si + 1 < s.wk.n → s.wk.di ≤ s.wk.cap →
      exec (.litlenExtEnd b) s = .next { s with wk := w, engine := .busy .offset }) ∧
    (len = 0 → s.wk.si + 1 = s.wk.n → s.wk.di ≤ s.wk.cap →
      ∃ t, exec (.litlenExtEnd b) s = .next t ∧ Completed .ok s.wk.di s t ∧ HostSide s t ∧ SameTables s t ∧
        SameDst s t) ∧
    (s.wk.n < s.wk.si + 1 + len ∨ s.wk.cap < s.wk.di + len →
      ∃ t, exec (.litlenExtEnd b) s = .next t ∧ Completed .invalidSourceShortBuffer 0 s t)

/-- R203 and R204 for LITERAL: the byte is stored at `DST[di]` and nowhere else; the run goes on, or ends in the end of the
block (with RESULT = `di`) or in an offset. -/
def Obligations.LiteralStoresOneByte : Prop :=
  ∀ (b : Byte) (s : State),
    ∃ t, exec (.literal b) s = .next t ∧ HostSide s t ∧ SameTables s t ∧
      t.dstByte s.wk.di = b ∧ (∀ a, a ≠ s.wk.di → t.dstByte a = s.dstByte a) ∧
      (1 < s.wk.litLen → t.engine = .busy .literal ∧ SameOutcome s t ∧
        t.wk = { s.wk with si := s.wk.si + 1, di := s.wk.di + 1, litLen := s.wk.litLen - 1 }) ∧
      (s.wk.litLen ≤ 1 → s.wk.si + 1 ≠ s.wk.n → t.engine = .busy .offset ∧ SameOutcome s t ∧
        t.wk = { s.wk with si := s.wk.si + 1, di := s.wk.di + 1, litLen := 0 }) ∧
      (s.wk.litLen ≤ 1 → s.wk.si + 1 = s.wk.n → Completed .ok (s.wk.di + 1) s t)

/-- R205 and R206 for OFFSET16: a nibble of 15 awaits the extension, any other match of `MN + 4` bytes is copied; an offset
of 0 or beyond the output, or a match that does not fit, raises. -/
def Obligations.OffsetOpensTheMatch : Prop :=
  ∀ (off : BitVec 16) (s : State),
    let w := { s.wk with si := s.wk.si + 2, off := off.toNat }
    (off ≠ 0#16 → off.toNat ≤ s.wk.di → s.wk.mn = 15#4 →
      exec (.offset16 off) s = .next { s with wk := { w with matchLen := 15 }, engine := .busy .matchExt }) ∧
    (off ≠ 0#16 → off.toNat ≤ s.wk.di → s.wk.mn ≠ 15#4 → s.wk.di + (s.wk.mn.toNat + 4) ≤ s.wk.cap →
      exec (.offset16 off) s = .next { s with
        wk := { w with matchLen := s.wk.mn.toNat + 4, di := s.wk.di + (s.wk.mn.toNat + 4) }
        dst := copyBytes (s.wk.mn.toNat + 4) off.toNat s.wk.di s.dst
        engine := .busy .token }) ∧
    ((off = 0#16 ∨ s.wk.di < off.toNat ∨ (s.wk.mn ≠ 15#4 ∧ s.wk.cap < s.wk.di + (s.wk.mn.toNat + 4))) →
      ∃ t, exec (.offset16 off) s = .next t ∧ Completed .invalidSourceShortBuffer 0 s t)

/-- R202, R206 and R207 for MATCHLEN_EXT_END: the terminator and MIN_MATCH are added and the match is copied; one that does
not fit raises. For `b` = 0xFF, which is no terminator (R84), the clause is the model's choice, log entry 24. -/
def Obligations.MatchExtensionEnds : Prop :=
  ∀ (b : Byte) (s : State),
    let len := s.wk.matchLen + b.toNat + 4
    (s.wk.di + len ≤ s.wk.cap →
      exec (.matchlenExtEnd b) s = .next { s with
        wk := { s.wk with si := s.wk.si + 1, matchLen := len, di := s.wk.di + len }
        dst := copyBytes len s.wk.off s.wk.di s.dst
        engine := .busy .token }) ∧
    (s.wk.cap < s.wk.di + len →
      ∃ t, exec (.matchlenExtEnd b) s = .next t ∧ Completed .invalidSourceShortBuffer 0 s t)

/-- R207: the copy repeats the last `off` bytes of the output with period `off`, and stores nowhere else. -/
def Obligations.CopyRepeatsThePeriod : Prop :=
  ∀ (s : State) (count off : Nat), 1 ≤ off → off ≤ s.wk.di →
    let after := copyBytes count off s.wk.di s.dst
    (∀ k, k < count → after.read .dst (s.wk.di + k) = s.dstByte (s.wk.di - off + k % off)) ∧
    (∀ a, a < s.wk.di ∨ s.wk.di + count ≤ a → after.read .dst a = s.dstByte a)

/-- The frame of the elements of a block (43_decoder.md R200 to R207; 60_exceptions.md R243): none writes the host's side
or a table; while the command goes on, STATUS, RESULT and the latched operands stay; without an error, a form that stores
nothing leaves DST as it is, LITERAL stores at `DST[di]`, and a match stores at `DST[di..di+M)`, where M is the match
length the form adds up (OFFSET16 with a nibble of 15 stores nothing yet); with one, DST at `cap` and above stays. -/
def Obligations.ElementFrames : Prop :=
  ∀ (i : Instr) (s t : State), i.ctx ≠ .command → exec i s = .next t →
    HostSide s t ∧ SameTables s t ∧
    (t.engine ≠ .idle → SameOutcome s t ∧ t.unseen = s.unseen ∧ t.wk.n = s.wk.n ∧ t.wk.cap = s.wk.cap) ∧
    (t.faultLog = s.faultLog →
      match i with
      | .literal _ => ∀ a, a ≠ s.wk.di → t.dstByte a = s.dstByte a
      | .offset16 _ =>
        ∀ a, a < s.wk.di ∨ s.wk.di + (if s.wk.mn = 15#4 then 0 else s.wk.mn.toNat + 4) ≤ a → t.dstByte a = s.dstByte a
      | .matchlenExtEnd b =>
        ∀ a, a < s.wk.di ∨ s.wk.di + (s.wk.matchLen + b.toNat + 4) ≤ a → t.dstByte a = s.dstByte a
      | _ => SameDst s t) ∧
    (t.faultLog ≠ s.faultLog → SameDstFrom s.wk.cap s t)

/-! ### The engine and the host (10_state.md, 20_memory.md, 60_exceptions.md, 70_reset_and_hazards.md) -/

/-- No instruction changes the parameters, a register the host writes, SRC (R34, 20_memory.md R74), or the host's side of
the bus. -/
def Obligations.InstructionsKeepTheHostSide : Prop :=
  ∀ (i : Instr) (s t : State), exec i s = .next t → HostSide s t

/-- A step runs the decoded instruction: when the engine is busy and the bytes at its fetch point decode to `i`, `i`
is well-formed, and a step in which the engine moves is `exec i`, on the state without the pause that gave it the
move. Model choices, log entries 1 and 2: one step for each instruction, and the inbox. -/
def Obligations.StepRunsTheDecodedInstruction : Prop :=
  ∀ (s : State) (c : Ctx) (i : Instr) (rest : List Byte), s.engine = .busy c →
    decode c (s.fetchBytes c) = .ok i rest →
    i.wf = true ∧ (s.inbox = [] → step s = exec i s) ∧
      ∀ later, s.inbox = .pause :: later → step s = exec i { s with inbox := later }

/-- R88, R201 and R205: bytes that are no element complete the command with InvalidSourceShortBuffer. Model choices, log
entries 1 and 2: one step for each element, and the empty inbox that gives the engine the move. -/
def Obligations.RejectedElementsRaise : Prop :=
  ∀ (s : State) (c : Ctx) (why : Reject), s.engine = .busy c → s.inbox = [] →
    decode c (s.fetchBytes c) = .rejected why →
    ∃ t, step s = .next t ∧ Completed .invalidSourceShortBuffer 0 s t ∧ HostSide s t ∧ SameTables s t ∧
      SameDstFrom s.wk.cap s t

/-- R253: an idle engine does nothing. -/
def Obligations.IdleEngineWaits : Prop :=
  ∀ s : State, s.engine = .idle → s.inbox = [] → step s = .next s

/-- R241, R29 and R31: a host write of `w` to CMD while BUSY = 0 sets BUSY, clears DONE and ERR, latches the operands, sets
both cursors to 0, and has the engine run `w` next; nothing else changes. Model choice, log entry 12: the command runs in
the engine's next step. -/
def Obligations.CommandWriteStartsACommand : Prop :=
  ∀ (s : State) (w : Word) (later : List HostEvent), s.isBusy = false →
    s.inbox = .write s.cfg.baseReg .word w :: later →
    ∃ t, step s = .next t ∧ statusBusy t.status = true ∧ statusDone t.status = false ∧ statusErr t.status = 0 ∧
      t.wk = { s.wk with n := s.srcLen.toNat, cap := s.dstCap.toNat, depth := s.depth.toInt, si := 0, di := 0 } ∧
      t.engine = .busy .command ∧ t.cmd = w ∧ t.inbox = later ∧
      decode .command (t.fetchBytes .command) = .ok (decodeCommand w) [] ∧
      t.cfg = s.cfg ∧ t.srcLen = s.srcLen ∧ t.dstCap = s.dstCap ∧ t.depth = s.depth ∧ t.result = s.result ∧
      t.src = s.src ∧ t.dst = s.dst ∧ SameTables s t ∧ t.readData = s.readData ∧ t.unseen = s.unseen ∧
      t.faultLog = s.faultLog

/-- R281: a host write while BUSY = 1 to any register, to SRC, DST or HTF is refused, CMD included. That an address in no
space is refused too, and does not fault, is the model's choice, log entry 13. -/
def Obligations.BusyWritesAreRefused : Prop :=
  ∀ (s : State) (a : Nat) (w : Width) (data : Word) (later : List HostEvent), s.isBusy = true →
    s.inbox = .write a w data :: later → step s = .refused (.hostWriteWhileBusy a)

/-- R21, R22, R26 to R28, R72 and R281: a 32-bit read of slot `i` returns its register; CMD and the reserved slots read 0;
STATUS may be read while BUSY = 1, and a read that shows DONE = 1 is the host's observation. RESULT is read while BUSY = 0 and
nothing of it is hidden; a read of it while BUSY = 1, or before the observation, answers some value. Model choices: log entry
10 (a busy read of a slot other than RESULT answers its value) and log entry 27 (what an observation promises). -/
def Obligations.RegisterReads : Prop :=
  ∀ (s : State) (i : Nat) (later : List HostEvent), i < 16 → s.inbox = .read (s.cfg.baseReg + 4 * i) .word :: later →
    ((i = 5 → s.isBusy = false ∧ s.unseen.result = false) →
      step s = .next { s with
        inbox := later
        readData := if i = 1 then s.srcLen else if i = 2 then s.dstCap else if i = 3 then s.depth
          else if i = 4 then s.status else if i = 5 then s.result else 0
        unseen := if i = 4 ∧ statusDone s.status = true then .nothing else s.unseen }) ∧
    ((i = 5 ∧ (s.isBusy = true ∨ s.unseen.result = true)) →
      ∃ value : Word, step s = .next { s with inbox := later, readData := value, draws := s.draws + 1 })

/-- R21, R26 to R28: a 32-bit write of slot 1, 2 or 3 while BUSY = 0 writes that register; a write of slots 4 to 15 is
ignored. That SRC_LEN and DST_CAP keep all 32 bits whatever POS_W is, is the model's choice, log entry 14. -/
def Obligations.RegisterWrites : Prop :=
  ∀ (s : State) (i : Nat) (data : Word) (later : List HostEvent), 1 ≤ i → i < 16 → s.isBusy = false →
    s.inbox = .write (s.cfg.baseReg + 4 * i) .word data :: later →
    step s = .next { s with
      inbox := later
      srcLen := if i = 1 then data else s.srcLen
      dstCap := if i = 2 then data else s.dstCap
      depth := if i = 3 then data else s.depth }

/-- R28: a register access that is not 32-bit or not word-aligned is refused. -/
def Obligations.RegisterAccessFormIsRefused : Prop :=
  ∀ (s : State) (off : Nat) (w : Width) (data : Word) (later : List HostEvent), off < 64 →
    (w ≠ .word ∨ off % 4 ≠ 0) →
    (s.inbox = .read (s.cfg.baseReg + off) w :: later → step s = .refused (.registerAccessForm (s.cfg.baseReg + off))) ∧
    (s.inbox = .write (s.cfg.baseReg + off) w data :: later → s.isBusy = false →
      step s = .refused (.registerAccessForm (s.cfg.baseReg + off)))

/-- R34, R35, R63, R68, R72 and R283: a byte the host writes to SRC or DST while the engine is idle is read back, and no other
byte changes. A byte of DST that the engine wrote is answered once the host has observed DONE = 1 (a read of STATUS), as is at
any time a byte that is not hidden; a hidden one answers a free value. Model choice: log entry 27. -/
def Obligations.BufferBytesReadBack : Prop :=
  ∀ (s : State) (off : Nat) (data : Word), s.cfg.valid = true → s.isBusy = false →
    (off < s.cfg.maxSrcLen → ∃ t u, hostTurn (.write (s.cfg.baseSrc + off) .byte data) s = .next t ∧
      hostTurn (.read (s.cfg.baseSrc + off) .byte) t = .next u ∧ u.readData.toNat = data.toNat % 256 ∧
      (∀ a, a ≠ off → t.srcByte a = s.srcByte a) ∧ t.dst = s.dst ∧ SameTables s t) ∧
    (off < s.cfg.maxDstCap → ∃ t u, hostTurn (.write (s.cfg.baseDst + off) .byte data) s = .next t ∧
      hostTurn (.read (s.cfg.baseDst + off) .byte) t = .next u ∧ u.readData.toNat = data.toNat % 256 ∧
      (∀ a, a ≠ off → t.dstByte a = s.dstByte a) ∧ t.src = s.src ∧ SameTables s t) ∧
    (off < s.cfg.maxSrcLen → ∃ u, hostTurn (.read (s.cfg.baseSrc + off) .byte) s = .next u ∧
      u.readData.toNat = (s.srcByte off).toNat) ∧
    (off < s.cfg.maxDstCap → ∃ u, hostTurn (.read (s.cfg.baseDst + off) .byte) s = .next u ∧
      u.readData.toNat = (if s.unseen.hides off then (Config.freeWord s.draws).extractLsb' 0 8 else s.dstByte off).toNat) ∧
    (off < s.cfg.maxDstCap → statusDone s.status = true →
      ∃ t u, hostTurn (.read (s.cfg.baseReg + 16) .word) s = .next t ∧ t.readData = s.status ∧
        hostTurn (.read (s.cfg.baseDst + off) .byte) t = .next u ∧ u.readData.toNat = (s.dstByte off).toNat)

/-- R36, R68 and R72: a cell of HT_F the host writes while the engine is idle is read back truncated to POS_W bits, and no other
cell changes. A cell that COMPRESS_FAST wrote is answered once the host has observed DONE = 1, as is at any time a cell that
is not hidden. Model choice: log entry 27. -/
def Obligations.FastTableCellsReadBack : Prop :=
  ∀ (s : State) (i : Nat) (data : Word), s.cfg.valid = true → s.isBusy = false → i < 65536 →
    (∃ t u, hostTurn (.write (s.cfg.baseHtf + 4 * i) .word data) s = .next t ∧
      hostTurn (.read (s.cfg.baseHtf + 4 * i) .word) t = .next u ∧
      u.readData.toNat = data.toNat % 2 ^ s.cfg.posW ∧
      (∀ j, j ≠ i → t.htfCell j = s.htfCell j) ∧ t.src = s.src ∧ t.dst = s.dst ∧ t.htH = s.htH ∧ t.ct = s.ct) ∧
    (s.htF.wf s.cfg.posW = true → i ∉ s.unseen.htF →
      ∃ u, hostTurn (.read (s.cfg.baseHtf + 4 * i) .word) s = .next u ∧ u.readData.toNat = s.htfCell i) ∧
    (s.htF.wf s.cfg.posW = true → statusDone s.status = true →
      ∃ t u, hostTurn (.read (s.cfg.baseReg + 16) .word) s = .next t ∧
        hostTurn (.read (s.cfg.baseHtf + 4 * i) .word) t = .next u ∧ u.readData.toNat = s.htfCell i)

/-- R68 and R72: a host read has no side effect: it changes no register, buffer, table or engine state. What it leaves of the
model's own record of what the host has not been promised is all of it, or, after a read of STATUS that shows DONE = 1,
nothing (log entry 27). -/
def Obligations.HostReadsHaveNoSideEffects : Prop :=
  ∀ (s t : State) (a : Nat) (w : Width), hostTurn (.read a w) s = .next t →
    t = { s with readData := t.readData, draws := t.draws, unseen := t.unseen } ∧
    (t.unseen = s.unseen ∨
      (t.unseen = .nothing ∧ a = s.cfg.baseReg + 16 ∧ w = .word ∧ statusDone s.status = true ∧ t.readData = s.status))

/-- R39 and R271: after reset, for any parameters, every register is 0, STATUS reads BUSY = 0, DONE = 0, ERR = 0, the
engine is idle, and every byte of SRC and DST and every cell of HT_F is unspecified, a free value. Model choices: the
free values of log entries 4 and 5; the parameters of log entry 3. -/
def Obligations.ResetValues : Prop :=
  ∀ p : Params,
    let s := State.resetFor p
    s.cfg = p ∧ s.srcLen = 0 ∧ s.dstCap = 0 ∧ s.depth = 0 ∧ s.result = 0 ∧
    statusBusy s.status = false ∧ statusDone s.status = false ∧ statusErr s.status = 0 ∧ s.status = 0 ∧
    s.engine = .idle ∧ s.unseen = .nothing ∧ State.reset = State.resetFor Params.standard ∧
    (∀ i, s.srcByte i = Config.freeByte .src 0 i) ∧ (∀ i, s.dstByte i = Config.freeByte .dst 0 i) ∧
    (∀ i, s.htfCell i = Config.freeCell .htF 0 i % 2 ^ p.posW)

/-- R270: a reset may come in any state; the engine becomes idle, the registers take their reset values, and every
byte of SRC and DST and every cell of HT_F becomes a free value. Model choices: the free values of log entries 4 and
5; the fault log survives, log entry 19. -/
def Obligations.PlatformResetAtAnyTime : Prop :=
  ∀ (s : State) (later : List HostEvent), s.inbox = .reset :: later →
    ∃ t, step s = .next t ∧ t.engine = .idle ∧ t.status = 0 ∧ t.srcLen = 0 ∧ t.dstCap = 0 ∧ t.depth = 0 ∧
      t.result = 0 ∧ t.cfg = s.cfg ∧ t.inbox = later ∧ t.faultLog = s.faultLog ∧
      (∀ i, i < s.cfg.maxSrcLen → t.srcByte i = Config.freeByte .src (s.src.drawOf i + 1) i) ∧
      (∀ i, i < s.cfg.maxDstCap → t.dstByte i = Config.freeByte .dst (s.dst.drawOf i + 1) i) ∧
      (∀ i, t.htfCell i = Config.freeCell .htF s.draws i % 2 ^ s.cfg.posW)

/-- R246: the fault log is permanent: a step adds at most one outcome to it and takes none away. Model choice, log
entry 19: the log is a field of the model. -/
def Obligations.FaultLogIsPermanent : Prop :=
  ∀ s t : State, step s = .next t → t.faultLog = s.faultLog ∨ ∃ e, e ≠ Err.ok ∧ t.faultLog = e :: s.faultLog

/-- R66: from a state of the invariant, the engine writes no `DST[i]` with `i >= cap`. -/
def Obligations.NothingIsWrittenAtCap : Prop :=
  ∀ s t : State, Invariant s → engineTurn s = .next t → SameDstFrom s.wk.cap s t

/-- R26: in a state of the invariant BUSY and DONE never hold together, ERR is 0, 1 or 2, the reserved bits read 0, and
BUSY is 1 exactly while the engine is busy. -/
def Obligations.StatusIsLegal : Prop :=
  ∀ s : State, Invariant s →
    ¬ (statusBusy s.status = true ∧ statusDone s.status = true) ∧
    (statusErr s.status).toNat ≤ 2 ∧ s.status.extractLsb' 2 2 = 0 ∧ s.status.extractLsb' 8 24 = 0 ∧
    (statusBusy s.status = true ↔ s.engine ≠ .idle)

/-- The state after reset meets the invariant, for every parameters that meet R7's constraints and give the four spaces of R69
no address in common (R70), which is the model's choice, log entry 3. -/
def Obligations.ResetMeetsTheInvariant : Prop := ∀ p : Params, p.valid = true → Invariant (State.resetFor p)

/-- Every step keeps the invariant: a legal STATUS, canonical buffers and tables inside their spaces, the cursors of R31. -/
def Obligations.StepKeepsTheInvariant : Prop := ∀ s t : State, Invariant s → step s = .next t → Invariant t

/-- R242: every command reaches completion. From a state of the invariant with the engine busy and no action from
outside pending, at most `n + 2` steps leave the engine idle with DONE = 1. Model choice, log entry 1: steps count
elements. -/
def Obligations.EveryCommandCompletes : Prop :=
  ∀ s : State, Invariant s → s.engine ≠ .idle → s.inbox = [] →
    ∃ k t, k ≤ s.wk.n + 2 ∧ core.run k s = .next t ∧ t.engine = .idle ∧ statusBusy t.status = false ∧
      statusDone t.status = true
end

