-- ==== Sys2Proof/Laws/Codec.lean ====
section
/-! SUPPORT. The bytes of words, offsets, length extensions and sequences, and what the decoder reads from them. -/

namespace Sys2Proof

/-- The four bytes of a word give the word back (20_memory.md R60). -/
theorem wordOfBytes_bytesOfWord (w : Word) :
    wordOfBytes (w.extractLsb' 0 8) (w.extractLsb' 8 8) (w.extractLsb' 16 8) (w.extractLsb' 24 8) = w := by
  apply BitVec.eq_of_toNat_eq
  have := w.isLt
  simp only [wordOfBytes, BitVec.toNat_append, BitVec.extractLsb'_toNat, Nat.shiftRight_eq_div_pow]
  rw [← Nat.shiftLeft_add_eq_or_of_lt (Nat.mod_lt _ (by norm_num)),
    ← Nat.shiftLeft_add_eq_or_of_lt (Nat.mod_lt _ (by norm_num)),
    ← Nat.shiftLeft_add_eq_or_of_lt (Nat.mod_lt _ (by norm_num))]
  simp only [Nat.shiftLeft_eq]
  omega

/-- The bits of an append, read back. -/
theorem extract_low {m n : Nat} (x : BitVec m) (y : BitVec n) : (x ++ y).extractLsb' 0 n = y := by
  apply BitVec.eq_of_getLsbD_eq
  intro i hi
  rw [BitVec.getLsbD_extractLsb', Nat.zero_add, BitVec.getLsbD_append]
  simp [hi]

theorem extract_high {m n : Nat} (x : BitVec m) (y : BitVec n) : (x ++ y).extractLsb' n m = x := by
  apply BitVec.eq_of_getLsbD_eq
  intro i hi
  rw [BitVec.getLsbD_extractLsb', BitVec.getLsbD_append]
  simp [hi]

/-- A vector is its low and its high part. -/
theorem append_extract {m n : Nat} (w : BitVec (m + n)) : w.extractLsb' n m ++ w.extractLsb' 0 n = w := by
  apply BitVec.eq_of_getLsbD_eq
  intro i hi
  rw [BitVec.getLsbD_append, BitVec.getLsbD_extractLsb', BitVec.getLsbD_extractLsb']
  split
  · simp [*]
  · rw [show n + (i - n) = i by omega]
    simp
    omega

theorem commandWord_op (op : BitVec 4) (r : BitVec 28) : (commandWord op r).extractLsb' 0 4 = op := extract_low r op

theorem commandWord_reserved (op : BitVec 4) (r : BitVec 28) : (commandWord op r).extractLsb' 4 28 = r :=
  extract_high r op

/-- A command word is its two fields (30_encoding.md R80). -/
theorem commandWord_fields (w : Word) : commandWord (w.extractLsb' 0 4) (w.extractLsb' 4 28) = w :=
  append_extract (m := 28) (n := 4) w

/-- Decoding a command word made of two fields. -/
theorem decodeCommand_commandWord (op : BitVec 4) (r : BitVec 28) :
    decodeCommand (commandWord op r) =
      if r ≠ 0#28 then .illegalCommand op r
      else if op = 1#4 then .compressFast
      else if op = 2#4 then .compressHc
      else if op = 3#4 then .decompress
      else if op = 4#4 then .bound
      else .illegalCommand op r := by
  simp only [decodeCommand, commandWord_op, commandWord_reserved]

theorem decode_command (w : Word) (rest : List Byte) :
    decode .command (bytesOfWord w ++ rest) = .ok (decodeCommand w) rest := by
  simp only [bytesOfWord, List.cons_append, List.nil_append, decode, decodeCommandBytes, wordOfBytes_bytesOfWord]

theorem token_hi (ln mn : BitVec 4) : (ln ++ mn : BitVec 8).extractLsb' 4 4 = ln := extract_high ln mn

theorem token_lo (ln mn : BitVec 4) : (ln ++ mn : BitVec 8).extractLsb' 0 4 = mn := extract_low ln mn

theorem offset_bytes (off : BitVec 16) : (off.extractLsb' 8 8 ++ off.extractLsb' 0 8 : BitVec 16) = off :=
  append_extract (m := 8) (n := 8) off

/-- Every command word decodes to a well-formed instruction of the command context (30_encoding.md R80, R81). -/
theorem decodeCommand_sound (w : Word) : (decodeCommand w).wf = true ∧ (decodeCommand w).ctx = .command := by
  simp only [decodeCommand]
  repeat' split
  all_goals simp_all [Instr.wf, Instr.ctx, legalCommand]

/-- What the decoder answers is well-formed and stands in the context asked for. -/
theorem decode_sound {c : Ctx} {bs rest : List Byte} {i : Instr} (h : decode c bs = .ok i rest) :
    i.wf = true ∧ i.ctx = c := by
  cases c <;> simp only [decode] at h
  · unfold decodeCommandBytes at h
    split at h <;> cases h
    exact decodeCommand_sound _
  · unfold decodeToken at h
    split at h <;> cases h
    exact ⟨rfl, rfl⟩
  · unfold decodeLitExt at h
    split at h <;> cases h
    split <;> simp_all [Instr.wf, Instr.ctx]
  · unfold decodeLiteral at h
    split at h <;> cases h
    exact ⟨rfl, rfl⟩
  · unfold decodeOffset at h
    split at h
    · split at h <;> cases h
      simp_all [Instr.wf, Instr.ctx]
    · cases h
  · unfold decodeMatchExt at h
    split at h <;> cases h
    split <;> simp_all [Instr.wf, Instr.ctx]

/-- The token byte's two nibbles (40_token_codec.md R111). -/
theorem tokenByte_toNat (L X : Nat) : (tokenByte L X).toNat = min L 15 * 16 + min X 15 := by
  have h2 : min X 15 < 2 ^ 4 := by omega
  simp only [tokenByte, BitVec.toNat_append, BitVec.toNat_ofNat]
  rw [Nat.mod_eq_of_lt (show min L 15 < 2 ^ 4 by omega), Nat.mod_eq_of_lt h2, ← Nat.shiftLeft_add_eq_or_of_lt h2,
    Nat.shiftLeft_eq]

@[simp] theorem extBytes_length (v : Nat) : (extBytes v).length = v / 255 + 1 := by simp [extBytes]

/-- The number of extension bytes of R87. -/
theorem lenExt_length (v : Nat) : (lenExt v).length = if 15 ≤ v then (v - 15) / 255 + 1 else 0 := by
  simp only [lenExt]
  split <;> simp

@[simp] theorem offsetBytes_length (off : Nat) : (offsetBytes off).length = 2 := rfl

/-- The extension bytes step by step: 255 off the value for each continuation byte (40_token_codec.md R112). -/
theorem extBytes_step {v : Nat} (h : 255 ≤ v) : extBytes v = Config.extCont :: extBytes (v - 255) := by
  have h1 : v / 255 = (v - 255) / 255 + 1 := by omega
  have h2 : v % 255 = (v - 255) % 255 := by omega
  simp [extBytes, h1, h2, List.replicate_succ]

theorem extBytes_small {v : Nat} (h : v < 255) : extBytes v = [BitVec.ofNat 8 v] := by
  simp [extBytes, Nat.div_eq_of_lt h, Nat.mod_eq_of_lt h]

end Sys2Proof
end

