-- ==== Sys2Proof/Laws/Memory.lean ====
section
/-! SUPPORT. What the operations over keyed data, buffers and tables do: a read after a write, and that each operation
keeps the canonical form. -/

namespace Sys2Proof.Machine

section Cells
variable {β : Type}

@[simp] theorem Cells.read_nil (a : Nat) : Cells.read ([] : Cells β) a = none := rfl

theorem Cells.read_cons (k : Nat) (v : β) (r : Cells β) (a : Nat) :
    Cells.read ((k, v) :: r) a = if k = a then some v else Cells.read r a := rfl

@[simp] theorem Cells.read_write_same (m : Cells β) (a : Nat) (b : β) :
    Cells.read (Cells.write m a b) a = some b := by
  induction m with
  | nil => simp [Cells.write, Cells.read]
  | cons c r ih =>
    obtain ⟨k, v⟩ := c
    unfold Cells.write
    split
    · simp [Cells.read]
    · split
      · simp [Cells.read]
      · have : k ≠ a := by omega
        simp [Cells.read, this, ih]

theorem Cells.read_write_other (m : Cells β) {a a' : Nat} (b : β) (h : a' ≠ a) :
    Cells.read (Cells.write m a b) a' = Cells.read m a' := by
  induction m with
  | nil => simp [Cells.write, Cells.read, Ne.symm h]
  | cons c r ih =>
    obtain ⟨k, v⟩ := c
    unfold Cells.write
    split
    · simp [Cells.read, Ne.symm h]
    · split
      · subst a; simp [Cells.read, Ne.symm h]
      · simp [Cells.read, ih]

/-- A read after a write. -/
theorem Cells.read_write (m : Cells β) (a a' : Nat) (b : β) :
    Cells.read (Cells.write m a b) a' = if a' = a then some b else Cells.read m a' := by
  split
  · subst a'; simp
  · exact Cells.read_write_other m b ‹_›

theorem Cells.read_erase (m : Cells β) (a a' : Nat) :
    Cells.read (Cells.erase m a) a' = if a' = a then none else Cells.read m a' := by
  induction m with
  | nil => simp [Cells.erase]
  | cons c r ih =>
    obtain ⟨k, v⟩ := c
    by_cases hk : k = a
    · subst k
      have : Cells.erase ((a, v) :: r) a = Cells.erase r a := by simp [Cells.erase]
      rw [this, ih, Cells.read_cons]
      by_cases h : a' = a
      · simp [h]
      · simp [h, Ne.symm h]
    · have : Cells.erase ((k, v) :: r) a = (k, v) :: Cells.erase r a := by simp [Cells.erase, hk]
      rw [this, Cells.read_cons, ih, Cells.read_cons]
      by_cases h : a' = a
      · subst a'; simp [hk]
      · simp [h]

theorem Cells.read_dropBelow (m : Cells β) (lim a : Nat) :
    Cells.read (Cells.dropBelow m lim) a = if a < lim then none else Cells.read m a := by
  induction m with
  | nil => simp [Cells.dropBelow]
  | cons c r ih =>
    obtain ⟨k, v⟩ := c
    by_cases hk : lim ≤ k
    · have : Cells.dropBelow ((k, v) :: r) lim = (k, v) :: Cells.dropBelow r lim := by simp [Cells.dropBelow, hk]
      rw [this, Cells.read_cons, ih, Cells.read_cons]
      by_cases h : a < lim
      · have : k ≠ a := by omega
        simp [h, this]
      · simp [h]
    · have : Cells.dropBelow ((k, v) :: r) lim = Cells.dropBelow r lim := by simp [Cells.dropBelow, hk]
      rw [this, ih, Cells.read_cons]
      by_cases h : a < lim
      · simp [h]
      · have : k ≠ a := by omega
        simp [h, this]

@[simp] theorem Cells.wf_nil : Cells.wf ([] : Cells β) = true := rfl

theorem Cells.wf_cons (k : Nat) (v : β) (r : Cells β) :
    Cells.wf ((k, v) :: r) = true ↔ (∀ c ∈ r, k < c.1) ∧ Cells.wf r = true := by
  simp [Cells.wf]

/-- Every entry after a write is the one written or an old one. -/
theorem Cells.mem_write (m : Cells β) (a : Nat) (b : β) {c : Nat × β} (h : c ∈ Cells.write m a b) :
    c = (a, b) ∨ c ∈ m := by
  induction m with
  | nil => simpa [Cells.write] using h
  | cons d r ih =>
    obtain ⟨k, v⟩ := d
    unfold Cells.write at h
    split at h
    · simpa using h
    · split at h
      · rcases List.mem_cons.mp h with h | h
        · exact .inl h
        · exact .inr (List.mem_cons_of_mem _ h)
      · rcases List.mem_cons.mp h with h | h
        · exact .inr (by simp [h])
        · exact (ih h).imp_right (List.mem_cons_of_mem _)

/-- A write keeps the canonical form. -/
theorem Cells.wf_write (m : Cells β) (a : Nat) (b : β) (h : Cells.wf m = true) :
    Cells.wf (Cells.write m a b) = true := by
  induction m with
  | nil => simp [Cells.write, Cells.wf]
  | cons d r ih =>
    obtain ⟨k, v⟩ := d
    obtain ⟨h1, h2⟩ := (Cells.wf_cons k v r).mp h
    unfold Cells.write
    split
    · rename_i hlt
      refine (Cells.wf_cons _ _ _).mpr ⟨?_, h⟩
      intro c hc
      rcases List.mem_cons.mp hc with hc | hc
      · simpa [hc] using hlt
      · have := h1 c hc; omega
    · split
      · subst a
        exact (Cells.wf_cons _ _ _).mpr ⟨h1, h2⟩
      · refine (Cells.wf_cons _ _ _).mpr ⟨?_, ih h2⟩
        intro c hc
        rcases Cells.mem_write r a b hc with hc | hc
        · subst hc; simp only; omega
        · exact h1 c hc

/-- Leaving entries out keeps the canonical form. -/
theorem Cells.wf_filter (m : Cells β) (p : Nat × β → Bool) (h : Cells.wf m = true) :
    Cells.wf (List.filter p m : Cells β) = true := by
  induction m with
  | nil => simp
  | cons d r ih =>
    obtain ⟨k, v⟩ := d
    obtain ⟨h1, h2⟩ := (Cells.wf_cons k v r).mp h
    by_cases hp : p (k, v) = true
    · rw [List.filter_cons_of_pos hp]
      exact (Cells.wf_cons _ _ _).mpr ⟨fun c hc => h1 c (List.mem_of_mem_filter hc), ih h2⟩
    · rw [List.filter_cons_of_neg (by simpa using hp)]
      exact ih h2

theorem Cells.wf_erase (m : Cells β) (a : Nat) (h : Cells.wf m = true) : Cells.wf (Cells.erase m a) = true :=
  Cells.wf_filter m _ h

theorem Cells.wf_dropBelow (m : Cells β) (lim : Nat) (h : Cells.wf m = true) :
    Cells.wf (Cells.dropBelow m lim) = true :=
  Cells.wf_filter m _ h

end Cells

section Buf

@[simp] theorem Buf.write_draws (b : Buf) (a : Nat) (v : Byte) : (b.write a v).draws = b.draws := rfl

@[simp] theorem Buf.drawOf_write (b : Buf) (a : Nat) (v : Byte) (a' : Nat) :
    (b.write a v).drawOf a' = b.drawOf a' := rfl

@[simp] theorem Buf.read_write_same (id : BufferId) (b : Buf) (a : Nat) (v : Byte) :
    (b.write a v).read id a = v := by
  simp [Buf.read, Buf.write]

theorem Buf.read_write_other (id : BufferId) (b : Buf) {a a' : Nat} (v : Byte) (h : a' ≠ a) :
    (b.write a v).read id a' = b.read id a' := by
  unfold Buf.read
  rw [show (b.write a v).cells = Cells.write b.cells a v from rfl, Cells.read_write_other b.cells v h,
    Buf.drawOf_write]

theorem Buf.read_write (id : BufferId) (b : Buf) (a a' : Nat) (v : Byte) :
    (b.write a v).read id a' = if a' = a then v else b.read id a' := by
  split
  · subst a'; simp
  · exact Buf.read_write_other id b v ‹_›

/-- At and above the limit, `forget` changes nothing. -/
theorem Buf.read_forget_above (id : BufferId) (b : Buf) {lim a : Nat} (h : lim ≤ a) :
    (b.forget lim).read id a = b.read id a := by
  have h' : ¬ a < lim := by omega
  unfold Buf.read
  rw [show (b.forget lim).cells = Cells.dropBelow b.cells lim from rfl, Cells.read_dropBelow, if_neg h']
  have : (b.forget lim).drawOf a = b.drawOf a := by simp [Buf.drawOf, Buf.forget, h']
  rw [this]

/-- Below the limit, a byte after `forget` is a free value that no earlier event drew. -/
theorem Buf.read_forget_below (id : BufferId) (b : Buf) {lim a : Nat} (h : a < lim) :
    (b.forget lim).read id a = Config.freeByte id (b.drawOf a + 1) a := by
  unfold Buf.read
  rw [show (b.forget lim).cells = Cells.dropBelow b.cells lim from rfl, Cells.read_dropBelow, if_pos h]
  simp [Buf.drawOf, Buf.forget, h]

theorem Buf.wf_iff (b : Buf) (size : Nat) :
    b.wf size = true ↔ Cells.wf b.cells = true ∧ ∀ c ∈ b.cells, c.1 < size := by
  simp [Buf.wf, Memory.wf]

theorem Buf.wf_write (b : Buf) {size a : Nat} (v : Byte) (h : b.wf size = true) (ha : a < size) :
    (b.write a v).wf size = true := by
  obtain ⟨h1, h2⟩ := (Buf.wf_iff b size).mp h
  refine (Buf.wf_iff _ _).mpr ⟨Cells.wf_write _ _ _ h1, fun c hc => ?_⟩
  rcases Cells.mem_write b.cells a v hc with hc | hc
  · simpa [hc] using ha
  · exact h2 c hc

theorem Buf.wf_forget (b : Buf) {size : Nat} (lim : Nat) (h : b.wf size = true) : (b.forget lim).wf size = true := by
  obtain ⟨h1, h2⟩ := (Buf.wf_iff b size).mp h
  exact (Buf.wf_iff _ _).mpr ⟨Cells.wf_dropBelow _ _ h1, fun c hc => h2 c (List.mem_of_mem_filter hc)⟩

end Buf

section Table

@[simp] theorem Table.write_fill (posW : Nat) (t : Table) (i v : Nat) : (t.write posW i v).fill = t.fill := by
  unfold Table.write
  split
  · split <;> rfl
  · rfl

/-- A read after a write: the entry holds the value truncated to POS_W bits (10_state.md R36). -/
theorem Table.read_write (id : TableId) (posW : Nat) (t : Table) (i j v : Nat) :
    (t.write posW i v).read id posW j = if j = i then v % 2 ^ posW else t.read id posW j := by
  obtain ⟨m, f⟩ := t
  cases f with
  | zero =>
    by_cases hv : v % 2 ^ posW = 0
    · by_cases h : j = i <;> simp [Table.write, Table.read, Fill.value, Cells.read_erase, hv, h]
    · by_cases h : j = i <;> simp [Table.write, Table.read, Fill.value, Cells.read_write, hv, h]
  | drawn k => by_cases h : j = i <;> simp [Table.write, Table.read, Fill.value, Cells.read_write, h]

@[simp] theorem Table.read_zeroed (id : TableId) (posW i : Nat) : Table.zeroed.read id posW i = 0 := rfl

theorem Table.wf_iff (posW : Nat) (t : Table) :
    t.wf posW = true ↔ Cells.wf t.cells = true ∧ ∀ c ∈ t.cells, c.1 < Config.winSize ∧ c.2 < 2 ^ posW ∧
      (t.fill = .zero → c.2 ≠ 0) := by
  simp only [Table.wf, Bool.and_eq_true, List.all_eq_true, decide_eq_true_eq, Bool.or_eq_true, and_assoc, ne_eq,
    ← imp_iff_not_or]

/-- A write inside the table keeps the canonical form. -/
theorem Table.wf_write {posW : Nat} (t : Table) {i : Nat} (v : Nat) (h : t.wf posW = true) (hi : i < Config.winSize) :
    (t.write posW i v).wf posW = true := by
  obtain ⟨h1, h2⟩ := (Table.wf_iff _ _).mp h
  have hlt : v % 2 ^ posW < 2 ^ posW := Nat.mod_lt _ (Nat.two_pow_pos posW)
  obtain ⟨m, f⟩ := t
  have hw (hz : f = .zero → v % 2 ^ posW ≠ 0) :
      Table.wf posW ⟨Cells.write m i (v % 2 ^ posW), f⟩ = true := by
    refine (Table.wf_iff _ _).mpr ⟨Cells.wf_write _ _ _ h1, fun c hc => ?_⟩
    rcases Cells.mem_write m i _ hc with hc | hc
    · subst hc; exact ⟨hi, hlt, hz⟩
    · exact h2 c hc
  cases f with
  | zero =>
    by_cases hv : v % 2 ^ posW = 0
    · simp only [Table.write, hv, if_true]
      exact (Table.wf_iff _ _).mpr ⟨Cells.wf_erase _ _ h1, fun c hc => h2 c (List.mem_of_mem_filter hc)⟩
    · simpa only [Table.write, hv, if_false] using hw fun _ => hv
  | drawn k => simpa only [Table.write] using hw (by simp)

@[simp] theorem Table.wf_zeroed (posW : Nat) : Table.zeroed.wf posW = true := rfl

@[simp] theorem Table.wf_unspecified (posW k : Nat) : (Table.unspecified k).wf posW = true := rfl

/-- An entry is a POS_W-bit value in a canonical table. -/
theorem Table.read_lt (id : TableId) {posW : Nat} (t : Table) (i : Nat) (h : t.wf posW = true) :
    t.read id posW i < 2 ^ posW := by
  obtain ⟨h1, h2⟩ := (Table.wf_iff _ _).mp h
  have hmem : ∀ (m : Cells Nat) v, Cells.read m i = some v → ∃ c ∈ m, c.2 = v := by
    intro m v
    induction m with
    | nil => simp
    | cons d r ih =>
      obtain ⟨k, w⟩ := d
      rw [Cells.read_cons]
      split
      · intro h; exact ⟨(k, w), by simp, by simpa using h⟩
      · intro h; obtain ⟨c, hc, e⟩ := ih h; exact ⟨c, List.mem_cons_of_mem _ hc, e⟩
  unfold Table.read
  cases hr : Cells.read t.cells i with
  | some v =>
    obtain ⟨c, hc, e⟩ := hmem _ _ hr
    simpa [e] using (h2 c hc).2.1
  | none =>
    cases hf : t.fill with
    | zero => exact Nat.two_pow_pos posW
    | drawn k => exact Nat.mod_lt _ (Nat.two_pow_pos posW)

end Table

/-! ### The state after reset -/

@[simp] theorem resetFor_src_wf (p : Params) (size : Nat) : (State.resetFor p).src.wf size = true := rfl

@[simp] theorem resetFor_dst_wf (p : Params) (size : Nat) : (State.resetFor p).dst.wf size = true := rfl

@[simp] theorem resetFor_htF_wf (p : Params) (posW : Nat) : (State.resetFor p).htF.wf posW = true := rfl

@[simp] theorem resetFor_htH_wf (p : Params) (posW : Nat) : (State.resetFor p).htH.wf posW = true := rfl

@[simp] theorem resetFor_ct_wf (p : Params) (posW : Nat) : (State.resetFor p).ct.wf posW = true := rfl

end Sys2Proof.Machine
end

