-- ==== Sys2Proof/Laws/State.lean ====
section
/-! SUPPORT. What each named update of the state does to each field: all true by definition. -/

namespace Sys2Proof.Machine

@[simp] theorem complete_cfg (e : Err) (r lim : Nat) (s : State) : (State.complete e r lim s).cfg = s.cfg := rfl
@[simp] theorem complete_cmd (e : Err) (r lim : Nat) (s : State) : (State.complete e r lim s).cmd = s.cmd := rfl
@[simp] theorem complete_srcLen (e : Err) (r lim : Nat) (s : State) : (State.complete e r lim s).srcLen = s.srcLen := rfl
@[simp] theorem complete_dstCap (e : Err) (r lim : Nat) (s : State) : (State.complete e r lim s).dstCap = s.dstCap := rfl
@[simp] theorem complete_depth (e : Err) (r lim : Nat) (s : State) : (State.complete e r lim s).depth = s.depth := rfl
@[simp] theorem complete_status (e : Err) (r lim : Nat) (s : State) : (State.complete e r lim s).status = statusWord false true e.code := rfl
@[simp] theorem complete_result (e : Err) (r lim : Nat) (s : State) : (State.complete e r lim s).result = BitVec.ofNat 32 r := rfl
@[simp] theorem complete_src (e : Err) (r lim : Nat) (s : State) : (State.complete e r lim s).src = s.src := rfl
@[simp] theorem complete_dst (e : Err) (r lim : Nat) (s : State) : (State.complete e r lim s).dst = s.dst := rfl
@[simp] theorem complete_htF (e : Err) (r lim : Nat) (s : State) : (State.complete e r lim s).htF = s.htF := rfl
@[simp] theorem complete_htH (e : Err) (r lim : Nat) (s : State) : (State.complete e r lim s).htH = s.htH := rfl
@[simp] theorem complete_ct (e : Err) (r lim : Nat) (s : State) : (State.complete e r lim s).ct = s.ct := rfl
@[simp] theorem complete_engine (e : Err) (r lim : Nat) (s : State) : (State.complete e r lim s).engine = .idle := rfl
@[simp] theorem complete_wk (e : Err) (r lim : Nat) (s : State) : (State.complete e r lim s).wk = Config.freeWorking s.draws := rfl
@[simp] theorem complete_inbox (e : Err) (r lim : Nat) (s : State) : (State.complete e r lim s).inbox = s.inbox := rfl
@[simp] theorem complete_readData (e : Err) (r lim : Nat) (s : State) : (State.complete e r lim s).readData = s.readData := rfl
@[simp] theorem complete_unseen (e : Err) (r lim : Nat) (s : State) : (State.complete e r lim s).unseen = s.unseen.ended lim := rfl
@[simp] theorem complete_faultLog (e : Err) (r lim : Nat) (s : State) : (State.complete e r lim s).faultLog = logErr s.faultLog e := rfl
@[simp] theorem complete_draws (e : Err) (r lim : Nat) (s : State) : (State.complete e r lim s).draws = s.draws + 1 := rfl

@[simp] theorem startCommand_cfg (w : Word) (s : State) : (State.startCommand w s).cfg = s.cfg := rfl
@[simp] theorem startCommand_cmd (w : Word) (s : State) : (State.startCommand w s).cmd = w := rfl
@[simp] theorem startCommand_srcLen (w : Word) (s : State) : (State.startCommand w s).srcLen = s.srcLen := rfl
@[simp] theorem startCommand_dstCap (w : Word) (s : State) : (State.startCommand w s).dstCap = s.dstCap := rfl
@[simp] theorem startCommand_depth (w : Word) (s : State) : (State.startCommand w s).depth = s.depth := rfl
@[simp] theorem startCommand_status (w : Word) (s : State) : (State.startCommand w s).status = statusWord true false 0 := rfl
@[simp] theorem startCommand_result (w : Word) (s : State) : (State.startCommand w s).result = s.result := rfl
@[simp] theorem startCommand_src (w : Word) (s : State) : (State.startCommand w s).src = s.src := rfl
@[simp] theorem startCommand_dst (w : Word) (s : State) : (State.startCommand w s).dst = s.dst := rfl
@[simp] theorem startCommand_htF (w : Word) (s : State) : (State.startCommand w s).htF = s.htF := rfl
@[simp] theorem startCommand_htH (w : Word) (s : State) : (State.startCommand w s).htH = s.htH := rfl
@[simp] theorem startCommand_ct (w : Word) (s : State) : (State.startCommand w s).ct = s.ct := rfl
@[simp] theorem startCommand_engine (w : Word) (s : State) : (State.startCommand w s).engine = .busy .command := rfl
@[simp] theorem startCommand_wk (w : Word) (s : State) : (State.startCommand w s).wk = { s.wk with n := s.srcLen.toNat, cap := s.dstCap.toNat, depth := depthValue s.depth, si := 0, di := 0 } := rfl
@[simp] theorem startCommand_inbox (w : Word) (s : State) : (State.startCommand w s).inbox = s.inbox := rfl
@[simp] theorem startCommand_readData (w : Word) (s : State) : (State.startCommand w s).readData = s.readData := rfl
@[simp] theorem startCommand_unseen (w : Word) (s : State) : (State.startCommand w s).unseen = s.unseen := rfl
@[simp] theorem startCommand_faultLog (w : Word) (s : State) : (State.startCommand w s).faultLog = s.faultLog := rfl
@[simp] theorem startCommand_draws (w : Word) (s : State) : (State.startCommand w s).draws = s.draws := rfl

@[simp] theorem forgetDst_cfg (s : State) : (State.forgetDst s).cfg = s.cfg := rfl
@[simp] theorem forgetDst_cmd (s : State) : (State.forgetDst s).cmd = s.cmd := rfl
@[simp] theorem forgetDst_srcLen (s : State) : (State.forgetDst s).srcLen = s.srcLen := rfl
@[simp] theorem forgetDst_dstCap (s : State) : (State.forgetDst s).dstCap = s.dstCap := rfl
@[simp] theorem forgetDst_depth (s : State) : (State.forgetDst s).depth = s.depth := rfl
@[simp] theorem forgetDst_status (s : State) : (State.forgetDst s).status = s.status := rfl
@[simp] theorem forgetDst_result (s : State) : (State.forgetDst s).result = s.result := rfl
@[simp] theorem forgetDst_src (s : State) : (State.forgetDst s).src = s.src := rfl
@[simp] theorem forgetDst_dst (s : State) : (State.forgetDst s).dst = s.dst.forget s.wk.cap := rfl
@[simp] theorem forgetDst_htF (s : State) : (State.forgetDst s).htF = s.htF := rfl
@[simp] theorem forgetDst_htH (s : State) : (State.forgetDst s).htH = s.htH := rfl
@[simp] theorem forgetDst_ct (s : State) : (State.forgetDst s).ct = s.ct := rfl
@[simp] theorem forgetDst_engine (s : State) : (State.forgetDst s).engine = s.engine := rfl
@[simp] theorem forgetDst_wk (s : State) : (State.forgetDst s).wk = s.wk := rfl
@[simp] theorem forgetDst_inbox (s : State) : (State.forgetDst s).inbox = s.inbox := rfl
@[simp] theorem forgetDst_readData (s : State) : (State.forgetDst s).readData = s.readData := rfl
@[simp] theorem forgetDst_unseen (s : State) : (State.forgetDst s).unseen = s.unseen := rfl
@[simp] theorem forgetDst_faultLog (s : State) : (State.forgetDst s).faultLog = s.faultLog := rfl
@[simp] theorem forgetDst_draws (s : State) : (State.forgetDst s).draws = s.draws := rfl

@[simp] theorem platformReset_cfg (s : State) : (State.platformReset s).cfg = s.cfg := rfl
@[simp] theorem platformReset_cmd (s : State) : (State.platformReset s).cmd = 0 := rfl
@[simp] theorem platformReset_srcLen (s : State) : (State.platformReset s).srcLen = 0 := rfl
@[simp] theorem platformReset_dstCap (s : State) : (State.platformReset s).dstCap = 0 := rfl
@[simp] theorem platformReset_depth (s : State) : (State.platformReset s).depth = 0 := rfl
@[simp] theorem platformReset_status (s : State) : (State.platformReset s).status = 0 := rfl
@[simp] theorem platformReset_result (s : State) : (State.platformReset s).result = 0 := rfl
@[simp] theorem platformReset_src (s : State) : (State.platformReset s).src = s.src.forget s.cfg.maxSrcLen := rfl
@[simp] theorem platformReset_dst (s : State) : (State.platformReset s).dst = s.dst.forget s.cfg.maxDstCap := rfl
@[simp] theorem platformReset_htF (s : State) : (State.platformReset s).htF = .unspecified s.draws := rfl
@[simp] theorem platformReset_htH (s : State) : (State.platformReset s).htH = .unspecified s.draws := rfl
@[simp] theorem platformReset_ct (s : State) : (State.platformReset s).ct = .unspecified s.draws := rfl
@[simp] theorem platformReset_engine (s : State) : (State.platformReset s).engine = .idle := rfl
@[simp] theorem platformReset_wk (s : State) : (State.platformReset s).wk = Config.freeWorking s.draws := rfl
@[simp] theorem platformReset_inbox (s : State) : (State.platformReset s).inbox = s.inbox := rfl
@[simp] theorem platformReset_readData (s : State) : (State.platformReset s).readData = s.readData := rfl
@[simp] theorem platformReset_unseen (s : State) : (State.platformReset s).unseen = .nothing := rfl
@[simp] theorem platformReset_faultLog (s : State) : (State.platformReset s).faultLog = s.faultLog := rfl
@[simp] theorem platformReset_draws (s : State) : (State.platformReset s).draws = s.draws + 1 := rfl

@[simp] theorem await_cfg (c : Ctx) (s : State) : (State.await c s).cfg = s.cfg := rfl
@[simp] theorem await_cmd (c : Ctx) (s : State) : (State.await c s).cmd = s.cmd := rfl
@[simp] theorem await_srcLen (c : Ctx) (s : State) : (State.await c s).srcLen = s.srcLen := rfl
@[simp] theorem await_dstCap (c : Ctx) (s : State) : (State.await c s).dstCap = s.dstCap := rfl
@[simp] theorem await_depth (c : Ctx) (s : State) : (State.await c s).depth = s.depth := rfl
@[simp] theorem await_status (c : Ctx) (s : State) : (State.await c s).status = s.status := rfl
@[simp] theorem await_result (c : Ctx) (s : State) : (State.await c s).result = s.result := rfl
@[simp] theorem await_src (c : Ctx) (s : State) : (State.await c s).src = s.src := rfl
@[simp] theorem await_dst (c : Ctx) (s : State) : (State.await c s).dst = s.dst := rfl
@[simp] theorem await_htF (c : Ctx) (s : State) : (State.await c s).htF = s.htF := rfl
@[simp] theorem await_htH (c : Ctx) (s : State) : (State.await c s).htH = s.htH := rfl
@[simp] theorem await_ct (c : Ctx) (s : State) : (State.await c s).ct = s.ct := rfl
@[simp] theorem await_engine (c : Ctx) (s : State) : (State.await c s).engine = .busy c := rfl
@[simp] theorem await_wk (c : Ctx) (s : State) : (State.await c s).wk = s.wk := rfl
@[simp] theorem await_inbox (c : Ctx) (s : State) : (State.await c s).inbox = s.inbox := rfl
@[simp] theorem await_readData (c : Ctx) (s : State) : (State.await c s).readData = s.readData := rfl
@[simp] theorem await_unseen (c : Ctx) (s : State) : (State.await c s).unseen = s.unseen := rfl
@[simp] theorem await_faultLog (c : Ctx) (s : State) : (State.await c s).faultLog = s.faultLog := rfl
@[simp] theorem await_draws (c : Ctx) (s : State) : (State.await c s).draws = s.draws := rfl

@[simp] theorem consume_cfg (k : Nat) (s : State) : (State.consume k s).cfg = s.cfg := rfl
@[simp] theorem consume_cmd (k : Nat) (s : State) : (State.consume k s).cmd = s.cmd := rfl
@[simp] theorem consume_srcLen (k : Nat) (s : State) : (State.consume k s).srcLen = s.srcLen := rfl
@[simp] theorem consume_dstCap (k : Nat) (s : State) : (State.consume k s).dstCap = s.dstCap := rfl
@[simp] theorem consume_depth (k : Nat) (s : State) : (State.consume k s).depth = s.depth := rfl
@[simp] theorem consume_status (k : Nat) (s : State) : (State.consume k s).status = s.status := rfl
@[simp] theorem consume_result (k : Nat) (s : State) : (State.consume k s).result = s.result := rfl
@[simp] theorem consume_src (k : Nat) (s : State) : (State.consume k s).src = s.src := rfl
@[simp] theorem consume_dst (k : Nat) (s : State) : (State.consume k s).dst = s.dst := rfl
@[simp] theorem consume_htF (k : Nat) (s : State) : (State.consume k s).htF = s.htF := rfl
@[simp] theorem consume_htH (k : Nat) (s : State) : (State.consume k s).htH = s.htH := rfl
@[simp] theorem consume_ct (k : Nat) (s : State) : (State.consume k s).ct = s.ct := rfl
@[simp] theorem consume_engine (k : Nat) (s : State) : (State.consume k s).engine = s.engine := rfl
@[simp] theorem consume_wk (k : Nat) (s : State) : (State.consume k s).wk = { s.wk with si := s.wk.si + k } := rfl
@[simp] theorem consume_inbox (k : Nat) (s : State) : (State.consume k s).inbox = s.inbox := rfl
@[simp] theorem consume_readData (k : Nat) (s : State) : (State.consume k s).readData = s.readData := rfl
@[simp] theorem consume_unseen (k : Nat) (s : State) : (State.consume k s).unseen = s.unseen := rfl
@[simp] theorem consume_faultLog (k : Nat) (s : State) : (State.consume k s).faultLog = s.faultLog := rfl
@[simp] theorem consume_draws (k : Nat) (s : State) : (State.consume k s).draws = s.draws := rfl

@[simp] theorem addLitLen_cfg (v : Nat) (s : State) : (State.addLitLen v s).cfg = s.cfg := rfl
@[simp] theorem addLitLen_cmd (v : Nat) (s : State) : (State.addLitLen v s).cmd = s.cmd := rfl
@[simp] theorem addLitLen_srcLen (v : Nat) (s : State) : (State.addLitLen v s).srcLen = s.srcLen := rfl
@[simp] theorem addLitLen_dstCap (v : Nat) (s : State) : (State.addLitLen v s).dstCap = s.dstCap := rfl
@[simp] theorem addLitLen_depth (v : Nat) (s : State) : (State.addLitLen v s).depth = s.depth := rfl
@[simp] theorem addLitLen_status (v : Nat) (s : State) : (State.addLitLen v s).status = s.status := rfl
@[simp] theorem addLitLen_result (v : Nat) (s : State) : (State.addLitLen v s).result = s.result := rfl
@[simp] theorem addLitLen_src (v : Nat) (s : State) : (State.addLitLen v s).src = s.src := rfl
@[simp] theorem addLitLen_dst (v : Nat) (s : State) : (State.addLitLen v s).dst = s.dst := rfl
@[simp] theorem addLitLen_htF (v : Nat) (s : State) : (State.addLitLen v s).htF = s.htF := rfl
@[simp] theorem addLitLen_htH (v : Nat) (s : State) : (State.addLitLen v s).htH = s.htH := rfl
@[simp] theorem addLitLen_ct (v : Nat) (s : State) : (State.addLitLen v s).ct = s.ct := rfl
@[simp] theorem addLitLen_engine (v : Nat) (s : State) : (State.addLitLen v s).engine = s.engine := rfl
@[simp] theorem addLitLen_wk (v : Nat) (s : State) : (State.addLitLen v s).wk = { s.wk with litLen := s.wk.litLen + v } := rfl
@[simp] theorem addLitLen_inbox (v : Nat) (s : State) : (State.addLitLen v s).inbox = s.inbox := rfl
@[simp] theorem addLitLen_readData (v : Nat) (s : State) : (State.addLitLen v s).readData = s.readData := rfl
@[simp] theorem addLitLen_unseen (v : Nat) (s : State) : (State.addLitLen v s).unseen = s.unseen := rfl
@[simp] theorem addLitLen_faultLog (v : Nat) (s : State) : (State.addLitLen v s).faultLog = s.faultLog := rfl
@[simp] theorem addLitLen_draws (v : Nat) (s : State) : (State.addLitLen v s).draws = s.draws := rfl

@[simp] theorem addMatchLen_cfg (v : Nat) (s : State) : (State.addMatchLen v s).cfg = s.cfg := rfl
@[simp] theorem addMatchLen_cmd (v : Nat) (s : State) : (State.addMatchLen v s).cmd = s.cmd := rfl
@[simp] theorem addMatchLen_srcLen (v : Nat) (s : State) : (State.addMatchLen v s).srcLen = s.srcLen := rfl
@[simp] theorem addMatchLen_dstCap (v : Nat) (s : State) : (State.addMatchLen v s).dstCap = s.dstCap := rfl
@[simp] theorem addMatchLen_depth (v : Nat) (s : State) : (State.addMatchLen v s).depth = s.depth := rfl
@[simp] theorem addMatchLen_status (v : Nat) (s : State) : (State.addMatchLen v s).status = s.status := rfl
@[simp] theorem addMatchLen_result (v : Nat) (s : State) : (State.addMatchLen v s).result = s.result := rfl
@[simp] theorem addMatchLen_src (v : Nat) (s : State) : (State.addMatchLen v s).src = s.src := rfl
@[simp] theorem addMatchLen_dst (v : Nat) (s : State) : (State.addMatchLen v s).dst = s.dst := rfl
@[simp] theorem addMatchLen_htF (v : Nat) (s : State) : (State.addMatchLen v s).htF = s.htF := rfl
@[simp] theorem addMatchLen_htH (v : Nat) (s : State) : (State.addMatchLen v s).htH = s.htH := rfl
@[simp] theorem addMatchLen_ct (v : Nat) (s : State) : (State.addMatchLen v s).ct = s.ct := rfl
@[simp] theorem addMatchLen_engine (v : Nat) (s : State) : (State.addMatchLen v s).engine = s.engine := rfl
@[simp] theorem addMatchLen_wk (v : Nat) (s : State) : (State.addMatchLen v s).wk = { s.wk with matchLen := s.wk.matchLen + v } := rfl
@[simp] theorem addMatchLen_inbox (v : Nat) (s : State) : (State.addMatchLen v s).inbox = s.inbox := rfl
@[simp] theorem addMatchLen_readData (v : Nat) (s : State) : (State.addMatchLen v s).readData = s.readData := rfl
@[simp] theorem addMatchLen_unseen (v : Nat) (s : State) : (State.addMatchLen v s).unseen = s.unseen := rfl
@[simp] theorem addMatchLen_faultLog (v : Nat) (s : State) : (State.addMatchLen v s).faultLog = s.faultLog := rfl
@[simp] theorem addMatchLen_draws (v : Nat) (s : State) : (State.addMatchLen v s).draws = s.draws := rfl

@[simp] theorem takeToken_cfg (ln mn : BitVec 4) (s : State) : (takeToken ln mn s).cfg = s.cfg := rfl
@[simp] theorem takeToken_cmd (ln mn : BitVec 4) (s : State) : (takeToken ln mn s).cmd = s.cmd := rfl
@[simp] theorem takeToken_srcLen (ln mn : BitVec 4) (s : State) : (takeToken ln mn s).srcLen = s.srcLen := rfl
@[simp] theorem takeToken_dstCap (ln mn : BitVec 4) (s : State) : (takeToken ln mn s).dstCap = s.dstCap := rfl
@[simp] theorem takeToken_depth (ln mn : BitVec 4) (s : State) : (takeToken ln mn s).depth = s.depth := rfl
@[simp] theorem takeToken_status (ln mn : BitVec 4) (s : State) : (takeToken ln mn s).status = s.status := rfl
@[simp] theorem takeToken_result (ln mn : BitVec 4) (s : State) : (takeToken ln mn s).result = s.result := rfl
@[simp] theorem takeToken_src (ln mn : BitVec 4) (s : State) : (takeToken ln mn s).src = s.src := rfl
@[simp] theorem takeToken_dst (ln mn : BitVec 4) (s : State) : (takeToken ln mn s).dst = s.dst := rfl
@[simp] theorem takeToken_htF (ln mn : BitVec 4) (s : State) : (takeToken ln mn s).htF = s.htF := rfl
@[simp] theorem takeToken_htH (ln mn : BitVec 4) (s : State) : (takeToken ln mn s).htH = s.htH := rfl
@[simp] theorem takeToken_ct (ln mn : BitVec 4) (s : State) : (takeToken ln mn s).ct = s.ct := rfl
@[simp] theorem takeToken_engine (ln mn : BitVec 4) (s : State) : (takeToken ln mn s).engine = s.engine := rfl
@[simp] theorem takeToken_wk (ln mn : BitVec 4) (s : State) : (takeToken ln mn s).wk = { s.wk with si := s.wk.si + 1, litLen := ln.toNat, mn := mn } := rfl
@[simp] theorem takeToken_inbox (ln mn : BitVec 4) (s : State) : (takeToken ln mn s).inbox = s.inbox := rfl
@[simp] theorem takeToken_readData (ln mn : BitVec 4) (s : State) : (takeToken ln mn s).readData = s.readData := rfl
@[simp] theorem takeToken_unseen (ln mn : BitVec 4) (s : State) : (takeToken ln mn s).unseen = s.unseen := rfl
@[simp] theorem takeToken_faultLog (ln mn : BitVec 4) (s : State) : (takeToken ln mn s).faultLog = s.faultLog := rfl
@[simp] theorem takeToken_draws (ln mn : BitVec 4) (s : State) : (takeToken ln mn s).draws = s.draws := rfl

@[simp] theorem literalCopy_cfg (b : Byte) (s : State) : (literalCopy b s).cfg = s.cfg := rfl
@[simp] theorem literalCopy_cmd (b : Byte) (s : State) : (literalCopy b s).cmd = s.cmd := rfl
@[simp] theorem literalCopy_srcLen (b : Byte) (s : State) : (literalCopy b s).srcLen = s.srcLen := rfl
@[simp] theorem literalCopy_dstCap (b : Byte) (s : State) : (literalCopy b s).dstCap = s.dstCap := rfl
@[simp] theorem literalCopy_depth (b : Byte) (s : State) : (literalCopy b s).depth = s.depth := rfl
@[simp] theorem literalCopy_status (b : Byte) (s : State) : (literalCopy b s).status = s.status := rfl
@[simp] theorem literalCopy_result (b : Byte) (s : State) : (literalCopy b s).result = s.result := rfl
@[simp] theorem literalCopy_src (b : Byte) (s : State) : (literalCopy b s).src = s.src := rfl
@[simp] theorem literalCopy_dst (b : Byte) (s : State) : (literalCopy b s).dst = s.dst.write s.wk.di b := rfl
@[simp] theorem literalCopy_htF (b : Byte) (s : State) : (literalCopy b s).htF = s.htF := rfl
@[simp] theorem literalCopy_htH (b : Byte) (s : State) : (literalCopy b s).htH = s.htH := rfl
@[simp] theorem literalCopy_ct (b : Byte) (s : State) : (literalCopy b s).ct = s.ct := rfl
@[simp] theorem literalCopy_engine (b : Byte) (s : State) : (literalCopy b s).engine = s.engine := rfl
@[simp] theorem literalCopy_wk (b : Byte) (s : State) : (literalCopy b s).wk = { s.wk with si := s.wk.si + 1, di := s.wk.di + 1, litLen := s.wk.litLen - 1 } := rfl
@[simp] theorem literalCopy_inbox (b : Byte) (s : State) : (literalCopy b s).inbox = s.inbox := rfl
@[simp] theorem literalCopy_readData (b : Byte) (s : State) : (literalCopy b s).readData = s.readData := rfl
@[simp] theorem literalCopy_unseen (b : Byte) (s : State) : (literalCopy b s).unseen = s.unseen := rfl
@[simp] theorem literalCopy_faultLog (b : Byte) (s : State) : (literalCopy b s).faultLog = s.faultLog := rfl
@[simp] theorem literalCopy_draws (b : Byte) (s : State) : (literalCopy b s).draws = s.draws := rfl

@[simp] theorem startScan_cfg (s : State) : (State.startScan s).cfg = s.cfg := rfl
@[simp] theorem startScan_cmd (s : State) : (State.startScan s).cmd = s.cmd := rfl
@[simp] theorem startScan_srcLen (s : State) : (State.startScan s).srcLen = s.srcLen := rfl
@[simp] theorem startScan_dstCap (s : State) : (State.startScan s).dstCap = s.dstCap := rfl
@[simp] theorem startScan_depth (s : State) : (State.startScan s).depth = s.depth := rfl
@[simp] theorem startScan_status (s : State) : (State.startScan s).status = s.status := rfl
@[simp] theorem startScan_result (s : State) : (State.startScan s).result = s.result := rfl
@[simp] theorem startScan_src (s : State) : (State.startScan s).src = s.src := rfl
@[simp] theorem startScan_dst (s : State) : (State.startScan s).dst = s.dst := rfl
@[simp] theorem startScan_htF (s : State) : (State.startScan s).htF = s.htF := rfl
@[simp] theorem startScan_htH (s : State) : (State.startScan s).htH = s.htH := rfl
@[simp] theorem startScan_ct (s : State) : (State.startScan s).ct = s.ct := rfl
@[simp] theorem startScan_engine (s : State) : (State.startScan s).engine = s.engine := rfl
@[simp] theorem startScan_wk (s : State) : (State.startScan s).wk = { s.wk with sn := s.wk.n - 12, si := 0, anchor := 0, di := 0 } := rfl
@[simp] theorem startScan_inbox (s : State) : (State.startScan s).inbox = s.inbox := rfl
@[simp] theorem startScan_readData (s : State) : (State.startScan s).readData = s.readData := rfl
@[simp] theorem startScan_unseen (s : State) : (State.startScan s).unseen = s.unseen := rfl
@[simp] theorem startScan_faultLog (s : State) : (State.startScan s).faultLog = s.faultLog := rfl
@[simp] theorem startScan_draws (s : State) : (State.startScan s).draws = s.draws := rfl

@[simp] theorem fastLookup_cfg (s : State) : (fastLookup s).cfg = s.cfg := rfl
@[simp] theorem fastLookup_cmd (s : State) : (fastLookup s).cmd = s.cmd := rfl
@[simp] theorem fastLookup_srcLen (s : State) : (fastLookup s).srcLen = s.srcLen := rfl
@[simp] theorem fastLookup_dstCap (s : State) : (fastLookup s).dstCap = s.dstCap := rfl
@[simp] theorem fastLookup_depth (s : State) : (fastLookup s).depth = s.depth := rfl
@[simp] theorem fastLookup_status (s : State) : (fastLookup s).status = s.status := rfl
@[simp] theorem fastLookup_result (s : State) : (fastLookup s).result = s.result := rfl
@[simp] theorem fastLookup_src (s : State) : (fastLookup s).src = s.src := rfl
@[simp] theorem fastLookup_dst (s : State) : (fastLookup s).dst = s.dst := rfl
@[simp] theorem fastLookup_htF (s : State) : (fastLookup s).htF = s.htF.write s.cfg.posW (s.fp s.wk.si).toNat s.wk.si := rfl
@[simp] theorem fastLookup_htH (s : State) : (fastLookup s).htH = s.htH := rfl
@[simp] theorem fastLookup_ct (s : State) : (fastLookup s).ct = s.ct := rfl
@[simp] theorem fastLookup_engine (s : State) : (fastLookup s).engine = s.engine := rfl
@[simp] theorem fastLookup_wk (s : State) : (fastLookup s).wk = { s.wk with x := s.srcWord s.wk.si, h := s.fp s.wk.si, ref := s.htfCell (s.fp s.wk.si).toNat, off := s.wk.si - s.htfCell (s.fp s.wk.si).toNat } := rfl
@[simp] theorem fastLookup_inbox (s : State) : (fastLookup s).inbox = s.inbox := rfl
@[simp] theorem fastLookup_readData (s : State) : (fastLookup s).readData = s.readData := rfl
@[simp] theorem fastLookup_unseen (s : State) : (fastLookup s).unseen = s.unseen.engineCell (s.fp s.wk.si).toNat := rfl
@[simp] theorem fastLookup_faultLog (s : State) : (fastLookup s).faultLog = s.faultLog := rfl
@[simp] theorem fastLookup_draws (s : State) : (fastLookup s).draws = s.draws := rfl

@[simp] theorem fastMeasure_cfg (s : State) : (fastMeasure s).cfg = s.cfg := rfl
@[simp] theorem fastMeasure_cmd (s : State) : (fastMeasure s).cmd = s.cmd := rfl
@[simp] theorem fastMeasure_srcLen (s : State) : (fastMeasure s).srcLen = s.srcLen := rfl
@[simp] theorem fastMeasure_dstCap (s : State) : (fastMeasure s).dstCap = s.dstCap := rfl
@[simp] theorem fastMeasure_depth (s : State) : (fastMeasure s).depth = s.depth := rfl
@[simp] theorem fastMeasure_status (s : State) : (fastMeasure s).status = s.status := rfl
@[simp] theorem fastMeasure_result (s : State) : (fastMeasure s).result = s.result := rfl
@[simp] theorem fastMeasure_src (s : State) : (fastMeasure s).src = s.src := rfl
@[simp] theorem fastMeasure_dst (s : State) : (fastMeasure s).dst = s.dst := rfl
@[simp] theorem fastMeasure_htF (s : State) : (fastMeasure s).htF = s.htF := rfl
@[simp] theorem fastMeasure_htH (s : State) : (fastMeasure s).htH = s.htH := rfl
@[simp] theorem fastMeasure_ct (s : State) : (fastMeasure s).ct = s.ct := rfl
@[simp] theorem fastMeasure_engine (s : State) : (fastMeasure s).engine = s.engine := rfl
@[simp] theorem fastMeasure_wk (s : State) : (fastMeasure s).wk = { s.wk with p := fastMatchEnd s, matchLen := fastMatchEnd s - s.wk.si, litLen := s.wk.si - s.wk.anchor } := rfl
@[simp] theorem fastMeasure_inbox (s : State) : (fastMeasure s).inbox = s.inbox := rfl
@[simp] theorem fastMeasure_readData (s : State) : (fastMeasure s).readData = s.readData := rfl
@[simp] theorem fastMeasure_unseen (s : State) : (fastMeasure s).unseen = s.unseen := rfl
@[simp] theorem fastMeasure_faultLog (s : State) : (fastMeasure s).faultLog = s.faultLog := rfl
@[simp] theorem fastMeasure_draws (s : State) : (fastMeasure s).draws = s.draws := rfl

@[simp] theorem zeroHc_cfg (s : State) : (State.zeroHc s).cfg = s.cfg := rfl
@[simp] theorem zeroHc_cmd (s : State) : (State.zeroHc s).cmd = s.cmd := rfl
@[simp] theorem zeroHc_srcLen (s : State) : (State.zeroHc s).srcLen = s.srcLen := rfl
@[simp] theorem zeroHc_dstCap (s : State) : (State.zeroHc s).dstCap = s.dstCap := rfl
@[simp] theorem zeroHc_depth (s : State) : (State.zeroHc s).depth = s.depth := rfl
@[simp] theorem zeroHc_status (s : State) : (State.zeroHc s).status = s.status := rfl
@[simp] theorem zeroHc_result (s : State) : (State.zeroHc s).result = s.result := rfl
@[simp] theorem zeroHc_src (s : State) : (State.zeroHc s).src = s.src := rfl
@[simp] theorem zeroHc_dst (s : State) : (State.zeroHc s).dst = s.dst := rfl
@[simp] theorem zeroHc_htF (s : State) : (State.zeroHc s).htF = s.htF := rfl
@[simp] theorem zeroHc_htH (s : State) : (State.zeroHc s).htH = .zeroed := rfl
@[simp] theorem zeroHc_ct (s : State) : (State.zeroHc s).ct = .zeroed := rfl
@[simp] theorem zeroHc_engine (s : State) : (State.zeroHc s).engine = s.engine := rfl
@[simp] theorem zeroHc_wk (s : State) : (State.zeroHc s).wk = s.wk := rfl
@[simp] theorem zeroHc_inbox (s : State) : (State.zeroHc s).inbox = s.inbox := rfl
@[simp] theorem zeroHc_readData (s : State) : (State.zeroHc s).readData = s.readData := rfl
@[simp] theorem zeroHc_unseen (s : State) : (State.zeroHc s).unseen = s.unseen := rfl
@[simp] theorem zeroHc_faultLog (s : State) : (State.zeroHc s).faultLog = s.faultLog := rfl
@[simp] theorem zeroHc_draws (s : State) : (State.zeroHc s).draws = s.draws := rfl

@[simp] theorem forgetHc_cfg (s : State) : (State.forgetHc s).cfg = s.cfg := rfl
@[simp] theorem forgetHc_cmd (s : State) : (State.forgetHc s).cmd = s.cmd := rfl
@[simp] theorem forgetHc_srcLen (s : State) : (State.forgetHc s).srcLen = s.srcLen := rfl
@[simp] theorem forgetHc_dstCap (s : State) : (State.forgetHc s).dstCap = s.dstCap := rfl
@[simp] theorem forgetHc_depth (s : State) : (State.forgetHc s).depth = s.depth := rfl
@[simp] theorem forgetHc_status (s : State) : (State.forgetHc s).status = s.status := rfl
@[simp] theorem forgetHc_result (s : State) : (State.forgetHc s).result = s.result := rfl
@[simp] theorem forgetHc_src (s : State) : (State.forgetHc s).src = s.src := rfl
@[simp] theorem forgetHc_dst (s : State) : (State.forgetHc s).dst = s.dst := rfl
@[simp] theorem forgetHc_htF (s : State) : (State.forgetHc s).htF = s.htF := rfl
@[simp] theorem forgetHc_htH (s : State) : (State.forgetHc s).htH = .unspecified s.draws := rfl
@[simp] theorem forgetHc_ct (s : State) : (State.forgetHc s).ct = .unspecified s.draws := rfl
@[simp] theorem forgetHc_engine (s : State) : (State.forgetHc s).engine = s.engine := rfl
@[simp] theorem forgetHc_wk (s : State) : (State.forgetHc s).wk = s.wk := rfl
@[simp] theorem forgetHc_inbox (s : State) : (State.forgetHc s).inbox = s.inbox := rfl
@[simp] theorem forgetHc_readData (s : State) : (State.forgetHc s).readData = s.readData := rfl
@[simp] theorem forgetHc_unseen (s : State) : (State.forgetHc s).unseen = s.unseen := rfl
@[simp] theorem forgetHc_faultLog (s : State) : (State.forgetHc s).faultLog = s.faultLog := rfl
@[simp] theorem forgetHc_draws (s : State) : (State.forgetHc s).draws = s.draws + 1 := rfl

@[simp] theorem hcLookup_cfg (s : State) : (hcLookup s).cfg = s.cfg := rfl
@[simp] theorem hcLookup_cmd (s : State) : (hcLookup s).cmd = s.cmd := rfl
@[simp] theorem hcLookup_srcLen (s : State) : (hcLookup s).srcLen = s.srcLen := rfl
@[simp] theorem hcLookup_dstCap (s : State) : (hcLookup s).dstCap = s.dstCap := rfl
@[simp] theorem hcLookup_depth (s : State) : (hcLookup s).depth = s.depth := rfl
@[simp] theorem hcLookup_status (s : State) : (hcLookup s).status = s.status := rfl
@[simp] theorem hcLookup_result (s : State) : (hcLookup s).result = s.result := rfl
@[simp] theorem hcLookup_src (s : State) : (hcLookup s).src = s.src := rfl
@[simp] theorem hcLookup_dst (s : State) : (hcLookup s).dst = s.dst := rfl
@[simp] theorem hcLookup_htF (s : State) : (hcLookup s).htF = s.htF := rfl
@[simp] theorem hcLookup_htH (s : State) : (hcLookup s).htH = s.htH := rfl
@[simp] theorem hcLookup_ct (s : State) : (hcLookup s).ct = s.ct := rfl
@[simp] theorem hcLookup_engine (s : State) : (hcLookup s).engine = s.engine := rfl
@[simp] theorem hcLookup_wk (s : State) : (hcLookup s).wk = { s.wk with x := s.srcWord s.wk.si, h := s.fp s.wk.si, bestLen := 0, bestOff := 0, next := s.hthCell (s.fp s.wk.si).toNat, tryLeft := s.wk.effDepth } := rfl
@[simp] theorem hcLookup_inbox (s : State) : (hcLookup s).inbox = s.inbox := rfl
@[simp] theorem hcLookup_readData (s : State) : (hcLookup s).readData = s.readData := rfl
@[simp] theorem hcLookup_unseen (s : State) : (hcLookup s).unseen = s.unseen := rfl
@[simp] theorem hcLookup_faultLog (s : State) : (hcLookup s).faultLog = s.faultLog := rfl
@[simp] theorem hcLookup_draws (s : State) : (hcLookup s).draws = s.draws := rfl

@[simp] theorem hcInsert_cfg (q : Nat) (s : State) : (hcInsert q s).cfg = s.cfg := rfl
@[simp] theorem hcInsert_cmd (q : Nat) (s : State) : (hcInsert q s).cmd = s.cmd := rfl
@[simp] theorem hcInsert_srcLen (q : Nat) (s : State) : (hcInsert q s).srcLen = s.srcLen := rfl
@[simp] theorem hcInsert_dstCap (q : Nat) (s : State) : (hcInsert q s).dstCap = s.dstCap := rfl
@[simp] theorem hcInsert_depth (q : Nat) (s : State) : (hcInsert q s).depth = s.depth := rfl
@[simp] theorem hcInsert_status (q : Nat) (s : State) : (hcInsert q s).status = s.status := rfl
@[simp] theorem hcInsert_result (q : Nat) (s : State) : (hcInsert q s).result = s.result := rfl
@[simp] theorem hcInsert_src (q : Nat) (s : State) : (hcInsert q s).src = s.src := rfl
@[simp] theorem hcInsert_dst (q : Nat) (s : State) : (hcInsert q s).dst = s.dst := rfl
@[simp] theorem hcInsert_htF (q : Nat) (s : State) : (hcInsert q s).htF = s.htF := rfl
@[simp] theorem hcInsert_htH (q : Nat) (s : State) : (hcInsert q s).htH = s.htH.write s.cfg.posW (s.fp q).toNat q := rfl
@[simp] theorem hcInsert_ct (q : Nat) (s : State) : (hcInsert q s).ct = s.ct.write s.cfg.posW (q % 65536) (s.hthCell (s.fp q).toNat) := rfl
@[simp] theorem hcInsert_engine (q : Nat) (s : State) : (hcInsert q s).engine = s.engine := rfl
@[simp] theorem hcInsert_wk (q : Nat) (s : State) : (hcInsert q s).wk = s.wk := rfl
@[simp] theorem hcInsert_inbox (q : Nat) (s : State) : (hcInsert q s).inbox = s.inbox := rfl
@[simp] theorem hcInsert_readData (q : Nat) (s : State) : (hcInsert q s).readData = s.readData := rfl
@[simp] theorem hcInsert_unseen (q : Nat) (s : State) : (hcInsert q s).unseen = s.unseen := rfl
@[simp] theorem hcInsert_faultLog (q : Nat) (s : State) : (hcInsert q s).faultLog = s.faultLog := rfl
@[simp] theorem hcInsert_draws (q : Nat) (s : State) : (hcInsert q s).draws = s.draws := rfl

@[simp] theorem hcMeasured_cfg (s : State) : (hcMeasured s).cfg = s.cfg := rfl
@[simp] theorem hcMeasured_cmd (s : State) : (hcMeasured s).cmd = s.cmd := rfl
@[simp] theorem hcMeasured_srcLen (s : State) : (hcMeasured s).srcLen = s.srcLen := rfl
@[simp] theorem hcMeasured_dstCap (s : State) : (hcMeasured s).dstCap = s.dstCap := rfl
@[simp] theorem hcMeasured_depth (s : State) : (hcMeasured s).depth = s.depth := rfl
@[simp] theorem hcMeasured_status (s : State) : (hcMeasured s).status = s.status := rfl
@[simp] theorem hcMeasured_result (s : State) : (hcMeasured s).result = s.result := rfl
@[simp] theorem hcMeasured_src (s : State) : (hcMeasured s).src = s.src := rfl
@[simp] theorem hcMeasured_dst (s : State) : (hcMeasured s).dst = s.dst := rfl
@[simp] theorem hcMeasured_htF (s : State) : (hcMeasured s).htF = s.htF := rfl
@[simp] theorem hcMeasured_htH (s : State) : (hcMeasured s).htH = s.htH := rfl
@[simp] theorem hcMeasured_ct (s : State) : (hcMeasured s).ct = s.ct := rfl
@[simp] theorem hcMeasured_engine (s : State) : (hcMeasured s).engine = s.engine := rfl
@[simp] theorem hcMeasured_wk (s : State) : (hcMeasured s).wk = { s.wk with litLen := s.wk.si - s.wk.anchor, off := s.wk.bestOff, matchLen := s.wk.bestLen } := rfl
@[simp] theorem hcMeasured_inbox (s : State) : (hcMeasured s).inbox = s.inbox := rfl
@[simp] theorem hcMeasured_readData (s : State) : (hcMeasured s).readData = s.readData := rfl
@[simp] theorem hcMeasured_unseen (s : State) : (hcMeasured s).unseen = s.unseen := rfl
@[simp] theorem hcMeasured_faultLog (s : State) : (hcMeasured s).faultLog = s.faultLog := rfl
@[simp] theorem hcMeasured_draws (s : State) : (hcMeasured s).draws = s.draws := rfl

@[simp] theorem answerStatus_cfg (s : State) : (State.answerStatus s).cfg = s.cfg := rfl
@[simp] theorem answerStatus_cmd (s : State) : (State.answerStatus s).cmd = s.cmd := rfl
@[simp] theorem answerStatus_srcLen (s : State) : (State.answerStatus s).srcLen = s.srcLen := rfl
@[simp] theorem answerStatus_dstCap (s : State) : (State.answerStatus s).dstCap = s.dstCap := rfl
@[simp] theorem answerStatus_depth (s : State) : (State.answerStatus s).depth = s.depth := rfl
@[simp] theorem answerStatus_status (s : State) : (State.answerStatus s).status = s.status := rfl
@[simp] theorem answerStatus_result (s : State) : (State.answerStatus s).result = s.result := rfl
@[simp] theorem answerStatus_src (s : State) : (State.answerStatus s).src = s.src := rfl
@[simp] theorem answerStatus_dst (s : State) : (State.answerStatus s).dst = s.dst := rfl
@[simp] theorem answerStatus_htF (s : State) : (State.answerStatus s).htF = s.htF := rfl
@[simp] theorem answerStatus_htH (s : State) : (State.answerStatus s).htH = s.htH := rfl
@[simp] theorem answerStatus_ct (s : State) : (State.answerStatus s).ct = s.ct := rfl
@[simp] theorem answerStatus_engine (s : State) : (State.answerStatus s).engine = s.engine := rfl
@[simp] theorem answerStatus_wk (s : State) : (State.answerStatus s).wk = s.wk := rfl
@[simp] theorem answerStatus_inbox (s : State) : (State.answerStatus s).inbox = s.inbox := rfl
@[simp] theorem answerStatus_readData (s : State) : (State.answerStatus s).readData = s.status := rfl
@[simp] theorem answerStatus_unseen (s : State) : (State.answerStatus s).unseen = if statusDone s.status then .nothing else s.unseen := rfl
@[simp] theorem answerStatus_faultLog (s : State) : (State.answerStatus s).faultLog = s.faultLog := rfl
@[simp] theorem answerStatus_draws (s : State) : (State.answerStatus s).draws = s.draws := rfl

@[simp] theorem answer_cfg (d : Word) (s : State) : (State.answer d s).cfg = s.cfg := rfl
@[simp] theorem answer_cmd (d : Word) (s : State) : (State.answer d s).cmd = s.cmd := rfl
@[simp] theorem answer_srcLen (d : Word) (s : State) : (State.answer d s).srcLen = s.srcLen := rfl
@[simp] theorem answer_dstCap (d : Word) (s : State) : (State.answer d s).dstCap = s.dstCap := rfl
@[simp] theorem answer_depth (d : Word) (s : State) : (State.answer d s).depth = s.depth := rfl
@[simp] theorem answer_status (d : Word) (s : State) : (State.answer d s).status = s.status := rfl
@[simp] theorem answer_result (d : Word) (s : State) : (State.answer d s).result = s.result := rfl
@[simp] theorem answer_src (d : Word) (s : State) : (State.answer d s).src = s.src := rfl
@[simp] theorem answer_dst (d : Word) (s : State) : (State.answer d s).dst = s.dst := rfl
@[simp] theorem answer_htF (d : Word) (s : State) : (State.answer d s).htF = s.htF := rfl
@[simp] theorem answer_htH (d : Word) (s : State) : (State.answer d s).htH = s.htH := rfl
@[simp] theorem answer_ct (d : Word) (s : State) : (State.answer d s).ct = s.ct := rfl
@[simp] theorem answer_engine (d : Word) (s : State) : (State.answer d s).engine = s.engine := rfl
@[simp] theorem answer_wk (d : Word) (s : State) : (State.answer d s).wk = s.wk := rfl
@[simp] theorem answer_inbox (d : Word) (s : State) : (State.answer d s).inbox = s.inbox := rfl
@[simp] theorem answer_readData (d : Word) (s : State) : (State.answer d s).readData = d := rfl
@[simp] theorem answer_unseen (d : Word) (s : State) : (State.answer d s).unseen = s.unseen := rfl
@[simp] theorem answer_faultLog (d : Word) (s : State) : (State.answer d s).faultLog = s.faultLog := rfl
@[simp] theorem answer_draws (d : Word) (s : State) : (State.answer d s).draws = s.draws := rfl

end Sys2Proof.Machine
end

