-- ==== Sys2Proof/Laws/Ops.lean ====
section
/-! SUPPORT. What the shared operations do: STATUS words, the reads of SRC and DST after each update, how pieces of
pseudocode compose, and what a completion leaves. -/

namespace Sys2Proof.Machine

/-! ### STATUS -/

@[simp] theorem statusBusy_statusWord (b d : Bool) (e : BitVec 4) : statusBusy (statusWord b d e) = b := by
  revert b d e; decide

@[simp] theorem statusDone_statusWord (b d : Bool) (e : BitVec 4) : statusDone (statusWord b d e) = d := by
  revert b d e; decide

@[simp] theorem statusErr_statusWord (b d : Bool) (e : BitVec 4) : statusErr (statusWord b d e) = e := by
  revert b d e; decide

/-! ### Reads after updates that leave a buffer alone -/

theorem srcByte_congr {s t : State} (h : t.src = s.src) (i : Nat) : t.srcByte i = s.srcByte i := by
  simp only [State.srcByte, h]

theorem srcByte_congr_fun {s t : State} (h : t.src = s.src) : t.srcByte = s.srcByte :=
  funext (srcByte_congr h)

theorem dstByte_congr {s t : State} (h : t.dst = s.dst) (i : Nat) : t.dstByte i = s.dstByte i := by
  simp only [State.dstByte, h]

theorem srcWord_congr {s t : State} (h : t.src = s.src) (p : Nat) : t.srcWord p = s.srcWord p := by
  simp only [State.srcWord, srcByte_congr h]

theorem fp_congr {s t : State} (h : t.src = s.src) (p : Nat) : t.fp p = s.fp p := by
  simp only [State.fp, srcWord_congr h]

theorem commonLen_congr {s t : State} (h : t.src = s.src) (a b l : Nat) : t.commonLen a b l = s.commonLen a b l := by
  simp only [State.commonLen, srcByte_congr_fun h]

/-! ### How pieces of pseudocode compose -/

/-- Every state in which a piece of pseudocode can leave the command satisfies `P`. -/
def Run.All (P : State → Prop) : Run → Prop
  | .go s => P s
  | .ret _ s => P s
  | .incompressible s => P s
  | .raise s => P s

@[simp] theorem Run.all_go (P : State → Prop) (s : State) : (Run.go s).All P ↔ P s := Iff.rfl
@[simp] theorem Run.all_ret (P : State → Prop) (r : Nat) (s : State) : (Run.ret r s).All P ↔ P s := Iff.rfl
@[simp] theorem Run.all_incompressible (P : State → Prop) (s : State) : (Run.incompressible s).All P ↔ P s := Iff.rfl
@[simp] theorem Run.all_raise (P : State → Prop) (s : State) : (Run.raise s).All P ↔ P s := Iff.rfl

@[simp] theorem Run.andThen_go (s : State) (f : State → Run) : (Run.go s).andThen f = f s := rfl
@[simp] theorem Run.andThen_ret (r : Nat) (s : State) (f : State → Run) : (Run.ret r s).andThen f = .ret r s := rfl
@[simp] theorem Run.andThen_incompressible (s : State) (f : State → Run) :
    (Run.incompressible s).andThen f = .incompressible s := rfl
@[simp] theorem Run.andThen_raise (s : State) (f : State → Run) : (Run.raise s).andThen f = .raise s := rfl

@[simp] theorem Run.settle_go (s : State) : (Run.go s).settle = s := rfl
@[simp] theorem Run.settle_ret (r : Nat) (s : State) : (Run.ret r s).settle = s.complete .ok r r := rfl
@[simp] theorem Run.settle_incompressible (s : State) :
    (Run.incompressible s).settle = s.forgetDst.complete .ok 0 s.wk.cap := rfl
@[simp] theorem Run.settle_raise (s : State) : (Run.raise s).settle = s.raiseShort := rfl

theorem Run.All.mono {P Q : State → Prop} {m : Run} (h : m.All P) (hpq : ∀ s, P s → Q s) : m.All Q := by
  cases m <;> exact hpq _ h

theorem Run.All.andThen {P Q : State → Prop} {m : Run} {f : State → Run} (hm : m.All P)
    (hq : ∀ s, P s → Q s) (hf : ∀ s, P s → (f s).All Q) : (m.andThen f).All Q := by
  cases m
  · exact hf _ hm
  all_goals exact hq _ hm

/-- What is true of every state a piece of pseudocode can end in, and kept by completion, is true of the settled state. -/
theorem Run.settle_of_all {P Q : State → Prop} {m : Run} (hm : m.All P) (hgo : ∀ s, P s → Q s)
    (hret : ∀ s r, P s → Q (s.complete .ok r r)) (hinc : ∀ s, P s → Q (s.forgetDst.complete .ok 0 s.wk.cap))
    (hraise : ∀ s, P s → Q s.raiseShort) : Q m.settle := by
  cases m
  · exact hgo _ hm
  · exact hret _ _ hm
  · exact hinc _ hm
  · exact hraise _ hm

/-! ### Completion -/

theorem completed_complete (e : Err) (r lim : Nat) (s : State) : Completed e r s (s.complete e r lim) :=
  ⟨rfl, rfl, rfl, rfl, rfl⟩

theorem completed_raiseShort (s : State) : Completed .invalidSourceShortBuffer 0 s s.raiseShort :=
  ⟨rfl, rfl, rfl, rfl, rfl⟩

theorem completed_rejectRequest (s : State) : Completed .illegalRequest 0 s s.rejectRequest :=
  ⟨rfl, rfl, rfl, rfl, rfl⟩

theorem hostSide_refl (s : State) : HostSide s s := ⟨rfl, rfl, rfl, rfl, rfl, rfl, rfl, rfl⟩

theorem HostSide.trans {s t u : State} (h : HostSide s t) (k : HostSide t u) : HostSide s u :=
  ⟨k.cfg.trans h.cfg, k.cmd.trans h.cmd, k.srcLen.trans h.srcLen, k.dstCap.trans h.dstCap, k.depth.trans h.depth,
    k.src.trans h.src, k.inbox.trans h.inbox, k.readData.trans h.readData⟩

theorem hostSide_complete (e : Err) (r lim : Nat) (s : State) : HostSide s (s.complete e r lim) :=
  ⟨rfl, rfl, rfl, rfl, rfl, rfl, rfl, rfl⟩

theorem hostSide_forgetDst (s : State) : HostSide s s.forgetDst := ⟨rfl, rfl, rfl, rfl, rfl, rfl, rfl, rfl⟩

theorem hostSide_raiseShort (s : State) : HostSide s s.raiseShort := ⟨rfl, rfl, rfl, rfl, rfl, rfl, rfl, rfl⟩

@[simp] theorem raiseShort_dst (s : State) : s.raiseShort.dst = s.dst.forget s.wk.cap := rfl
@[simp] theorem raiseShort_htF (s : State) : s.raiseShort.htF = s.htF := rfl
@[simp] theorem raiseShort_htH (s : State) : s.raiseShort.htH = s.htH := rfl
@[simp] theorem raiseShort_ct (s : State) : s.raiseShort.ct = s.ct := rfl
@[simp] theorem raiseShort_src (s : State) : s.raiseShort.src = s.src := rfl
@[simp] theorem raiseShort_cfg (s : State) : s.raiseShort.cfg = s.cfg := rfl
@[simp] theorem raiseShort_engine (s : State) : s.raiseShort.engine = .idle := rfl
@[simp] theorem raiseShort_inbox (s : State) : s.raiseShort.inbox = s.inbox := rfl
@[simp] theorem raiseShort_faultLog (s : State) :
    s.raiseShort.faultLog = .invalidSourceShortBuffer :: s.faultLog := rfl

/-- InvalidSourceShortBuffer leaves DST at `cap` and above alone (60_exceptions.md R243b). -/
theorem sameDst_raiseShort (s : State) : SameDstFrom s.wk.cap s s.raiseShort := fun a h => by
  simp only [State.dstByte, raiseShort_dst, Buf.read_forget_above .dst s.dst h]

theorem sameDst_forgetDst (s : State) : SameDstFrom s.wk.cap s s.forgetDst := fun a h => by
  simp only [State.dstByte, forgetDst_dst, Buf.read_forget_above .dst s.dst h]

/-! ### What the host has not been promised (20_memory.md R72b) -/

@[simp] theorem Unseen.hides_nothing (a : Nat) : Unseen.nothing.hides a = false := by simp [Unseen.hides, Unseen.nothing]

theorem Unseen.hides_iff (u : Unseen) (a : Nat) : u.hides a = true ↔ a < u.dst ∧ a ∉ u.dstOwn := by simp [hides]

/-- A command that ends hides what it may have written, and what was hidden before. -/
theorem Unseen.hides_ended (lim a : Nat) (u : Unseen) : (u.ended lim).hides a = (decide (a < lim) || u.hides a) := by
  rw [Bool.eq_iff_iff, Bool.or_eq_true, decide_eq_true_eq, hides_iff, hides_iff]
  simp only [ended, List.mem_filter, decide_eq_true_eq]
  by_cases h : a < lim
  · exact ⟨fun _ => .inl h, fun _ => ⟨by omega, fun k => by omega⟩⟩
  · exact ⟨fun k => .inr ⟨by omega, fun m => k.2 ⟨m, by omega⟩⟩,
      fun k => k.elim (fun x => absurd x h) fun k => ⟨by omega, fun m => k.2 m.1⟩⟩

/-- The bytes the host writes are hidden from it no longer, and no other byte changes. -/
theorem Unseen.hides_hostBytes (b k a : Nat) (u : Unseen) :
    (u.hostBytes b k).hides a = (u.hides a && !(decide (b ≤ a ∧ a < b + k))) := by
  have hm : a ∈ (List.range k).map (b + ·) ↔ b ≤ a ∧ a < b + k := by
    simp only [List.mem_map, List.mem_range]
    exact ⟨fun ⟨x, h, e⟩ => by omega, fun h => ⟨a - b, by omega, by omega⟩⟩
  rw [Bool.eq_iff_iff, Bool.and_eq_true, Bool.not_eq_true', decide_eq_false_iff_not, hides_iff]
  simp only [hostBytes, List.mem_append, List.mem_filter, hm, not_or]
  rw [hides_iff]
  exact ⟨fun ⟨h1, h2, h3⟩ => ⟨⟨h1, h3⟩, fun h => h2 ⟨h, h1, h3⟩⟩, fun ⟨⟨h1, h3⟩, h2⟩ => ⟨h1, fun h => h2 h.1, h3⟩⟩

/-- The command writes the bytes below its limit: what it leaves hidden is those and what was hidden. -/
theorem hidesBelow_complete (e : Err) (r lim : Nat) (s : State) : HidesBelow lim s (s.complete e r lim) :=
  fun a => Unseen.hides_ended lim a s.unseen

/-! ### Another latched capacity -/

@[simp] theorem withCap_wk (c : Nat) (s : State) : (s.withCap c).wk = { s.wk with cap := c } := rfl
@[simp] theorem withCap_cfg (c : Nat) (s : State) : (s.withCap c).cfg = s.cfg := rfl
@[simp] theorem withCap_cmd (c : Nat) (s : State) : (s.withCap c).cmd = s.cmd := rfl
@[simp] theorem withCap_srcLen (c : Nat) (s : State) : (s.withCap c).srcLen = s.srcLen := rfl
@[simp] theorem withCap_dstCap (c : Nat) (s : State) : (s.withCap c).dstCap = s.dstCap := rfl
@[simp] theorem withCap_depth (c : Nat) (s : State) : (s.withCap c).depth = s.depth := rfl
@[simp] theorem withCap_status (c : Nat) (s : State) : (s.withCap c).status = s.status := rfl
@[simp] theorem withCap_result (c : Nat) (s : State) : (s.withCap c).result = s.result := rfl
@[simp] theorem withCap_src (c : Nat) (s : State) : (s.withCap c).src = s.src := rfl
@[simp] theorem withCap_dst (c : Nat) (s : State) : (s.withCap c).dst = s.dst := rfl
@[simp] theorem withCap_htF (c : Nat) (s : State) : (s.withCap c).htF = s.htF := rfl
@[simp] theorem withCap_htH (c : Nat) (s : State) : (s.withCap c).htH = s.htH := rfl
@[simp] theorem withCap_ct (c : Nat) (s : State) : (s.withCap c).ct = s.ct := rfl
@[simp] theorem withCap_engine (c : Nat) (s : State) : (s.withCap c).engine = s.engine := rfl
@[simp] theorem withCap_inbox (c : Nat) (s : State) : (s.withCap c).inbox = s.inbox := rfl
@[simp] theorem withCap_unseen (c : Nat) (s : State) : (s.withCap c).unseen = s.unseen := rfl
@[simp] theorem withCap_readData (c : Nat) (s : State) : (s.withCap c).readData = s.readData := rfl
@[simp] theorem withCap_faultLog (c : Nat) (s : State) : (s.withCap c).faultLog = s.faultLog := rfl
@[simp] theorem withCap_draws (c : Nat) (s : State) : (s.withCap c).draws = s.draws := rfl

/-! ### Lists of bytes -/

@[simp] theorem bytesFrom_length (f : Nat → Byte) (a n : Nat) : (bytesFrom f a n).length = n := by simp [bytesFrom]

theorem bytesFrom_zero (f : Nat → Byte) (a : Nat) : bytesFrom f a 0 = [] := rfl

theorem bytesFrom_succ (f : Nat → Byte) (a n : Nat) : bytesFrom f a (n + 1) = f a :: bytesFrom f (a + 1) n := by
  simp only [bytesFrom, List.range_succ_eq_map, List.map_cons, List.map_map, Nat.add_zero]
  congr 1
  apply List.map_congr_left
  intro k _
  simp only [Function.comp_apply]
  congr 1
  omega

theorem bytesFrom_append (f : Nat → Byte) (a m n : Nat) :
    bytesFrom f a (m + n) = bytesFrom f a m ++ bytesFrom f (a + m) n := by
  induction m generalizing a with
  | zero => simp [bytesFrom_zero]
  | succ k ih => rw [Nat.add_right_comm, bytesFrom_succ, ih, bytesFrom_succ, List.cons_append, Nat.add_right_comm,
      Nat.add_assoc a k 1]

theorem bytesFrom_getElem (f : Nat → Byte) (a n i : Nat) (h : i < (bytesFrom f a n).length) :
    (bytesFrom f a n)[i] = f (a + i) := by simp [bytesFrom]

theorem bytesFrom_congr {f g : Nat → Byte} {a n : Nat} (h : ∀ i, a ≤ i → i < a + n → f i = g i) :
    bytesFrom f a n = bytesFrom g a n := by
  apply List.map_congr_left
  intro k hk
  exact h _ (by omega) (by have := List.mem_range.mp hk; omega)

/-- What a list of writes leaves: the bytes at their addresses, every other address as before. -/
theorem Buf.read_writeAll (id : BufferId) (b : Buf) (a : Nat) (vs : List Byte) (i : Nat) :
    (b.writeAll a vs).read id i = if h : a ≤ i ∧ i - a < vs.length then vs[i - a] else b.read id i := by
  induction vs generalizing b a with
  | nil => simp [Buf.writeAll]
  | cons v r ih =>
    simp only [Buf.writeAll, ih, Buf.read_write]
    by_cases h1 : i = a
    · subst h1; simp
    · by_cases h2 : a + 1 ≤ i ∧ i - (a + 1) < r.length
      · have h3 : a ≤ i ∧ i - a < (v :: r).length := by simp only [List.length_cons]; omega
        have h4 : i - a = (i - (a + 1)) + 1 := by omega
        rw [dif_pos h2, dif_pos h3]
        simp only [h4, List.getElem_cons_succ]
      · have h3 : ¬ (a ≤ i ∧ i - a < (v :: r).length) := by simp only [List.length_cons]; omega
        rw [dif_neg h2, dif_neg h3, if_neg h1]

theorem Buf.wf_writeAll (b : Buf) {size a : Nat} (vs : List Byte) (h : b.wf size = true) (ha : a + vs.length ≤ size) :
    (b.writeAll a vs).wf size = true := by
  induction vs generalizing b a with
  | nil => exact h
  | cons v r ih =>
    simp only [List.length_cons] at ha
    exact ih (b.write a v) (Buf.wf_write b v h (by omega)) (by omega)

end Sys2Proof.Machine
end

