-- ==== Sys2Proof/Laws/Decoder.lean ====
section
/-! SUPPORT. What the pieces of the copy engine do: one case lemma for each, with its guards, the frame of them all, and
the copy's reads and canonical form. -/

namespace Sys2Proof.Machine

/-! ### The copy -/

theorem Buf.wf_copyBytes (count off di : Nat) (b : Buf) {size : Nat} (h : b.wf size = true) (hd : di + count ≤ size) :
    (copyBytes count off di b).wf size = true := by
  induction count generalizing di b with
  | zero => exact h
  | succ k ih => exact ih (di + 1) _ (Buf.wf_write b _ h (by omega)) (by omega)

/-- The copy stores in `[di, di + count)` and nowhere else. -/
theorem Buf.read_copyBytes_outside (count off di : Nat) (b : Buf) {a : Nat} (h : a < di ∨ di + count ≤ a) :
    (copyBytes count off di b).read .dst a = b.read .dst a := by
  induction count generalizing di b with
  | zero => rfl
  | succ k ih => rw [copyBytes, ih (di + 1) _ (by omega), Buf.read_write_other _ _ _ (by omega)]

/-- One more byte of the copy, at its end: it is the byte `off` before it in what the copy has made so far. -/
theorem Buf.read_copyBytes_snoc (count off di : Nat) (b : Buf) (h2 : off ≤ di) :
    (copyBytes (count + 1) off di b).read .dst (di + count) =
      (copyBytes count off di b).read .dst (di + count - off) := by
  induction count generalizing di b with
  | zero =>
    rw [copyBytes, copyBytes, copyBytes, Nat.add_zero, Buf.read_write_same]
  | succ k ih =>
    have := ih (di + 1) (b.write di (b.read .dst (di - off))) (by omega)
    rw [copyBytes, copyBytes, show di + (k + 1) = di + 1 + k by omega]
    exact this

/-- The bytes of the copy do not depend on how many follow. -/
theorem Buf.read_copyBytes_prefix (count more off di : Nat) (b : Buf) {a : Nat} (h : a < di + count) :
    (copyBytes (count + more) off di b).read .dst a = (copyBytes count off di b).read .dst a := by
  induction count generalizing di b with
  | zero => rw [Buf.read_copyBytes_outside _ _ _ _ (.inl (by omega)), copyBytes]
  | succ k ih =>
    rw [show k + 1 + more = k + more + 1 by omega, copyBytes, copyBytes]
    exact ih (di + 1) _ (by omega)

/-! ### Case lemmas -/

/-- R204 and R205: at the end of the block the command returns `di`, and an offset is fetched otherwise. -/
theorem endOfLiterals_cases (s : State) :
    (s.wk.si = s.wk.n ∧ endOfLiterals s = .ret s.wk.di s) ∨
      (s.wk.si ≠ s.wk.n ∧ endOfLiterals s = .go (s.await .offset)) := by
  unfold endOfLiterals
  by_cases h : s.wk.si = s.wk.n
  · exact .inl ⟨h, if_pos h⟩
  · exact .inr ⟨h, if_neg h⟩

/-- R203: a run that fits neither the block nor the buffer raises; an empty run is over; any other is copied. -/
theorem literalRun_cases (s : State) :
    ((s.wk.n < s.wk.si + s.wk.litLen ∨ s.wk.cap < s.wk.di + s.wk.litLen) ∧ literalRun s = .raise s) ∨
      (s.wk.si + s.wk.litLen ≤ s.wk.n ∧ s.wk.di + s.wk.litLen ≤ s.wk.cap ∧
        ((s.wk.litLen = 0 ∧ literalRun s = endOfLiterals s) ∨
          (s.wk.litLen ≠ 0 ∧ literalRun s = .go (s.await .literal)))) := by
  unfold literalRun
  by_cases h1 : s.wk.n < s.wk.si + s.wk.litLen
  · exact .inl ⟨.inl h1, if_pos h1⟩
  · rw [if_neg h1]
    by_cases h2 : s.wk.cap < s.wk.di + s.wk.litLen
    · exact .inl ⟨.inr h2, if_pos h2⟩
    · rw [if_neg h2]
      refine .inr ⟨by omega, by omega, ?_⟩
      by_cases h3 : s.wk.litLen = 0
      · exact .inl ⟨h3, if_pos h3⟩
      · exact .inr ⟨h3, if_neg h3⟩

/-- The state after a match of `len` bytes. -/
def State.matched (len : Nat) (s : State) : State :=
  { s with
    dst := copyBytes len s.wk.off s.wk.di s.dst
    wk := { s.wk with matchLen := len, di := s.wk.di + len }
    engine := .busy .token }

/-- R206 and R207: a match that does not fit raises, and any other is copied. -/
theorem matchCopy_cases (s : State) :
    (s.wk.cap < s.wk.di + (s.wk.matchLen + 4) ∧ matchCopy s = .raise s) ∨
      (s.wk.di + (s.wk.matchLen + 4) ≤ s.wk.cap ∧ matchCopy s = .go (s.matched (s.wk.matchLen + 4))) := by
  unfold matchCopy
  by_cases h : s.wk.cap < s.wk.di + (s.wk.matchLen + 4)
  · exact .inl ⟨h, if_pos h⟩
  · exact .inr ⟨by omega, if_neg h⟩

/-- R203 and R204 after a literal: the run goes on, or is over. -/
theorem literalNext_cases (s : State) :
    (s.wk.litLen = 0 ∧ literalNext s = endOfLiterals s) ∨ (s.wk.litLen ≠ 0 ∧ literalNext s = .go (s.await .literal)) := by
  unfold literalNext
  by_cases h : s.wk.litLen = 0
  · exact .inl ⟨h, if_pos h⟩
  · exact .inr ⟨h, if_neg h⟩

/-- The state with an accepted offset and the token's nibble as the match length. -/
def State.offsetTaken (off : Nat) (s : State) : State :=
  { s with wk := { s.wk with off := off, matchLen := s.wk.mn.toNat } }

/-- R205 and R206: an offset of 0 or beyond the output raises; a nibble of 15 awaits the extension, and any other match
is copied. -/
theorem offsetRun_cases (off : Nat) (s : State) :
    ((off = 0 ∨ s.wk.di < off) ∧ offsetRun off s = .raise s) ∨
      (1 ≤ off ∧ off ≤ s.wk.di ∧
        ((s.wk.mn = 15#4 ∧ offsetRun off s = .go ((s.offsetTaken off).await .matchExt)) ∨
          (s.wk.mn ≠ 15#4 ∧ offsetRun off s = matchCopy (s.offsetTaken off)))) := by
  unfold offsetRun
  by_cases h : off = 0 ∨ s.wk.di < off
  · exact .inl ⟨h, if_pos h⟩
  · rw [if_neg h]
    refine .inr ⟨by omega, by omega, ?_⟩
    unfold matchNibble
    by_cases h2 : s.wk.mn = 15#4
    · exact .inl ⟨h2, if_pos h2⟩
    · exact .inr ⟨h2, if_neg h2⟩

/-! ### The frame -/

/-- What an element may change before its command ends: DST, the cursors and the other working registers, and what is
fetched next. -/
structure ElemFrame (s t : State) : Prop where
  host : HostSide s t
  tables : SameTables s t
  outcome : SameOutcome s t
  draws : t.draws = s.draws
  n : t.wk.n = s.wk.n
  cap : t.wk.cap = s.wk.cap

theorem elemFrame_refl (s : State) : ElemFrame s s := ⟨hostSide_refl s, ⟨rfl, rfl, rfl⟩, ⟨rfl, rfl, rfl⟩, rfl, rfl, rfl⟩

/-- An update of DST, the engine and working registers other than `n` and `cap` is inside the frame. -/
theorem elemFrame_update (s : State) (b : Buf) (e : Engine) (w : Working) (hn : w.n = s.wk.n) (hc : w.cap = s.wk.cap) :
    ElemFrame s { s with dst := b, engine := e, wk := w } :=
  ⟨⟨rfl, rfl, rfl, rfl, rfl, rfl, rfl, rfl⟩, ⟨rfl, rfl, rfl⟩, ⟨rfl, rfl, rfl⟩, rfl, hn, hc⟩

theorem ElemFrame.trans {s t u : State} (h : ElemFrame s t) (k : ElemFrame t u) : ElemFrame s u where
  host := h.host.trans k.host
  tables := ⟨k.tables.htF.trans h.tables.htF, k.tables.htH.trans h.tables.htH, k.tables.ct.trans h.tables.ct⟩
  outcome := ⟨k.outcome.status.trans h.outcome.status, k.outcome.result.trans h.outcome.result,
    k.outcome.faultLog.trans h.outcome.faultLog⟩
  draws := k.draws.trans h.draws
  n := k.n.trans h.n
  cap := k.cap.trans h.cap

theorem elemFrame_endOfLiterals (s : State) : (endOfLiterals s).All (ElemFrame s) := by
  rcases endOfLiterals_cases s with ⟨_, h⟩ | ⟨_, h⟩ <;> rw [h]
  · exact elemFrame_refl s
  · exact elemFrame_update s s.dst _ s.wk rfl rfl

theorem elemFrame_literalRun (s : State) : (literalRun s).All (ElemFrame s) := by
  rcases literalRun_cases s with ⟨_, h⟩ | ⟨_, _, ⟨_, h⟩ | ⟨_, h⟩⟩ <;> rw [h]
  · exact elemFrame_refl s
  · exact elemFrame_endOfLiterals s
  · exact elemFrame_update s s.dst _ s.wk rfl rfl

theorem elemFrame_tokenRun (ln mn : BitVec 4) (s : State) : (tokenRun ln mn s).All (ElemFrame s) := by
  unfold tokenRun
  split
  · exact elemFrame_update s s.dst _ _ rfl rfl
  · have h0 : ElemFrame s (takeToken ln mn s) := elemFrame_update s s.dst s.engine _ rfl rfl
    exact (elemFrame_literalRun _).mono fun _ h => h0.trans h

theorem elemFrame_literalNext (s : State) : (literalNext s).All (ElemFrame s) := by
  rcases literalNext_cases s with ⟨_, h⟩ | ⟨_, h⟩ <;> rw [h]
  · exact elemFrame_endOfLiterals s
  · exact elemFrame_update s s.dst _ s.wk rfl rfl

theorem elemFrame_matchCopy (s : State) : (matchCopy s).All (ElemFrame s) := by
  rcases matchCopy_cases s with ⟨_, h⟩ | ⟨_, h⟩ <;> rw [h]
  · exact elemFrame_refl s
  · exact elemFrame_update s _ _ _ rfl rfl

theorem elemFrame_offsetRun (off : Nat) (s : State) : (offsetRun off s).All (ElemFrame s) := by
  rcases offsetRun_cases off s with ⟨_, h⟩ | ⟨_, _, ⟨_, h⟩ | ⟨_, h⟩⟩ <;> rw [h]
  · exact elemFrame_refl s
  · exact elemFrame_update s s.dst _ _ rfl rfl
  · have h0 : ElemFrame s (s.offsetTaken off) := elemFrame_update s s.dst s.engine _ rfl rfl
    exact (elemFrame_matchCopy _).mono fun _ h => h0.trans h

end Sys2Proof.Machine
end

