-- ==== Sys2Proof/Laws/Packer.lean ====
section
/-! SUPPORT. What the packer does: a list of bytes fits and is written at `di`, or the first byte that does not fit raises
(40_token_codec.md R110, R116). -/

namespace Sys2Proof.Machine

/-- The state after a list of bytes that fits was put. -/
def State.emitted (vs : List Byte) (s : State) : State :=
  { s with dst := s.dst.writeAll s.wk.di vs, wk := { s.wk with di := s.wk.di + vs.length } }

theorem put_fits {s : State} (v : Byte) (h : s.wk.di < s.wk.cap) : put v s = .go (s.emitted [v]) := by
  simp only [put, if_neg (show ¬ s.wk.cap ≤ s.wk.di by omega)]
  rfl

theorem put_full {s : State} (v : Byte) (h : s.wk.cap ≤ s.wk.di) : put v s = .raise s := by
  simp only [put, if_pos h]

/-- Bytes that fit are written in order. -/
theorem putAll_fits (vs : List Byte) (s : State) (h : s.wk.di + vs.length ≤ s.wk.cap) :
    putAll vs s = .go (s.emitted vs) := by
  induction vs generalizing s with
  | nil => rfl
  | cons v r ih =>
    simp only [List.length_cons] at h
    have hr := ih (s.emitted [v]) (by simp only [State.emitted, List.length_singleton]; omega)
    rw [putAll, put_fits v (by omega), Run.andThen_go, hr]
    simp only [State.emitted, Buf.writeAll, List.length_cons, List.length_nil]
    have : s.wk.di + (0 + 1) + r.length = s.wk.di + (r.length + 1) := by omega
    simp only [this, Nat.zero_add]

/-- Bytes that do not all fit raise at the first byte that would land at `cap`, with every byte before it written. -/
theorem putAll_overflow (vs : List Byte) (s : State) (hd : s.wk.di ≤ s.wk.cap) (h : s.wk.cap < s.wk.di + vs.length) :
    putAll vs s = .raise (s.emitted (vs.take (s.wk.cap - s.wk.di))) := by
  induction vs generalizing s with
  | nil => simp only [List.length_nil] at h; omega
  | cons v r ih =>
    simp only [List.length_cons] at h
    by_cases hlt : s.wk.di < s.wk.cap
    · have hr := ih (s.emitted [v]) (by simp only [State.emitted, List.length_singleton]; omega)
        (by simp only [State.emitted, List.length_singleton]; omega)
      rw [putAll, put_fits v hlt, Run.andThen_go, hr]
      have hk : s.wk.cap - s.wk.di = (s.wk.cap - (s.wk.di + 1)) + 1 := by omega
      simp only [State.emitted, Buf.writeAll, List.length_cons, List.length_nil, hk, List.take_succ_cons, Nat.zero_add]
      have : s.wk.di + 1 + (List.take (s.wk.cap - (s.wk.di + 1)) r).length =
        s.wk.di + ((List.take (s.wk.cap - (s.wk.di + 1)) r).length + 1) := by omega
      rw [this]
    · rw [putAll, put_full v (by omega), Run.andThen_raise, show s.wk.cap - s.wk.di = 0 by omega]
      rfl

/-- A byte of DST after emission. -/
theorem dstByte_emitted (vs : List Byte) (s : State) (i : Nat) :
    (s.emitted vs).dstByte i = if h : s.wk.di ≤ i ∧ i - s.wk.di < vs.length then vs[i - s.wk.di] else s.dstByte i :=
  Buf.read_writeAll .dst s.dst s.wk.di vs i

/-- The output so far, with the emitted bytes at its end. -/
theorem output_emitted (vs : List Byte) (s : State) :
    bytesFrom (s.emitted vs).dstByte 0 (s.wk.di + vs.length) = bytesFrom s.dstByte 0 s.wk.di ++ vs := by
  rw [bytesFrom_append]
  congr 1
  · apply bytesFrom_congr
    intro i _ hi
    rw [dstByte_emitted, dif_neg (by omega)]
  · apply List.ext_getElem (by simp)
    intro i h1 h2
    rw [bytesFrom_getElem, dstByte_emitted, dif_pos (by simp at h1; omega)]
    congr 1
    omega

/-- What an encoder may change while its command runs (R141 to R149, R170 to R180 of the two encoders): DST below `cap`,
the tables, and the working registers other than the latched operands. -/
structure EncFrame (s t : State) : Prop where
  host : HostSide s t
  outcome : SameOutcome s t
  engine : t.engine = s.engine
  draws : t.draws = s.draws
  n : t.wk.n = s.wk.n
  cap : t.wk.cap = s.wk.cap
  dst : SameDstFrom s.wk.cap s t

theorem encFrame_refl (s : State) : EncFrame s s :=
  ⟨hostSide_refl s, ⟨rfl, rfl, rfl⟩, rfl, rfl, rfl, rfl, fun _ _ => rfl⟩

theorem EncFrame.trans {s t u : State} (h : EncFrame s t) (k : EncFrame t u) : EncFrame s u where
  host := h.host.trans k.host
  outcome := ⟨k.outcome.status.trans h.outcome.status, k.outcome.result.trans h.outcome.result,
    k.outcome.faultLog.trans h.outcome.faultLog⟩
  engine := k.engine.trans h.engine
  draws := k.draws.trans h.draws
  n := k.n.trans h.n
  cap := k.cap.trans h.cap
  dst := fun a ha => (k.dst a (h.cap ▸ ha)).trans (h.dst a ha)

/-- Everything of `putAll` that later frames cite: nothing but DST below `cap` and `di` changes, and `di` stays within
`cap`. -/
structure PutFrame (s t : State) : Prop where
  enc : EncFrame s t
  tables : SameTables s t
  wk : ∃ d, t.wk = { s.wk with di := d }
  wf : ∀ size, s.wk.cap ≤ size → s.dst.wf size = true → t.dst.wf size = true

theorem putFrame_put (v : Byte) (s : State) : (put v s).All (PutFrame s) := by
  by_cases h : s.wk.cap ≤ s.wk.di
  · rw [put_full v h]
    exact ⟨encFrame_refl s, ⟨rfl, rfl, rfl⟩, ⟨s.wk.di, rfl⟩, fun _ _ h => h⟩
  · rw [put_fits v (by omega)]
    refine ⟨⟨⟨rfl, rfl, rfl, rfl, rfl, rfl, rfl, rfl⟩, ⟨rfl, rfl, rfl⟩, rfl, rfl, rfl, rfl, ?_⟩, ⟨rfl, rfl, rfl⟩,
      ⟨_, rfl⟩, ?_⟩
    · intro a ha
      rw [dstByte_emitted, dif_neg (by simp only [List.length_singleton]; omega)]
    · intro size hs hw
      exact Buf.wf_write s.dst v hw (by omega)

theorem PutFrame.trans {s t u : State} (h : PutFrame s t) (k : PutFrame t u) : PutFrame s u where
  enc := h.enc.trans k.enc
  tables := ⟨k.tables.htF.trans h.tables.htF, k.tables.htH.trans h.tables.htH, k.tables.ct.trans h.tables.ct⟩
  wk := by
    obtain ⟨d, hd⟩ := h.wk
    obtain ⟨d', hd'⟩ := k.wk
    exact ⟨d', by rw [hd', hd]⟩
  wf := fun size hs hw => k.wf size (h.enc.cap ▸ hs) (h.wf size hs hw)

theorem putFrame_refl (s : State) : PutFrame s s :=
  ⟨encFrame_refl s, ⟨rfl, rfl, rfl⟩, ⟨s.wk.di, rfl⟩, fun _ _ h => h⟩

theorem putFrame_putAll (vs : List Byte) (s : State) : (putAll vs s).All (PutFrame s) := by
  induction vs generalizing s with
  | nil => exact putFrame_refl s
  | cons v r ih =>
    exact (putFrame_put v s).andThen (fun _ h => h) fun t ht => (ih t).mono fun _ hu => ht.trans hu

/-- A sequence that was emitted changed DST and `di` only. -/
theorem putFrame_emitSeq {s t : State} (h : emitSeq s = .go t) : PutFrame s t := by
  have hp := putFrame_putAll (seqBytes (s.literals s.wk.litLen) s.wk.off s.wk.matchLen) s
  unfold emitSeq at h
  rw [h] at hp
  exact hp

/-- `putAll` never returns: it goes on or raises. -/
theorem putAll_cases (vs : List Byte) (s : State) : (∃ t, putAll vs s = .go t) ∨ ∃ t, putAll vs s = .raise t := by
  induction vs generalizing s with
  | nil => exact .inl ⟨s, rfl⟩
  | cons v r ih =>
    by_cases h : s.wk.cap ≤ s.wk.di
    · exact .inr ⟨s, by rw [putAll, put_full v h, Run.andThen_raise]⟩
    · rw [putAll, put_fits v (by omega), Run.andThen_go]
      exact ih _

end Sys2Proof.Machine
end

