-- ==== Sys2Proof/Laws/Encoder.lean ====
section
/-! SUPPORT. What the two encoders leave alone, piece by piece: one frame lemma for each piece of their pseudocode. -/

namespace Sys2Proof.Machine

/-- An encoder's frame, with the canonical forms it keeps. -/
structure ScanFrame (s t : State) : Prop where
  enc : EncFrame s t
  dstWf : ∀ size, s.wk.cap ≤ size → s.dst.wf size = true → t.dst.wf size = true
  htFWf : s.htF.wf s.cfg.posW = true → t.htF.wf s.cfg.posW = true
  htHWf : s.htH.wf s.cfg.posW = true → t.htH.wf s.cfg.posW = true
  ctWf : s.ct.wf s.cfg.posW = true → t.ct.wf s.cfg.posW = true

theorem scanFrame_refl (s : State) : ScanFrame s s :=
  ⟨encFrame_refl s, fun _ _ h => h, fun h => h, fun h => h, fun h => h⟩

theorem ScanFrame.trans {s t u : State} (h : ScanFrame s t) (k : ScanFrame t u) : ScanFrame s u where
  enc := h.enc.trans k.enc
  dstWf := fun size hs hw => k.dstWf size (h.enc.cap ▸ hs) (h.dstWf size hs hw)
  htFWf := fun hw => h.enc.host.cfg ▸ k.htFWf (h.enc.host.cfg ▸ h.htFWf hw)
  htHWf := fun hw => h.enc.host.cfg ▸ k.htHWf (h.enc.host.cfg ▸ h.htHWf hw)
  ctWf := fun hw => h.enc.host.cfg ▸ k.ctWf (h.enc.host.cfg ▸ h.ctWf hw)

theorem PutFrame.scan {s t : State} (h : PutFrame s t) : ScanFrame s t :=
  ⟨h.enc, h.wf, fun hw => by rw [h.tables.htF]; exact hw, fun hw => by rw [h.tables.htH]; exact hw,
    fun hw => by rw [h.tables.ct]; exact hw⟩

/-- An update of working registers other than `n` and `cap` is inside every encoder frame. -/
theorem scanFrame_wk (s : State) (w : Working) (hn : w.n = s.wk.n) (hc : w.cap = s.wk.cap) :
    ScanFrame s { s with wk := w } :=
  ⟨⟨⟨rfl, rfl, rfl, rfl, rfl, rfl, rfl, rfl⟩, ⟨rfl, rfl, rfl⟩, rfl, rfl, hn, hc, fun _ _ => rfl⟩, fun _ _ h => h,
    fun h => h, fun h => h, fun h => h⟩

theorem fp_lt (s : State) (p : Nat) : (s.fp p).toNat < Config.winSize := (s.fp p).isLt

theorem scanFrame_fastLookup (s : State) : ScanFrame s (fastLookup s) :=
  ⟨⟨⟨rfl, rfl, rfl, rfl, rfl, rfl, rfl, rfl⟩, ⟨rfl, rfl, rfl⟩, rfl, rfl, rfl, rfl, fun _ _ => rfl⟩, fun _ _ h => h,
    fun h => Table.wf_write s.htF _ h (fp_lt s _), fun h => h, fun h => h⟩

theorem scanFrame_hcInsert (q : Nat) (s : State) : ScanFrame s (hcInsert q s) :=
  ⟨⟨⟨rfl, rfl, rfl, rfl, rfl, rfl, rfl, rfl⟩, ⟨rfl, rfl, rfl⟩, rfl, rfl, rfl, rfl, fun _ _ => rfl⟩, fun _ _ h => h,
    fun h => h, fun h => Table.wf_write s.htH _ h (fp_lt s _),
    fun h => Table.wf_write s.ct _ h (Nat.mod_lt _ (by norm_num))⟩

theorem scanFrame_zeroHc (s : State) : ScanFrame s s.zeroHc :=
  ⟨⟨⟨rfl, rfl, rfl, rfl, rfl, rfl, rfl, rfl⟩, ⟨rfl, rfl, rfl⟩, rfl, rfl, rfl, rfl, fun _ _ => rfl⟩, fun _ _ h => h,
    fun h => h, fun _ => rfl, fun _ => rfl⟩

theorem scanFrame_emitSeq (s : State) : (emitSeq s).All (ScanFrame s) :=
  (putFrame_putAll _ s).mono fun _ h => h.scan

theorem scanFrame_advanceMatch (s : State) : (advanceMatch s).All (ScanFrame s) := scanFrame_wk s _ rfl rfl

theorem scanFrame_fastTake (s : State) : (fastTake s).All (ScanFrame s) := by
  unfold fastTake
  split
  · have h0 : ScanFrame s (fastMeasure s) := scanFrame_wk s _ rfl rfl
    refine ((scanFrame_emitSeq _).mono fun _ h => h0.trans h).andThen (fun _ h => h) fun t ht => ?_
    exact (scanFrame_advanceMatch t).mono fun _ h => ht.trans h
  · exact scanFrame_wk s _ rfl rfl

theorem scanFrame_fastScan (k : Nat) (s : State) : (fastScan k s).All (ScanFrame s) := by
  induction k generalizing s with
  | zero => exact scanFrame_refl s
  | succ k ih =>
    unfold fastScan
    split
    · have h0 := scanFrame_fastLookup s
      refine ((scanFrame_fastTake _).mono fun _ h => h0.trans h).andThen (fun _ h => h) fun t ht => ?_
      exact (ih t).mono fun _ h => ht.trans h
    · exact scanFrame_refl s

theorem scanFrame_finishLiterals (s : State) : (finishLiterals s).All (ScanFrame s) := by
  unfold finishLiterals
  split
  · exact scanFrame_refl s
  · exact ((putFrame_putAll _ s).mono fun _ h => h.scan).andThen (fun _ h => h) fun t ht => ht

theorem scanFrame_finish (s : State) : (finish s).All (ScanFrame s) := by
  unfold finish
  split
  · exact scanFrame_refl s
  · have h0 := scanFrame_wk s { s.wk with litLen := s.wk.n - s.wk.anchor } rfl rfl
    refine ((putFrame_putAll _ _).mono fun _ h => h0.trans h.scan).andThen (fun _ h => h) fun t ht => ?_
    exact (scanFrame_finishLiterals t).mono fun _ h => ht.trans h

theorem scanFrame_startScan (s : State) : ScanFrame s s.startScan := scanFrame_wk s _ rfl rfl

theorem scanFrame_fastRun (s : State) : (fastRun s).All (ScanFrame s) := by
  unfold fastRun
  split
  · exact scanFrame_refl s
  · refine ((scanFrame_fastScan _ _).mono fun _ h => (scanFrame_startScan s).trans h).andThen (fun _ h => h)
      fun t ht => ?_
    exact (scanFrame_finish t).mono fun _ h => ht.trans h

theorem scanFrame_hcCandidate (s : State) : ScanFrame s (hcCandidate s) := by
  unfold hcCandidate
  split
  · unfold hcMeasure
    split <;> exact scanFrame_wk s _ rfl rfl
  · exact scanFrame_refl s

theorem scanFrame_hcFollow (k l : Nat) (s : State) : ScanFrame s (hcFollow k l s) := scanFrame_wk s _ rfl rfl

theorem scanFrame_hcLookup (s : State) : ScanFrame s (hcLookup s) := scanFrame_wk s _ rfl rfl

theorem scanFrame_hcMeasured (s : State) : ScanFrame s (hcMeasured s) := scanFrame_wk s _ rfl rfl

theorem scanFrame_hcWalk (k : Nat) (s : State) : ScanFrame s (hcWalk k s) := by
  induction k generalizing s with
  | zero => exact scanFrame_refl s
  | succ k ih =>
    unfold hcWalk
    split
    · exact ((scanFrame_hcCandidate s).trans (scanFrame_hcFollow _ _ _)).trans (ih _)
    · exact scanFrame_refl s

theorem scanFrame_hcInsertFrom (k q : Nat) (s : State) : ScanFrame s (hcInsertFrom k q s) := by
  induction k generalizing q s with
  | zero => exact scanFrame_refl s
  | succ k ih => exact (scanFrame_hcInsert q s).trans (ih _ _)

/-- Inserting a range of positions is inserting each in turn, from the lowest up (42_hc_encoder.md R177). -/
theorem hcInsertFrom_eq_foldl (k q : Nat) (s : State) :
    hcInsertFrom k q s = (List.range' q k).foldl (fun u p => hcInsert p u) s := by
  induction k generalizing q s with
  | zero => rfl
  | succ k ih => rw [hcInsertFrom, ih, List.range'_succ, List.foldl_cons]

/-- R177's first interior position, with its numbers. -/
theorem hcInsertStart_eq (s : State) :
    hcInsertStart s = max (s.wk.si + 1) (s.wk.si + s.wk.bestLen - 65536) := by
  unfold hcInsertStart
  simp only [Config.winSize]

theorem positions_interior (s : State) :
    positions (hcInsertStart s) (s.wk.si + s.wk.bestLen) =
      positions (max (s.wk.si + 1) (s.wk.si + s.wk.bestLen - 65536)) (s.wk.si + s.wk.bestLen) := by
  rw [hcInsertStart_eq]

/-- The match-interior positions are inserted one by one, the end excluded (R177). Cite it and rewrite no further inside:
the kernel unfolds the subtraction of 65536 when it must compare two such ranges by itself. -/
theorem hcInsertMatch_eq_foldl (s : State) {inside : List Nat}
    (h : positions (hcInsertStart s) (s.wk.si + s.wk.bestLen) = inside) :
    hcInsertMatch s = inside.foldl (fun u p => hcInsert p u) s := by
  subst h
  unfold hcInsertMatch positions
  rw [hcInsertFrom_eq_foldl]

theorem hcInsertFrom_wk (k q : Nat) (s : State) : (hcInsertFrom k q s).wk = s.wk := by
  induction k generalizing q s with
  | zero => rfl
  | succ k ih => rw [hcInsertFrom, ih, hcInsert_wk]

theorem hcInsertMatch_wk (s : State) : (hcInsertMatch s).wk = s.wk := by
  unfold hcInsertMatch
  rw [hcInsertFrom_wk]

/-- R177 and R178: with a match, its interior is inserted, the sequence is emitted, and the scan goes on at the match end. -/
theorem hcTake_match {s : State} (h : s.wk.bestLen ≠ 0) :
    hcTake s = (emitSeq (hcMeasured (hcInsertMatch s))).andThen advanceMatch := by
  unfold hcTake
  exact if_neg h

/-- A sequence emitted, and the advance past it (R146, R178). -/
theorem emit_advance {s t : State} (h : (emitSeq s).andThen advanceMatch = .go t) :
    ∃ u, PutFrame s u ∧
      t = { u with wk := { u.wk with si := s.wk.si + s.wk.matchLen, anchor := s.wk.si + s.wk.matchLen } } := by
  cases he : emitSeq s with
  | go u =>
    have hp := putFrame_emitSeq he
    rw [he, Run.andThen_go] at h
    obtain ⟨d, hd⟩ := hp.wk
    refine ⟨u, hp, ?_⟩
    simp only [advanceMatch, Run.go.injEq] at h
    rw [← h, hd]
  | ret r u => rw [he] at h; cases h
  | incompressible u => rw [he] at h; cases h
  | raise u => rw [he] at h; cases h

/-- What the emission of an HC match leaves, for any state `v` with the working registers of `s`: the match end in `si` and
`anchor`, the tables of `v`. With `hcInsertMatch s` for `v`, give it as an argument and do not generalize it in a goal. -/
theorem hcMeasured_emit {s v t : State} (hw : v.wk = s.wk)
    (h : (emitSeq (hcMeasured v)).andThen advanceMatch = .go t) :
    t.wk.si = s.wk.si + s.wk.bestLen ∧ t.wk.anchor = s.wk.si + s.wk.bestLen ∧ t.wk.effDepth = s.wk.effDepth ∧
      SameTables v t := by
  obtain ⟨u, p, rfl⟩ := emit_advance h
  obtain ⟨d, hd⟩ := p.wk
  have e : (hcMeasured v).wk.si + (hcMeasured v).wk.matchLen = s.wk.si + s.wk.bestLen := by rw [hcMeasured_wk, hw]
  refine ⟨e, e, ?_, p.tables.htF, p.tables.htH, p.tables.ct⟩
  show u.wk.effDepth = s.wk.effDepth
  rw [hd, hcMeasured_wk, hw]

theorem scanFrame_hcInsertMatch (s : State) : ScanFrame s (hcInsertMatch s) := by
  unfold hcInsertMatch
  exact scanFrame_hcInsertFrom _ _ s

theorem scanFrame_hcSearch (s : State) : ScanFrame s (hcSearch s) :=
  ((scanFrame_hcLookup s).trans (scanFrame_hcWalk _ _)).trans (scanFrame_hcInsert _ _)

theorem scanFrame_hcTake (s : State) : (hcTake s).All (ScanFrame s) := by
  unfold hcTake
  split
  · exact scanFrame_wk s _ rfl rfl
  · have h0 : ScanFrame s (hcMeasured (hcInsertMatch s)) :=
      (scanFrame_hcInsertMatch s).trans (scanFrame_hcMeasured (hcInsertMatch s))
    generalize hcMeasured (hcInsertMatch s) = u at h0
    refine ((scanFrame_emitSeq u).mono fun _ h => h0.trans h).andThen (fun _ h => h) fun t ht => ?_
    exact (scanFrame_advanceMatch t).mono fun _ h => ht.trans h

theorem scanFrame_hcScan (k : Nat) (s : State) : (hcScan k s).All (ScanFrame s) := by
  induction k generalizing s with
  | zero => exact scanFrame_refl s
  | succ k ih =>
    unfold hcScan
    split
    · have h0 := scanFrame_hcSearch s
      refine ((scanFrame_hcTake _).mono fun _ h => h0.trans h).andThen (fun _ h => h) fun t ht => ?_
      exact (ih t).mono fun _ h => ht.trans h
    · exact scanFrame_refl s

theorem scanFrame_hcStart (s : State) : ScanFrame s (hcStart s) :=
  (scanFrame_startScan s).trans (scanFrame_wk _ _ rfl rfl)

theorem scanFrame_hcRun (s : State) : (hcRun s).All (ScanFrame s) := by
  unfold hcRun
  split
  · exact scanFrame_zeroHc s
  · refine ((scanFrame_hcScan _ _).mono fun _ h =>
      ((scanFrame_zeroHc s).trans (scanFrame_hcStart _)).trans h).andThen (fun _ h => h) fun t ht => ?_
    exact (scanFrame_finish t).mono fun _ h => ht.trans h

/-! ### Which tables each encoder leaves alone -/

/-- HT_H and CT are unchanged. -/
def SameHc (s t : State) : Prop := t.htH = s.htH ∧ t.ct = s.ct

/-- HT_F is unchanged. -/
def SameFast (s t : State) : Prop := t.htF = s.htF

theorem SameHc.trans {s t u : State} (h : SameHc s t) (k : SameHc t u) : SameHc s u :=
  ⟨k.1.trans h.1, k.2.trans h.2⟩

theorem sameHc_putAll (vs : List Byte) (s : State) : (putAll vs s).All (SameHc s) :=
  (putFrame_putAll vs s).mono fun _ h => ⟨h.tables.htH, h.tables.ct⟩

theorem sameFast_putAll (vs : List Byte) (s : State) : (putAll vs s).All (SameFast s) :=
  (putFrame_putAll vs s).mono fun _ h => h.tables.htF

theorem sameHc_finish (s : State) : (finish s).All (SameHc s) := by
  unfold finish
  split
  · exact ⟨rfl, rfl⟩
  · refine ((sameHc_putAll _ _)).andThen (fun _ h => h) fun t ht => ?_
    unfold finishLiterals
    split
    · exact ht
    · exact ((sameHc_putAll _ t).mono fun _ h => ht.trans h).andThen (fun _ h => h) fun u hu => hu

theorem sameFast_finish (s : State) : (finish s).All (SameFast s) := by
  unfold finish
  split
  · rfl
  · refine ((sameFast_putAll _ _)).andThen (fun _ h => h) fun t ht => ?_
    unfold finishLiterals
    split
    · exact ht
    · exact ((sameFast_putAll _ t).mono fun _ h => h.trans ht).andThen (fun _ h => h) fun u hu => hu

theorem sameHc_fastScan (k : Nat) (s : State) : (fastScan k s).All (SameHc s) := by
  induction k generalizing s with
  | zero => exact ⟨rfl, rfl⟩
  | succ k ih =>
    unfold fastScan
    split
    · refine Run.All.andThen (P := SameHc s) ?_ (fun _ h => h) fun t ht => (ih t).mono fun _ h => ht.trans h
      unfold fastTake
      split
      · exact ((sameHc_putAll _ _)).andThen (fun _ h => h) fun t ht => ht
      · exact ⟨rfl, rfl⟩
    · exact ⟨rfl, rfl⟩

/-- COMPRESS_FAST neither reads nor writes the HC tables (10_state.md R37). -/
theorem sameHc_fastRun (s : State) : (fastRun s).All (SameHc s) := by
  unfold fastRun
  split
  · exact ⟨rfl, rfl⟩
  · refine (sameHc_fastScan _ _).andThen (fun _ h => h) fun t ht => ?_
    exact (sameHc_finish t).mono fun _ h => SameHc.trans ht h

theorem hcCandidate_htF (s : State) : (hcCandidate s).htF = s.htF := by
  unfold hcCandidate
  split
  · unfold hcMeasure; split <;> rfl
  · rfl

theorem hcWalk_htF (k : Nat) (s : State) : (hcWalk k s).htF = s.htF := by
  induction k generalizing s with
  | zero => rfl
  | succ k ih =>
    unfold hcWalk
    split
    · exact (ih _).trans (hcCandidate_htF s)
    · rfl

theorem hcInsertFrom_htF (k q : Nat) (s : State) : (hcInsertFrom k q s).htF = s.htF := by
  induction k generalizing q s with
  | zero => rfl
  | succ k ih => exact (ih _ _).trans rfl

theorem hcSearch_htF (s : State) : (hcSearch s).htF = s.htF := hcWalk_htF _ (hcLookup s)

theorem hcInsertMatch_htF (s : State) : (hcInsertMatch s).htF = s.htF := by
  unfold hcInsertMatch
  exact hcInsertFrom_htF _ _ s

theorem sameFast_hcScan (k : Nat) (s : State) : (hcScan k s).All (SameFast s) := by
  induction k generalizing s with
  | zero => rfl
  | succ k ih =>
    unfold hcScan
    split
    · refine Run.All.andThen (P := SameFast s) ?_ (fun _ h => h) fun t ht => (ih t).mono fun _ h => h.trans ht
      unfold hcTake
      split
      · exact hcSearch_htF s
      · have h0 : SameFast s (hcMeasured (hcInsertMatch (hcSearch s))) := by
          unfold SameFast
          rw [hcMeasured_htF, hcInsertMatch_htF, hcSearch_htF]
        generalize hcMeasured (hcInsertMatch (hcSearch s)) = u at h0
        refine Run.All.andThen (P := SameFast s) ?_ (fun _ h => h) fun t ht => ht
        exact (sameFast_putAll _ u).mono fun _ h => Eq.trans h h0
    · rfl

/-- COMPRESS_HC never reads or writes HT_F (42_hc_encoder.md R170). -/
theorem sameFast_hcRun (s : State) : (hcRun s).All (SameFast s) := by
  unfold hcRun
  split
  · rfl
  · refine (sameFast_hcScan _ _).andThen (fun _ h => h) fun t ht => ?_
    exact (sameFast_finish t).mono fun _ h => h.trans ht

end Sys2Proof.Machine
end

