-- ==== Sys2Proof/Laws/PerInstr.lean ====
section
/-! SUPPORT. Facts about every instruction as syntax, one lemma per constructor. -/

namespace Sys2Proof.Laws

namespace RoundTrip

/-- The decoder reads a well-formed instruction's encoding back, and leaves the rest of the bytes. -/
def Statement (i : Instr) : Prop :=
  i.wf = true → ∀ rest : List Byte, decode i.ctx (encode i ++ rest) = .ok i rest

theorem compressFast : Statement .compressFast := by
  intro _ rest
  simp only [Instr.ctx, encode, decode_command, decodeCommand_commandWord]
  rfl

theorem compressHc : Statement .compressHc := by
  intro _ rest
  simp only [Instr.ctx, encode, decode_command, decodeCommand_commandWord]
  rfl

theorem decompress : Statement .decompress := by
  intro _ rest
  simp only [Instr.ctx, encode, decode_command, decodeCommand_commandWord]
  rfl

theorem bound : Statement .bound := by
  intro _ rest
  simp only [Instr.ctx, encode, decode_command, decodeCommand_commandWord]
  rfl

theorem illegalCommand (op : BitVec 4) (r : BitVec 28) : Statement (.illegalCommand op r) := by
  intro h rest
  simp only [Instr.ctx, encode, decode_command, decodeCommand_commandWord]
  simp only [Instr.wf, legalCommand, Bool.not_eq_true', Bool.and_eq_false_iff, beq_eq_false_iff_ne,
    Bool.or_eq_false_iff] at h
  by_cases hr : r = 0#28
  · obtain ⟨⟨⟨h1, h2⟩, h3⟩, h4⟩ := h.resolve_left (by simp [hr])
    rw [if_neg (not_not.mpr hr), if_neg h1, if_neg h2, if_neg h3, if_neg h4]
  · rw [if_pos hr]

theorem token (ln mn : BitVec 4) : Statement (.token ln mn) := by
  intro _ rest
  simp only [Instr.ctx, encode, List.cons_append, List.nil_append, decode, decodeToken, token_hi, token_lo]

theorem litlenExtCont : Statement .litlenExtCont := by
  intro _ rest
  simp [Instr.ctx, encode, decode, decodeLitExt]

theorem litlenExtEnd (t : Byte) : Statement (.litlenExtEnd t) := by
  intro h rest
  simp only [Instr.wf, bne_iff_ne] at h
  simp [Instr.ctx, encode, decode, decodeLitExt, h]

theorem literal (b : Byte) : Statement (.literal b) := by
  intro _ rest
  simp [Instr.ctx, encode, decode, decodeLiteral]

theorem offset16 (off : BitVec 16) : Statement (.offset16 off) := by
  intro h rest
  simp only [Instr.wf, bne_iff_ne] at h
  simp only [Instr.ctx, encode, List.cons_append, List.nil_append, decode, decodeOffset, offset_bytes]
  rw [if_neg h]

theorem matchlenExtCont : Statement .matchlenExtCont := by
  intro _ rest
  simp [Instr.ctx, encode, decode, decodeMatchExt]

theorem matchlenExtEnd (t : Byte) : Statement (.matchlenExtEnd t) := by
  intro h rest
  simp only [Instr.wf, bne_iff_ne] at h
  simp [Instr.ctx, encode, decode, decodeMatchExt, h]

end RoundTrip

end Sys2Proof.Laws
end

