-- ==== Sys2Proof/Laws/Step.lean ====
section
/-! SUPPORT. What a step can be, how runs unroll, what a fetch inside a block has read, and that every command other than
DECOMPRESS ends in its own step. -/

namespace Sys2Proof.Machine

/-! ### Steps and runs -/

@[simp] theorem core_step (s : State) : core.step s = step s := rfl

theorem core_run_zero (s : State) : core.run 0 s = .next s := rfl

/-- A run of one more step, when that step answers a next state. -/
theorem core_run_succ {s t : State} (h : step s = .next t) (k : Nat) : core.run (k + 1) s = core.run k t := by
  have hc : core.step s = Host.Outcome.next t := h
  simp only [Host.Core.run, hc]

theorem step_of_inbox_nil {s : State} (h : s.inbox = []) : step s = engineTurn s := by simp only [step, h]

theorem step_of_inbox_cons {s : State} {e : HostEvent} {rest : List HostEvent} (h : s.inbox = e :: rest) :
    step s = hostTurn e { s with inbox := rest } := by simp only [step, h]

/-- The engine's turn: idle, it stays; busy, it runs the decoded instruction, or raises when the bytes are none. -/
theorem engineTurn_cases (s : State) :
    (s.engine = .idle ∧ engineTurn s = .next s) ∨
      ∃ c, s.engine = .busy c ∧
        ((∃ i rest, decode c (s.fetchBytes c) = .ok i rest ∧ engineTurn s = exec i s) ∨
          ∃ why, decode c (s.fetchBytes c) = .rejected why ∧ engineTurn s = .next s.raiseShort) := by
  unfold engineTurn
  split
  · exact .inl ⟨by assumption, rfl⟩
  · rename_i c he
    refine .inr ⟨c, he, ?_⟩
    split
    · rename_i i rest hd
      exact .inl ⟨i, rest, hd, rfl⟩
    · rename_i why hd
      exact .inr ⟨why, hd, rfl⟩

/-- Every instruction answers a next state. -/
theorem exec_answers (i : Instr) (s : State) : ∃ t, exec i s = .next t := by
  cases i <;> exact ⟨_, rfl⟩

/-! ### Fetches inside a block -/

/-- The number of bytes an element of a context has (30_encoding.md R83 to R86). -/
def elementBytes : Ctx → Nat
  | .offset => 2
  | .command => 1
  | .token => 1
  | .litExt => 1
  | .literal => 1
  | .matchExt => 1

theorem fetchBytes_block {c : Ctx} (s : State) (hc : c ≠ .command) :
    s.fetchBytes c = bytesFrom s.srcByte s.wk.si (min 2 (s.wk.n - s.wk.si)) := by
  cases c <;> first | exact absurd rfl hc | rfl

/-- An element that was fetched lies below `n` (43_decoder.md R201). -/
theorem element_below_n {s : State} {c : Ctx} {i : Instr} {rest : List Byte} (hc : c ≠ .command)
    (h : decode c (s.fetchBytes c) = .ok i rest) : s.wk.si + elementBytes c ≤ s.wk.n := by
  have hl := bytesFrom_length s.srcByte s.wk.si (min 2 (s.wk.n - s.wk.si))
  rw [fetchBytes_block s hc] at h
  generalize bytesFrom s.srcByte s.wk.si (min 2 (s.wk.n - s.wk.si)) = bs at h hl
  cases c <;> simp only [decode] at h
  · exact absurd rfl hc
  all_goals
    rcases bs with _ | ⟨x, _ | ⟨y, r⟩⟩ <;>
      simp [decodeToken, decodeLitExt, decodeLiteral, decodeMatchExt, decodeOffset, elementBytes] at h hl ⊢ <;> omega

/-! ### The encoders end -/

theorem finish_ends (s t : State) : finish s ≠ .go t := by
  unfold finish
  split
  · simp
  · unfold emitLastHeader
    rcases putAll_cases (lastHeader (s.wk.n - s.wk.anchor))
      { s with wk := { s.wk with litLen := s.wk.n - s.wk.anchor } } with ⟨u, h⟩ | ⟨u, h⟩ <;> rw [h]
    · rw [Run.andThen_go]
      unfold finishLiterals
      split
      · simp
      · unfold emitLastLiterals
        rcases putAll_cases (u.literals u.wk.litLen) u with ⟨v, h2⟩ | ⟨v, h2⟩ <;> rw [h2] <;> simp
    · simp

theorem andThen_finish_ends (m : Run) (t : State) : m.andThen finish ≠ .go t := by
  cases m <;> simp [finish_ends]

theorem fastRun_ends (s t : State) : fastRun s ≠ .go t := by
  unfold fastRun
  split
  · simp
  · exact andThen_finish_ends _ t

theorem hcRun_ends (s t : State) : hcRun s ≠ .go t := by
  unfold hcRun
  split
  · simp
  · exact andThen_finish_ends _ t

end Sys2Proof.Machine
end

