-- ==== Sys2Proof/Tests/Slice0.lean ====
section
/-! SUPPORT. The model's own tests: ill-formed terms the check refuses, words written out from the spec's encodings, the
vectors of 95_test_vectors.md, and for each statement with hypotheses a witness that meets them. -/

namespace Sys2Proof.Tests

-- One proof at a time: each proof elaborated beside others takes a thread's stack from the memory limit.
set_option Elab.async false

open Sys2Proof.Machine

/-! ### Small states -/

/-- A buffer that holds the given bytes from address 0 on. -/
def known (bs : List Byte) : Buf := ⟨bs.zipIdx.map fun c => (c.2, c.1), []⟩

/-- The ASCII bytes of a text. -/
def ascii (t : String) : List Byte := t.toList.map fun c => BitVec.ofNat 8 c.toNat

/-- A command just started on the given source bytes, with HT_F all zero (70_reset_and_hazards.md R273). -/
def started (src : List Byte) (cap : Nat) (depth : Int) : State :=
  { State.reset with
    status := statusWord true false 0
    engine := .busy .command
    src := known src
    htF := .zeroed
    wk := { workingReset with n := src.length, cap := cap, depth := depth } }

/-- A run of 64 bytes `61`, with capacity `cap`. -/
abbrev runOfA (cap : Nat) : State := started (List.replicate 64 0x61) cap 0

/-- A DECOMPRESS in progress: its block, the output so far, `cap` and `si`. -/
def inBlock (c : Ctx) (src dst : List Byte) (cap si : Nat) : State :=
  { State.reset with
    cmd := 3
    status := statusWord true false 0
    engine := .busy c
    src := known src
    dst := known dst
    wk := { workingReset with n := src.length, cap := cap, si := si, di := dst.length } }

/-- The state with given literal and match lengths. -/
def withLens (s : State) (lit mat : Nat) : State := { s with wk := { s.wk with litLen := lit, matchLen := mat } }

/-- The state with a given match nibble and offset. -/
def withMatch (s : State) (mn : BitVec 4) (off : Nat) : State := { s with wk := { s.wk with mn := mn, off := off } }

/-- The state an outcome goes on in. -/
def after (o : Host.Outcome State Fault Refusal) : State :=
  match o with
  | .next t => t
  | .fault _ => State.reset
  | .refused _ => State.reset

/-- `DST[0..k)`. -/
def output (k : Nat) (s : State) : List Byte := bytesFrom s.dstByte 0 k

/-! ### Well-formedness: an ill-formed term for each check -/

theorem test_wf_refuses_legal_words : ((Instr.illegalCommand 1 0).wf || (Instr.illegalCommand 2 0).wf ||
    (Instr.illegalCommand 3 0).wf || (Instr.illegalCommand 4 0).wf) = false := by decide
theorem test_wf_admits_illegal_words : ((Instr.illegalCommand 0 0).wf && (Instr.illegalCommand 5 0).wf &&
    (Instr.illegalCommand 4 1).wf) = true := by decide
theorem test_wf_refuses_litlen_terminator : (Instr.litlenExtEnd 0xFF).wf = false := by decide
theorem test_wf_refuses_offset_zero : (Instr.offset16 0).wf = false := by decide
theorem test_wf_refuses_matchlen_terminator : (Instr.matchlenExtEnd 0xFF).wf = false := by decide

/-! ### Decoding: each constructor by a word written out from 30_encoding.md -/

/-- R80: OP = 1 in bits 3:0, bits 31:4 zero, least significant byte first. -/
theorem test_decode_compressFast : decode .command [0b00000001, 0, 0, 0] = .ok .compressFast [] := by decide
theorem test_decode_compressHc : decode .command [0b00000010, 0, 0, 0] = .ok .compressHc [] := by decide
theorem test_decode_decompress : decode .command [0b00000011, 0, 0, 0] = .ok .decompress [] := by decide
theorem test_decode_bound : decode .command [0b00000100, 0, 0, 0] = .ok .bound [] := by decide
/-- R81: OP = 5; and OP = 4 with the highest reserved bit set. -/
theorem test_decode_illegalCommand : decode .command [0b00000101, 0, 0, 0] = .ok (.illegalCommand 5 0) [] ∧
    decode .command [0b00000100, 0, 0, 0b10000000] = .ok (.illegalCommand 4 0x8000000) [] := by decide
/-- R83: LN = 1 in bits 7:4, MN = 15 in bits 3:0. -/
theorem test_decode_token : decode .token [0b00011111, 0x61] = .ok (.token 1 15) [0x61] := by decide
theorem test_decode_litlenExtCont : decode .litExt [0b11111111, 0] = .ok .litlenExtCont [0] := by decide
theorem test_decode_litlenExtEnd : decode .litExt [0b11111110] = .ok (.litlenExtEnd 0xFE) [] := by decide
theorem test_decode_literal : decode .literal [0b01100001, 0x02] = .ok (.literal 0x61) [0x02] := by decide
/-- R86: low byte first. -/
theorem test_decode_offset16 : decode .offset [0x02, 0x01, 0x10] = .ok (.offset16 258) [0x10] := by decide
theorem test_decode_matchlenExtCont : decode .matchExt [0b11111111] = .ok .matchlenExtCont [] := by decide
theorem test_decode_matchlenExtEnd : decode .matchExt [0b00000000] = .ok (.matchlenExtEnd 0) [] := by decide
theorem test_decode_rejects : decode .offset [0, 0] = .rejected .zeroOffset ∧
    decode .offset [1] = .rejected .truncated ∧ decode .command [1, 0, 0] = .rejected .truncated := by decide

theorem test_tableWord_commands : decodeTableWord 32 1 = some .compressFast ∧ decodeTableWord 32 2 = some .compressHc ∧
    decodeTableWord 32 3 = some .decompress ∧ decodeTableWord 32 4 = some .bound ∧
    decodeTableWord 32 0x14 = some (.illegalCommand 4 1) := by decide
theorem test_tableWord_elements : decodeTableWord 8 0x23 = some (.token 2 3) ∧
    decodeTableWord 8 0xFF = some .litlenExtCont ∧ decodeTableWord 16 0x0102 = some (.offset16 258) ∧
    decodeTableWord 16 0 = none := by decide

/-- The block notation of R90: program P2 of 95_test_vectors.md. -/
theorem test_assemble_P2 : assemble [.seq (ascii "abc") 3 9, .seq [] 12 4, .seq (ascii "XY") 2 6, .last (ascii "end!")] =
    [0x35, 0x61, 0x62, 0x63, 0x03, 0x00, 0x00, 0x0C, 0x00, 0x22, 0x58, 0x59, 0x02, 0x00, 0x40, 0x65, 0x6E, 0x64,
      0x21] := by decide +kernel

/-! ### Primitives -/

/-- V-K2 to V-K5. -/
theorem test_hash : fpHash 1#32 = 0x9E37 ∧ fpHash 0x61616161#32 = 0x2532 ∧ fpHash 0x64636261#32 = 0x630D ∧
    fpHash 0xFFFFFFFF#32 = 0x61C8 := by decide
/-- V-P3 and V-P6, without their literals. -/
theorem test_seqBytes : seqBytes [] 4 273 = [0x0F, 0x04, 0x00, 0xFE] ∧ lenExt 15 = [0x00] ∧
    lenExt 269 = [0xFE] ∧ lenExt 270 = [0xFF, 0x00] := by decide +kernel

/-! ### Commands -/

/-- V-F1. -/
theorem test_fast_run_of_a :
    (fun t : State => (t.result, output 18 t)) (after (exec .compressFast (started (List.replicate 64 0x61) 18 0))) =
      (18#32, [0x1F, 0x61, 0x01, 0x00, 0x20, 0xC0] ++ List.replicate 12 0x61) := by decide +kernel
/-- V-F9 with V-F12's table rule: the block, and the cell of `"abcd"`. -/
theorem test_fast_position_zero :
    (fun t : State => (t.result, output 24 t, t.htfCell 0x630D))
        (after (exec .compressFast (started (ascii "abcdefghabcdefgh0123456789AB") 64 0))) =
      (24#32, [0x84, 0x61, 0x62, 0x63, 0x64, 0x65, 0x66, 0x67, 0x68, 0x08, 0x00, 0xC0, 0x30, 0x31, 0x32, 0x33, 0x34,
        0x35, 0x36, 0x37, 0x38, 0x39, 0x41, 0x42], 8) := by decide +kernel
/-- V-H3: depth 1. -/
theorem test_hc_depth_one :
    (fun t : State => (t.result, output 34 t))
        (after (exec .compressHc (started (ascii "XabcdefghQabcdZRabcdefgh0123456789AB") 64 1))) =
      (34#32, [0xA0, 0x58, 0x61, 0x62, 0x63, 0x64, 0x65, 0x66, 0x67, 0x68, 0x51, 0x09, 0x00, 0x20, 0x5A, 0x52, 0x06, 0x00,
        0x00, 0x0F, 0x00, 0xC0, 0x30, 0x31, 0x32, 0x33, 0x34, 0x35, 0x36, 0x37, 0x38, 0x39, 0x41, 0x42]) := by
  decide +kernel
/-- V-H4: depth 2. -/
theorem test_hc_depth_two :
    (fun t : State => (t.result, output 31 t))
        (after (exec .compressHc (started (ascii "XabcdefghQabcdZRabcdefgh0123456789AB") 64 2))) =
      (31#32, [0xA0, 0x58, 0x61, 0x62, 0x63, 0x64, 0x65, 0x66, 0x67, 0x68, 0x51, 0x09, 0x00, 0x24, 0x5A, 0x52, 0x0F, 0x00,
        0xC0, 0x30, 0x31, 0x32, 0x33, 0x34, 0x35, 0x36, 0x37, 0x38, 0x39, 0x41, 0x42]) := by decide +kernel
/-- V-D3: an empty block with `cap = 0`. -/
theorem test_decompress_empty :
    (fun t : State => (t.status, t.result)) (after (exec .decompress (started [] 0 0))) = (0x02#32, 0#32) := by decide
/-- V-B5. -/
theorem test_bound_255 : (after (exec .bound { started [] 0 0 with wk := { workingReset with n := 255 } })).result = 272 := by
  decide
/-- V-C6: SRC_LEN = MAX_SRC_LEN + 1. -/
theorem test_bound_too_long : (fun t : State => (t.status, t.result))
    (after (exec .bound { started [] 0 0 with wk := { workingReset with n := 4278190065 } })) = (0x22#32, 0#32) := by
  decide
/-- V-C3. -/
theorem test_illegal_command : (fun t : State => (t.status, t.result))
    (after (exec (.illegalCommand 5 0) (started [] 0 0))) = (0x22#32, 0#32) := by decide

/-! ### Elements: the blocks of V-D1, V-D18 and V-D20 -/

/-- The block of V-D1. -/
def blockD1 : List Byte := [0x23, 0x61, 0x62, 0x02, 0x00, 0x10, 0x5A]

theorem test_token : (fun t : State => (t.engine, t.wk.si, t.wk.litLen, t.wk.mn))
    (after (step (inBlock .token blockD1 [] 10 0))) = (.busy .literal, 1, 2, 3#4) := by decide +kernel
/-- V-D11: a literal run past the block. -/
theorem test_token_past_the_block : (after (step (inBlock .token [0x20, 0x61] [] 10 0))).status = 0x12 := by
  decide +kernel
theorem test_literal_last : (fun t : State => (t.engine, t.wk.di, output 2 t))
    (after (step (withLens (inBlock .literal blockD1 [0x61] 10 2) 1 0))) =
      (.busy .offset, 2, [0x61, 0x62]) := by decide +kernel
theorem test_literal_ends_block : (fun t : State => (t.status, t.result, output 10 t))
    (after (step (withLens (inBlock .literal blockD1 (ascii "ababababa") 10 6) 1 0))) =
      (0x02#32, 10#32, ascii "ababababaZ") := by decide +kernel
theorem test_offset_overlap : (fun t : State => (t.engine, t.wk.si, t.wk.di, output 9 t))
    (after (step (withMatch (inBlock .offset blockD1 [0x61, 0x62] 10 3) 3 0))) =
      (.busy .token, 5, 9, ascii "ababababa") := by decide +kernel
/-- V-D8: an offset beyond the output. -/
theorem test_offset_too_far : (after (step (inBlock .offset [0x10, 0x61, 0x02, 0x00, 0x00] [0x61] 10 2))).status = 0x12 := by
  decide +kernel
/-- V-D20: `L = 15 + 255 + 0`. -/
theorem test_litlen_cont : (fun t : State => (t.engine, t.wk.litLen))
    (after (step (withLens (inBlock .litExt [0xF0, 0xFF, 0x00] [] 270 1) 15 0))) = (.busy .litExt, 270) := by
  decide +kernel
theorem test_litlen_end : (fun t : State => (t.engine, t.wk.si, t.wk.litLen))
    (after (exec (.litlenExtEnd 2) (withLens (inBlock .litExt (0xF0 :: 2 :: List.replicate 17 7) [] 17 1) 15 0))) =
      (.busy .literal, 2, 17) := by decide +kernel
theorem test_matchlen_cont : (fun t : State => (t.engine, t.wk.matchLen))
    (after (step (withLens (inBlock .matchExt [0x1F, 0x61, 1, 0, 0xFF, 0] [0x61] 400 4) 0 15))) =
      (.busy .matchExt, 270) := by decide +kernel
/-- V-D18: `M = 15 + 254 + 4`. -/
theorem test_matchlen_end : (fun t : State => (t.engine, t.wk.di, t.dstByte 273))
    (after (step (withLens (withMatch (inBlock .matchExt [0x1F, 0x61, 1, 0, 0xFE, 0] [0x61] 274 4) 15 1) 0 15))) =
      (.busy .token, 274, 0x61#8) := by decide +kernel

/-! ### Host interface -/

/-- V-C5 as its two steps from `withFetchWord`: BOUND with SRC_LEN = 100. -/
theorem test_fetch_word_bound : (fun t : State => (t.status, t.result))
    (after (step ({ State.reset with srcLen := 100 }.withFetchWord 32 4))) = (0x02#32, 116#32) := by decide +kernel
/-- 10_state.md R31: both cursors are 0 at the start of a command. -/
theorem test_command_start_cursors : (fun t : State => (t.engine, t.wk.si, t.wk.di))
    (after (step { State.reset with
      wk := { workingReset with si := 9, di := 9 }, inbox := [.write 0 .word 4] })) = (.busy .command, 0, 0) := by decide
theorem test_fetch_word_token : (fun t : State => (t.status, t.engine, t.wk.mn))
    (after (step (State.reset.withFetchWord 8 0xF3))) = (0x01#32, .busy .litExt, 3#4) := by decide +kernel
/-- V-C1 and V-C11: a read of STATUS after reset. -/
theorem test_read_status : (after (step { State.reset with inbox := [.read 16 .word], readData := 7 })).readData = 0 := by
  decide
/-- A block that holds the given STATUS, RESULT 7 and DST `[1, 2, 3]`, and that owes the host `u`. -/
def owing (status : Word) (u : Unseen) : State :=
  { State.reset with status := status, result := 7, dst := known [1, 2, 3], unseen := u }

/-- 20_memory.md R72b: after V-F1 the 18 bytes written, and no others, are not promised; one read of STATUS promises them. -/
theorem test_observation : (fun t : State => (t.unseen.hides 0, t.unseen.hides 17, t.unseen.hides 18,
    (after (hostTurn (.read 16 .word) t)).unseen)) (after (exec .compressFast (runOfA 18))) =
      (true, true, false, Unseen.nothing) := by decide +kernel
/-- 20_memory.md R68: the host reads back what it wrote over a byte it has not been promised. -/
theorem test_host_overwrites_hidden : (after (hostTurn (.read 0x200000001 .byte)
    (after (hostTurn (.write 0x200000001 .byte 9) (owing 2 ⟨true, 3, [], []⟩))))).readData = 9 := by decide +kernel
/-- V-C12: a write to RESULT is ignored. -/
theorem test_write_result : (after (step { State.reset with inbox := [.write 20 .word 9] })).result = 0 := by decide
/-- 20_memory.md R60: a 32-bit write to SRC is little-endian. -/
theorem test_write_source_word :
    (after (step { State.reset with inbox := [.write 0x100000000 .word 0x64636261] })).srcWord 0 = 0x64636261 ∧
    (after (step { State.reset with inbox := [.write 0x100000000 .word 0x64636261] })).srcByte 0 = 0x61 := by decide

/-! ### Witnesses: concrete states and operands that meet the hypotheses of each statement

One theorem for each statement with hypotheses; a statement with several clauses has a witness for each of them, where they
meet. -/

theorem witness_DecodeOfEncode : (Instr.offset16 1).wf = true ∧ (Instr.litlenExtEnd 0xFE).wf = true ∧
    (Instr.illegalCommand 15 0xFFFFFFF).wf = true := by decide
theorem witness_EncodeOfDecode : decode .offset [0xFF, 0xFF, 7] = .ok (.offset16 0xFFFF) [7] := by decide
theorem witness_RejectedExactly_truncated : decode .command [4, 0, 0] = .rejected .truncated ∧
    decode .token [] = .rejected .truncated ∧ decode .offset [0] = .rejected .truncated := by decide
theorem witness_RejectedExactly_zeroOffset : decode .offset [0, 0, 1] = .rejected .zeroOffset := by decide
theorem witness_ExtensionsAreUnique_value : (0xFE : Byte) ≠ 0xFF ∧ readLen 15 [0xFF, 0xFE, 9] = some (524, [9]) := by decide
theorem witness_ExtensionsAreUnique_form : readLen 15 [0xFF, 0x00, 9] = some (270, [9]) := by decide
theorem witness_SequenceSizes : 4 ≤ 4 ∧ (Line.seq (List.replicate 15 0) 1 4).bytes.length = 19 := by decide +kernel

/-- Two sequences that R88 and R89 allow, and the output they give. -/
theorem witness_BlocksDecodeToTheirSequences :
    legalFrom [] [⟨[0x61], 1, 4⟩, ⟨[], 5, 4⟩] ∧
      (List.foldl Sequence.expand [] [⟨[0x61], 1, 4⟩, ⟨[], 5, 4⟩]).length + [0x62#8].length ≤ 10 := by
  simp only [legalFrom, Sequence.legal]
  decide

theorem witness_PutWritesOneByteOrRaises_full :
    (inBlock .token [] [0x61] 1 0).wk.cap ≤ (inBlock .token [] [0x61] 1 0).wk.di := by decide
theorem witness_PutWritesOneByteOrRaises_room :
    (inBlock .token [] [0x61] 2 0).wk.di < (inBlock .token [] [0x61] 2 0).wk.cap := by decide
/-- `EmitSeq(0, off, M)` with `M - 4 = 0`: three bytes, in a buffer of three and of two. -/
theorem witness_EmitSeqAppendsTheSequence_fits :
    (withLens (started [] 3 0) 0 4).wk.di + (seqBytes [] 1 4).length ≤ (withLens (started [] 3 0) 0 4).wk.cap := by decide
theorem witness_EmitSeqAppendsTheSequence_overflows :
    (withLens (started [] 2 0) 0 4).wk.cap < (withLens (started [] 2 0) 0 4).wk.di + (seqBytes [] 1 4).length := by decide

/-- An encoder at its final run, for `Finish`. -/
def finishing (n cap di anchor : Nat) : State :=
  { started [] 0 0 with wk := { workingReset with n := n, cap := cap, di := di, anchor := anchor } }

theorem witness_FinishInOrder_none : (finishing 13 9 0 0).wk.anchor = 0 ∧
    (finishing 13 9 0 0).wk.di ≤ (finishing 13 9 0 0).wk.cap := by decide
theorem witness_FinishInOrder_header_full : (finishing 20 10 10 11).wk.anchor ≠ 0 ∧
    (finishing 20 10 10 11).wk.di ≤ (finishing 20 10 10 11).wk.cap ∧
    (finishing 20 10 10 11).wk.cap < (finishing 20 10 10 11).wk.di + (lastHeader 9).length := by decide
theorem witness_FinishInOrder_test : (finishing 20 11 10 11).wk.di + (lastHeader 9).length ≤ (finishing 20 11 10 11).wk.cap ∧
    (finishing 20 11 10 11).wk.anchor ≤ (finishing 20 11 10 11).wk.di + (lastHeader 9).length := by decide
theorem witness_FinishInOrder_literals_full :
    (finishing 20 18 9 11).wk.di + (lastHeader 9).length ≤ (finishing 20 18 9 11).wk.cap ∧
    (finishing 20 18 9 11).wk.di + (lastHeader 9).length < (finishing 20 18 9 11).wk.anchor ∧
    (finishing 20 18 9 11).wk.cap < (finishing 20 18 9 11).wk.di + (lastHeader 9).length + 9 := by decide
theorem witness_FinishInOrder_returns : (finishing 20 19 9 11).wk.di + (lastHeader 9).length < (finishing 20 19 9 11).wk.anchor ∧
    (finishing 20 19 9 11).wk.di + (lastHeader 9).length + 9 ≤ (finishing 20 19 9 11).wk.cap := by decide

theorem witness_FastMatchEndsAtTheFirstDifference :
    (withMatch (started [] 0 0) 0 4).wk.off ≤ (withMatch (started [] 0 0) 0 4).wk.si + 4 := by decide
theorem witness_HcWalkTakesTheLongest : (started [] 0 0).wk.bestLen = 0 ∧ (started [] 0 0).wk.bestOff = 0 := by decide
/-- A match found at `si = 3`: it is emitted, and `best_len = 0` is met by `started`. -/
theorem witness_HcInsertionLinksTheChain_match :
    (fun s : State => 4 ≤ s.wk.bestLen ∧ ∃ t, hcTake s = .go t ∧ t.wk.si = 7)
      { started (List.replicate 20 0x61) 20 0 with wk := { workingReset with
        n := 20, cap := 20, sn := 8, si := 3, bestLen := 4, bestOff := 1 } } := by
  refine ⟨by decide, _, rfl, ?_⟩
  decide +kernel
/-- The head of the hash of `aaaa` after the search at 3 holds 3. -/
theorem witness_HcInsertionLinksTheChain_search :
    (hcSearch { (runOfA 19).zeroHc with wk := { workingReset with n := 64, sn := 52, si := 3, effDepth := 1 } }).hthCell 0x2532 = 3 := by
  decide +kernel
theorem witness_HcInsertionLinksTheChain_none : (started [] 0 0).wk.bestLen = 0 := by decide
theorem witness_HcInsertionLinksTheChain : (started [] 0 0).zeroHc.htH.wf (started [] 0 0).cfg.posW = true := by decide

/-! Commands. -/

theorem witness_BoundReturnsTheFormula : (runOfA 0).cfg.valid = true ∧ (runOfA 0).wk.n ≤ (runOfA 0).cfg.maxSrcLen := by
  decide
theorem witness_BoundReturnsTheFormula_too_long : (finishing 4278190065 0 0 0).cfg.valid = true ∧
    (finishing 4278190065 0 0 0).cfg.maxSrcLen < (finishing 4278190065 0 0 0).wk.n := by decide
theorem witness_IllegalCommandCompletes : decodeCommand 0x14 = .illegalCommand 4 1 ∧ decodeCommand 5 = .illegalCommand 5 0 ∧
    decodeCommand 0 = .illegalCommand 0 0 ∧ decodeCommand 4 = .bound := by decide
theorem witness_EffectiveDepthOfTheRegister : (0 : Int) ≤ 0 ∧ (0 : Int) < 1 ∧
    effectiveDepth (-5) = effectiveDepth (started [] 0 0).wk.depth := by decide
theorem witness_EffectiveDepthOfTheRegister_scan : ∃ t, hcTake (hcSearch (hcStart (runOfA 19).zeroHc)) = .go t ∧ t.wk.si = 1 := by
  refine ⟨_, rfl, ?_⟩
  decide +kernel
/-- One more than each limit of 00_scope.md R7. -/
theorem witness_OversizeRequestsAreIllegal_source : (finishing 4278190065 0 0 0).cfg.maxSrcLen < (finishing 4278190065 0 0 0).wk.n := by
  decide
theorem witness_OversizeRequestsAreIllegal_capacity : (finishing 0 4294967296 0 0).cfg.maxDstCap < (finishing 0 4294967296 0 0).wk.cap := by
  decide
theorem witness_ShortInputsReturnZero_short : (started (List.replicate 12 0x61) 9 0).wk.n ≤ 12 ∧
    (started (List.replicate 12 0x61) 9 0).wk.cap ≤ (started (List.replicate 12 0x61) 9 0).cfg.maxDstCap := by decide
theorem witness_ShortInputsReturnZero_no_room : (runOfA 0).wk.cap = 0 ∧ (runOfA 0).wk.n ≤ (runOfA 0).cfg.maxSrcLen := by
  decide
theorem witness_CompressFastCompletes : (runOfA 18).wk.n ≤ (runOfA 18).cfg.maxSrcLen ∧
    (runOfA 18).wk.cap ≤ (runOfA 18).cfg.maxDstCap ∧ (after (exec .compressFast (runOfA 18))).status = 0x02 := by
  decide +kernel
theorem witness_CompressFastCompletes_error : (after (exec .compressFast (runOfA 17))).status = 0x12 := by decide +kernel
/-- What the scan loop of COMPRESS_FAST leaves with the capacity of BOUND(n). -/
def fastScanned (s : State) : State :=
  match fastScan (s.wk.n - 12) (s.withCap (s.wk.n + s.wk.n / 255 + 16)).startScan with
  | .go u => u
  | .ret _ u => u
  | .incompressible u => u
  | .raise u => u

/-- What the scan loop of COMPRESS_HC leaves with the capacity of BOUND(n). -/
def hcScanned (s : State) : State :=
  match hcScan (s.wk.n - 12) (hcStart (s.withCap (s.wk.n + s.wk.n / 255 + 16)).zeroHc) with
  | .go u => u
  | .ret _ u => u
  | .incompressible u => u
  | .raise u => u

/-- `anchor`, the length of what the loop emitted, and that of the final header. -/
def sizes (s u : State) : Nat × Nat × Nat := (u.wk.anchor, u.wk.di, (lastHeader (s.wk.n - u.wk.anchor)).length)

/-- Every case of R116, at the capacities of V-F1: 5 bytes before the final header, 6 with it, 18 in all; V-F4, whose header
reaches `anchor`; thirteen bytes with no match. -/
theorem witness_CompressFastCompletes_outcome : 12 < (runOfA 5).wk.n ∧ sizes (runOfA 5) (fastScanned (runOfA 5)) = (52, 5, 1) ∧
    sizes (started (List.replicate 16 0x61) 16 0) (fastScanned (started (List.replicate 16 0x61) 16 0)) = (5, 4, 1) ∧
    sizes (started (List.replicate 13 0x61) 9 0) (fastScanned (started (List.replicate 13 0x61) 9 0)) = (0, 0, 1) := by
  decide +kernel
/-- The same of COMPRESS_HC: V-H1; `"a"` × 18, whose match of 4 bytes at 2 ends at 6, which the header reaches; V-H8. -/
theorem witness_CompressHcCompletes_outcome : 12 < (runOfA 6).wk.n ∧ sizes (runOfA 6) (hcScanned (runOfA 6)) = (52, 6, 1) ∧
    sizes (started (List.replicate 18 0x61) 18 0) (hcScanned (started (List.replicate 18 0x61) 18 0)) = (6, 5, 1) ∧
    sizes (started (List.replicate 14 0x61) 9 0) (hcScanned (started (List.replicate 14 0x61) 9 0)) = (0, 0, 1) := by
  decide +kernel
theorem witness_CompressHcCompletes : (runOfA 19).wk.n ≤ (runOfA 19).cfg.maxSrcLen ∧
    (runOfA 19).wk.cap ≤ (runOfA 19).cfg.maxDstCap ∧ (after (exec .compressHc (runOfA 19))).status = 0x02 := by
  decide +kernel
/-- One below `sn`, and at `sn`, for the iterations of both scan loops. -/
theorem witness_scan_iterations : (fun s : State => s.wk.si < s.wk.sn)
      { runOfA 19 with wk := { workingReset with n := 64, sn := 52, si := 51 } } ∧
    (fun s : State => s.wk.sn ≤ s.wk.si) { runOfA 19 with wk := { workingReset with n := 64, sn := 52, si := 52 } } := by
  decide
theorem witness_CompressHcCompletes_error : (after (exec .compressHc (runOfA 18))).status = 0x12 := by decide +kernel
theorem witness_NonzeroResultsAreSmaller :
    (∃ t, exec .compressFast (runOfA 18) = .next t ∧ t.result ≠ 0) ∧
      ∃ t, exec .compressHc (runOfA 19) = .next t ∧ t.result ≠ 0 := by
  refine ⟨⟨_, rfl, ?_⟩, ⟨_, rfl, ?_⟩⟩ <;> decide +kernel
theorem witness_CompressFastRoundTrips : (runOfA 18).cfg.valid = true ∧ (runOfA 18).wk.n ≤ 64 ∧
    ∃ t, exec .compressFast (runOfA 18) = .next t ∧ t.result ≠ 0 := by
  refine ⟨by decide, by decide, _, rfl, ?_⟩
  decide +kernel
theorem witness_CompressHcRoundTrips : (runOfA 19).cfg.valid = true ∧ (runOfA 19).wk.n ≤ 64 ∧
    ∃ t, exec .compressHc (runOfA 19) = .next t ∧ t.result ≠ 0 := by
  refine ⟨by decide, by decide, _, rfl, ?_⟩
  decide +kernel
/-- `BOUND(64) = 80`. -/
theorem witness_BoundCapacitySuffices : (runOfA 80).wk.n + (runOfA 80).wk.n / 255 + 16 ≤ (runOfA 80).wk.cap ∧
    (runOfA 80).wk.n ≤ (runOfA 80).cfg.maxSrcLen ∧ (runOfA 80).wk.cap ≤ (runOfA 80).cfg.maxDstCap := by decide
theorem witness_FastTableHoldsScanPositions : (runOfA 18).cfg.valid = true ∧ ∃ t, exec .compressFast (runOfA 18) = .next t ∧
    t.htfCell 0x2532 = 1 := by
  refine ⟨by decide, _, rfl, ?_⟩
  decide +kernel
theorem witness_FastTableHoldsScanPositions_visited : 12 < (runOfA 18).wk.n ∧ 0 < (runOfA 18).wk.cap ∧
    fastVisited 52 (runOfA 18).startScan = [0, 1] := by decide +kernel
theorem witness_FastTableHoldsScanPositions_none : (runOfA 0).wk.cap = 0 ∧ (runOfA 0).cfg.valid = true := by decide
theorem witness_CompressHcIgnoresFastTable : ∃ t, exec .compressHc (runOfA 19) = .next t ∧ t.result = 19 := by
  refine ⟨_, rfl, ?_⟩
  decide +kernel
/-- Another SRC that agrees below `n` and holds a byte at `n`. -/
theorem witness_EncodersReadOnlyTheirInput :
    (∀ k, k < (runOfA 18).wk.n → (known (List.replicate 65 0x61)).read .src k = (runOfA 18).srcByte k) ∧
      known (List.replicate 65 0x61) ≠ (runOfA 18).src ∧ ∃ t, exec .compressFast (runOfA 18) = .next t := by
  refine ⟨?_, by decide +kernel, _, rfl⟩
  decide +kernel

/-! The copy engine. -/

theorem witness_DecompressStartsTheBlock_empty : (started [] 0 0).wk.n = 0 ∧
    (started [] 0 0).wk.n ≤ (started [] 0 0).cfg.maxSrcLen ∧ (started [] 0 0).wk.cap ≤ (started [] 0 0).cfg.maxDstCap := by
  decide
theorem witness_DecompressStartsTheBlock_first : (started blockD1 10 0).wk.n ≠ 0 ∧
    (started blockD1 10 0).wk.n ≤ (started blockD1 10 0).cfg.maxSrcLen ∧
    (started blockD1 10 0).wk.cap ≤ (started blockD1 10 0).cfg.maxDstCap := by decide
/-- V-D1 and V-D2: a block that decodes, and the same block with one byte of capacity less. -/
theorem witness_DecompressRunsTheBlock : (∀ cap ∈ [9, 10], { started blockD1 cap 0 with cmd := 3 }.engine = .busy .command ∧
    { started blockD1 cap 0 with cmd := 3 }.inbox = [] ∧ cap ≤ (started blockD1 cap 0).cfg.maxDstCap) ∧
    decodeBlock 10 blockD1 = some (ascii "ababababaZ") ∧ decodeBlock 9 blockD1 = none := by decide +kernel
theorem witness_TokenOpensTheRun_extension : (15 : BitVec 4) = 15 := rfl
/-- The run ends exactly at `n` and at `cap`, and one byte beyond each. -/
theorem witness_TokenOpensTheRun_literals : (2 : BitVec 4) ≠ 15 ∧ (2 : BitVec 4) ≠ 0 ∧
    (inBlock .token [0x20, 1, 2] [] 2 0).wk.si + 1 + (2 : BitVec 4).toNat ≤ (inBlock .token [0x20, 1, 2] [] 2 0).wk.n ∧
    (inBlock .token [0x20, 1, 2] [] 2 0).wk.di + (2 : BitVec 4).toNat ≤ (inBlock .token [0x20, 1, 2] [] 2 0).wk.cap := by
  decide
theorem witness_TokenOpensTheRun_offset : (inBlock .token [0x00, 1, 0] [] 0 0).wk.si + 1 < (inBlock .token [0x00, 1, 0] [] 0 0).wk.n ∧
    (inBlock .token [0x00, 1, 0] [] 0 0).wk.di ≤ (inBlock .token [0x00, 1, 0] [] 0 0).wk.cap := by decide
theorem witness_TokenOpensTheRun_end : (inBlock .token [0x00] [] 0 0).wk.si + 1 = (inBlock .token [0x00] [] 0 0).wk.n ∧
    (inBlock .token [0x00] [] 0 0).wk.di ≤ (inBlock .token [0x00] [] 0 0).wk.cap := by decide
theorem witness_TokenOpensTheRun_raise : (inBlock .token [0x20, 1] [] 2 0).wk.n <
      (inBlock .token [0x20, 1] [] 2 0).wk.si + 1 + (2 : BitVec 4).toNat ∧
    (inBlock .token [0x20, 1, 2] [] 1 0).wk.cap < (inBlock .token [0x20, 1, 2] [] 1 0).wk.di + (2 : BitVec 4).toNat := by
  decide
/-- `L = 15 + 0`, the run ending exactly at `n` and at `cap`. -/
theorem witness_LiteralExtensionEnds_literals : (fun s : State => s.wk.si + 1 + (s.wk.litLen + (0 : Byte).toNat) ≤ s.wk.n ∧
    s.wk.di + (s.wk.litLen + (0 : Byte).toNat) ≤ s.wk.cap ∧ 0 < s.wk.litLen + (0 : Byte).toNat)
    (withLens (inBlock .litExt ([0xF0, 0] ++ List.replicate 15 7) [] 15 1) 15 0) := by decide
theorem witness_LiteralExtensionEnds_offset : (fun s : State => s.wk.litLen + (0 : Byte).toNat = 0 ∧ s.wk.si + 1 < s.wk.n ∧
    s.wk.di ≤ s.wk.cap) (withLens (inBlock .litExt [0xF0, 0, 1, 0] [] 0 1) 0 0) := by decide
theorem witness_LiteralExtensionEnds_end : (fun s : State => s.wk.litLen + (0 : Byte).toNat = 0 ∧ s.wk.si + 1 = s.wk.n ∧
    s.wk.di ≤ s.wk.cap) (withLens (inBlock .litExt [0xF0, 0] [] 0 1) 0 0) := by decide
theorem witness_LiteralExtensionEnds_raise : (fun s : State => s.wk.n < s.wk.si + 1 + (s.wk.litLen + (0 : Byte).toNat))
      (withLens (inBlock .litExt ([0xF0, 0] ++ List.replicate 14 7) [] 15 1) 15 0) ∧
    (fun s : State => s.wk.cap < s.wk.di + (s.wk.litLen + (0 : Byte).toNat))
      (withLens (inBlock .litExt ([0xF0, 0] ++ List.replicate 15 7) [] 14 1) 15 0) := by decide
theorem witness_LiteralStoresOneByte_goes_on : 1 < (withLens (inBlock .literal blockD1 [] 10 1) 2 0).wk.litLen := by decide
theorem witness_LiteralStoresOneByte_offset : (fun s : State => s.wk.litLen ≤ 1 ∧ s.wk.si + 1 ≠ s.wk.n)
    (withLens (inBlock .literal blockD1 [0x61] 10 2) 1 0) := by decide
theorem witness_LiteralStoresOneByte_end : (fun s : State => s.wk.litLen ≤ 1 ∧ s.wk.si + 1 = s.wk.n)
    (withLens (inBlock .literal blockD1 (ascii "ababababa") 10 6) 1 0) := by decide
/-- The offset equals `di`, the largest R205 accepts. -/
theorem witness_OffsetOpensTheMatch_extension : (fun s : State => (1 : BitVec 16) ≠ 0 ∧ (1 : BitVec 16).toNat ≤ s.wk.di ∧
    s.wk.mn = 15) (withMatch (inBlock .offset [0x1F, 0x61, 1, 0, 0] [0x61] 20 2) 15 0) := by decide
theorem witness_OffsetOpensTheMatch_copy : (fun s : State => (2 : BitVec 16) ≠ 0 ∧ (2 : BitVec 16).toNat ≤ s.wk.di ∧
    s.wk.mn ≠ 15 ∧ s.wk.di + (s.wk.mn.toNat + 4) ≤ s.wk.cap) (withMatch (inBlock .offset blockD1 [0x61, 0x62] 9 3) 3 0) := by
  decide
theorem witness_OffsetOpensTheMatch_raise :
    (fun s : State => s.wk.di < (3 : BitVec 16).toNat) (inBlock .offset blockD1 [0x61, 0x62] 9 3) ∧
    (fun s : State => s.wk.mn ≠ 15 ∧ s.wk.cap < s.wk.di + (s.wk.mn.toNat + 4))
      (withMatch (inBlock .offset blockD1 [0x61, 0x62] 8 3) 3 0) := by decide
/-- V-D18 and V-D19. -/
theorem witness_MatchExtensionEnds_copy : (fun s : State => s.wk.di + (s.wk.matchLen + (0xFE : Byte).toNat + 4) ≤ s.wk.cap)
    (withLens (inBlock .matchExt [0x1F, 0x61, 1, 0, 0xFE, 0] [0x61] 274 4) 0 15) := by decide
theorem witness_MatchExtensionEnds_raise : (fun s : State => s.wk.cap < s.wk.di + (s.wk.matchLen + (0xFE : Byte).toNat + 4))
    (withLens (inBlock .matchExt [0x1F, 0x61, 1, 0, 0xFE, 0] [0x61] 273 4) 0 15) := by decide
theorem witness_CopyRepeatsThePeriod : 1 ≤ 2 ∧ 2 ≤ (inBlock .offset blockD1 [0x61, 0x62] 10 3).wk.di := by decide
theorem witness_ElementFrames_goes_on : ∃ t, (Instr.literal 0x61).ctx ≠ .command ∧
    exec (.literal 0x61) (withLens (inBlock .literal blockD1 [] 10 1) 2 0) = .next t ∧ t.engine ≠ .idle ∧ t.faultLog = [] := by
  refine ⟨_, by decide, rfl, ?_, ?_⟩ <;> decide +kernel
theorem witness_ElementFrames_raises : ∃ t, (Instr.token 2 0).ctx ≠ .command ∧
    exec (.token 2 0) (inBlock .token [0x20, 0x61] [] 10 0) = .next t ∧ t.faultLog ≠ [] := by
  refine ⟨_, by decide, rfl, ?_⟩
  decide +kernel

/-! The engine and the host. -/

theorem witness_InstructionsKeepTheHostSide : ∃ t, exec .bound (runOfA 0) = .next t ∧ t.result = 80 := by
  refine ⟨_, rfl, ?_⟩
  decide +kernel
theorem witness_StepRunsTheDecodedInstruction : (inBlock .token blockD1 [] 10 0).engine = .busy .token ∧
    decode .token ((inBlock .token blockD1 [] 10 0).fetchBytes .token) = .ok (.token 2 3) [0x61] ∧
    (inBlock .token blockD1 [] 10 0).inbox = [] ∧ { inBlock .token blockD1 [] 10 0 with inbox := [.pause] }.inbox = [.pause] := by
  decide +kernel
theorem witness_RejectedElementsRaise : (inBlock .offset [0x10, 0x61, 0, 0] [0x61] 10 2).engine = .busy .offset ∧
    (inBlock .offset [0x10, 0x61, 0, 0] [0x61] 10 2).inbox = [] ∧
    decode .offset ((inBlock .offset [0x10, 0x61, 0, 0] [0x61] 10 2).fetchBytes .offset) = .rejected .zeroOffset ∧
    decode .offset ((inBlock .offset [0x10, 0x61, 1] [0x61] 10 2).fetchBytes .offset) = .rejected .truncated := by
  decide +kernel
theorem witness_IdleEngineWaits : State.reset.engine = .idle ∧ State.reset.inbox = [] := by decide
theorem witness_CommandWriteStartsACommand : (fun s : State => s.isBusy = false ∧
    s.inbox = .write s.cfg.baseReg .word 4 :: []) { State.reset with inbox := [.write 0 .word 4] } := by decide
theorem witness_BusyWritesAreRefused : (fun s : State => s.isBusy = true ∧ s.inbox = .write 4 .word 1 :: [])
    { runOfA 0 with inbox := [.write 4 .word 1] } := by decide
/-- Slots 0, 5 and 15. -/
theorem witness_RegisterReads : ∀ i ∈ [0, 4, 5, 15], i < 16 ∧ (i = 5 → State.reset.isBusy = false ∧ State.reset.unseen.result = false) ∧
    { State.reset with inbox := [.read (4 * i) .word] }.inbox = .read (State.reset.cfg.baseReg + 4 * i) .word :: [] := by
  decide
/-- RESULT while busy, and while idle with DONE = 1 not observed. -/
theorem witness_RegisterReads_free :
    (fun s : State => s.isBusy = true ∧ s.inbox = .read (s.cfg.baseReg + 4 * 5) .word :: [])
      { runOfA 0 with inbox := [.read 20 .word] } ∧
    (fun s : State => s.isBusy = false ∧ s.unseen.result = true ∧ s.inbox = .read (s.cfg.baseReg + 4 * 5) .word :: [])
      { owing 2 ⟨true, 3, [], []⟩ with inbox := [.read 20 .word] } := by decide
theorem witness_RegisterWrites : ∀ i ∈ [1, 3, 4, 15], 1 ≤ i ∧ i < 16 ∧ State.reset.isBusy = false ∧
    { State.reset with inbox := [.write (4 * i) .word 9] }.inbox = .write (State.reset.cfg.baseReg + 4 * i) .word 9 :: [] := by
  decide
/-- A byte access of the last word, and a word access one byte off. -/
theorem witness_RegisterAccessFormIsRefused : (63 < 64 ∧ (Width.byte ≠ .word ∨ 63 % 4 ≠ 0)) ∧
    (1 < 64 ∧ (Width.word ≠ .word ∨ 1 % 4 ≠ 0)) ∧
    { State.reset with inbox := [.read 1 .word] }.inbox = .read (State.reset.cfg.baseReg + 1) .word :: [] ∧
    { State.reset with inbox := [.write 63 .byte 0] }.inbox = .write (State.reset.cfg.baseReg + 63) .byte 0 :: [] ∧
    State.reset.isBusy = false := by decide
/-- The last byte of each buffer. -/
theorem witness_BufferBytesReadBack : State.reset.cfg.valid = true ∧ State.reset.isBusy = false ∧
    4278190063 < State.reset.cfg.maxSrcLen ∧ 4294967294 < State.reset.cfg.maxDstCap := by decide
/-- The last hidden byte, the first that is not hidden, and one the host wrote itself. -/
theorem witness_BufferBytesReadBack_hidden : (fun s : State => s.cfg.valid = true ∧ s.isBusy = false ∧
    s.unseen.hides 2 = true ∧ s.unseen.hides 3 = false ∧ s.unseen.hides 1 = false ∧ statusDone s.status = true)
    (owing 2 ⟨true, 3, [1], []⟩) := by decide
theorem witness_FastTableCellsReadBack : State.reset.cfg.valid = true ∧ State.reset.isBusy = false ∧ 65535 < 65536 ∧
    State.reset.htF.wf State.reset.cfg.posW = true ∧ 65535 ∉ State.reset.unseen.htF := by decide
/-- A cell that COMPRESS_FAST wrote, after its command. -/
theorem witness_FastTableCellsReadBack_observed : (fun s : State => s.cfg.valid = true ∧ s.isBusy = false ∧
    s.htF.wf s.cfg.posW = true ∧ 0x2532 ∈ s.unseen.htF ∧ statusDone s.status = true)
    (after (exec .compressFast (runOfA 18))) := by decide +kernel
theorem witness_HostReadsHaveNoSideEffects : ∃ t, hostTurn (.read 16 .word) (runOfA 0) = .next t ∧ t.readData = 1 := by
  refine ⟨_, rfl, ?_⟩
  decide +kernel
theorem witness_HostReadsHaveNoSideEffects_observes :
    ∃ t, hostTurn (.read 16 .word) (owing 2 ⟨true, 3, [], [5]⟩) = .next t ∧ t.unseen = .nothing ∧ t.readData = 2 :=
  ⟨_, rfl, by decide, by decide⟩
theorem witness_PlatformResetAtAnyTime : { runOfA 0 with inbox := [.reset] }.inbox = .reset :: [] := by decide
theorem witness_FaultLogIsPermanent : (∃ t, step (inBlock .token [0x20, 0x61] [] 10 0) = .next t ∧ t.faultLog ≠ []) ∧
    ∃ t, step State.reset = .next t ∧ t.faultLog = [] := by
  refine ⟨⟨_, rfl, ?_⟩, ⟨_, rfl, ?_⟩⟩ <;> decide +kernel

/-- A DECOMPRESS in the middle of V-D1, which meets the invariant. -/
theorem witness_invariant : Invariant (inBlock .token blockD1 [] 10 0) where
  params := by decide
  status := by simp only [statusLegal, inBlock]
  src := by decide
  dst := by decide
  htF := by decide
  htH := by decide
  ct := by decide
  cursors := by
    simp only [cursorsLegal, inBlock]
    decide
  faultLog := by decide

/-- A command just started, which meets it too. -/
theorem witness_invariant_command : Invariant (started blockD1 10 0) where
  params := by decide
  status := by simp only [statusLegal, started]
  src := by decide
  dst := by decide
  htF := by decide
  htH := by decide
  ct := by decide
  cursors := by
    simp only [cursorsLegal, started]
    decide
  faultLog := by decide

theorem witness_NothingIsWrittenAtCap : Invariant (inBlock .token blockD1 [] 10 0) ∧
    ∃ t, engineTurn (inBlock .token blockD1 [] 10 0) = .next t ∧ t.engine = .busy .literal := by
  refine ⟨witness_invariant, _, rfl, ?_⟩
  decide +kernel
theorem witness_StatusIsLegal : Invariant (inBlock .token blockD1 [] 10 0) := witness_invariant
theorem witness_ResetMeetsTheInvariant : Params.standard.valid = true := by decide
theorem witness_StepKeepsTheInvariant : Invariant (inBlock .token blockD1 [] 10 0) ∧
    ∃ t, step (inBlock .token blockD1 [] 10 0) = .next t ∧ t.wk.si = 1 := by
  refine ⟨witness_invariant, _, rfl, ?_⟩
  decide +kernel
theorem witness_EveryCommandCompletes : Invariant (inBlock .token blockD1 [] 10 0) ∧
    (inBlock .token blockD1 [] 10 0).engine ≠ .idle ∧ (inBlock .token blockD1 [] 10 0).inbox = [] ∧
    Invariant (started blockD1 10 0) ∧ (started blockD1 10 0).engine ≠ .idle :=
  ⟨witness_invariant, by decide, by decide, witness_invariant_command, by decide⟩

end Sys2Proof.Tests
end

section
/-! PROOFS of the statements of 00_scope.md: the hash and the fingerprint word (R10), CommonLen (R11), and the reset state
under the invariant. -/

namespace Sys2Proof.Machine

/-! ### The fingerprint (R10) -/

/-- The hash as a number: the 32-bit product's upper half. -/
theorem fpHash_toNat (x : Word) : (fpHash x).toNat = ((x.toNat * 2654435761) % 4294967296) / 65536 := by
  have hprod : (x * Config.hashMul).toNat = x.toNat * 2654435761 % 4294967296 := BitVec.toNat_mul x Config.hashMul
  rw [fpHash, BitVec.toNat_setWidth, BitVec.toNat_ushiftRight, hprod, Nat.shiftRight_eq_div_pow]
  exact Nat.mod_eq_of_lt (Nat.div_lt_of_lt_mul (Nat.mod_lt _ (Nat.two_pow_pos 32)))

/-- Appending a byte below a vector shifts the vector up by one byte. -/
theorem append_byte_toNat {m : Nat} (x : BitVec m) (b : Byte) : (x ++ b).toNat = 256 * x.toNat + b.toNat := by
  rw [BitVec.toNat_append, ← Nat.shiftLeft_add_eq_or_of_lt b.isLt, Nat.shiftLeft_eq, Nat.mul_comm]

/-- The fingerprint word is the little-endian value of its four bytes (20_memory.md R60). -/
theorem srcWord_toNat (s : State) (p : Nat) :
    (s.srcWord p).toNat = (s.srcByte p).toNat + 256 * (s.srcByte (p + 1)).toNat +
      65536 * (s.srcByte (p + 2)).toNat + 16777216 * (s.srcByte (p + 3)).toNat := by
  simp only [State.srcWord, append_byte_toNat]
  omega

/-! ### CommonLen (R11), by recursion on the limit -/

section CommonLen
variable {f : Nat → Byte} {a b : Nat}

theorem commonLen_succ_of_eq (l : Nat) (h : f a = f b) :
    commonLen f a b (l + 1) = commonLen f (a + 1) (b + 1) l + 1 := by
  rw [commonLen, if_pos h, Nat.add_comm]

theorem commonLen_succ_of_ne (l : Nat) (h : f a ≠ f b) : commonLen f a b (l + 1) = 0 := by
  rw [commonLen, if_neg h]

end CommonLen

theorem commonLen_le (f : Nat → Byte) (a b limit : Nat) : commonLen f a b limit ≤ limit := by
  induction limit generalizing a b with
  | zero => exact Nat.le_refl 0
  | succ l ih =>
    by_cases h : f a = f b
    · rw [commonLen_succ_of_eq l h]
      exact Nat.succ_le_succ (ih (a + 1) (b + 1))
    · rw [commonLen_succ_of_ne l h]
      exact Nat.zero_le _

/-- The two runs agree below CommonLen. -/
theorem eq_of_lt_commonLen (f : Nat → Byte) (a b limit : Nat) {j : Nat} (hj : j < commonLen f a b limit) :
    f (a + j) = f (b + j) := by
  induction limit generalizing a b j with
  | zero => exact absurd hj (Nat.not_lt_zero j)
  | succ l ih =>
    by_cases h : f a = f b
    · rw [commonLen_succ_of_eq l h] at hj
      cases j with
      | zero => exact h
      | succ i =>
        have := ih (a + 1) (b + 1) (Nat.lt_of_succ_lt_succ hj)
        rwa [Nat.add_right_comm a, Nat.add_right_comm b] at this
    · rw [commonLen_succ_of_ne l h] at hj
      exact absurd hj (Nat.not_lt_zero j)

/-- CommonLen stops at the limit or at a difference. -/
theorem commonLen_eq_limit_or_ne (f : Nat → Byte) (a b limit : Nat) :
    commonLen f a b limit = limit ∨ f (a + commonLen f a b limit) ≠ f (b + commonLen f a b limit) := by
  induction limit generalizing a b with
  | zero => exact .inl rfl
  | succ l ih =>
    by_cases h : f a = f b
    · rw [commonLen_succ_of_eq l h]
      have := ih (a + 1) (b + 1)
      rw [Nat.add_right_comm a, Nat.add_right_comm b] at this
      exact this.imp (congrArg (· + 1)) id
    · rw [commonLen_succ_of_ne l h]
      exact .inr h

/-! ### The state after reset -/

/-- After reset the engine is idle and STATUS is that of an outcome without an error and without DONE. -/
theorem resetFor_statusLegal (p : Params) : statusLegal (State.resetFor p) :=
  ⟨false, .ok, rfl, fun h => absurd rfl h, fun _ => rfl⟩

/-- Reset meets the invariant: only the parameters' own constraints have to be assumed. -/
theorem resetFor_invariant {p : Params} (hp : p.valid = true) : Invariant (State.resetFor p) where
  params := hp
  status := resetFor_statusLegal p
  src := resetFor_src_wf p _
  dst := resetFor_dst_wf p _
  htF := resetFor_htF_wf p _
  htH := resetFor_htH_wf p _
  ct := resetFor_ct_wf p _
  cursors := trivial
  faultLog := fun _ h => absurd h List.not_mem_nil

/-! ### The obligations -/

/-- Settles O8: the hash as a number, and the fingerprint word as the little-endian value of its four bytes. -/
theorem fingerprintIsTheHash : Obligations.FingerprintIsTheHash :=
  ⟨fpHash_toNat, fun s p => ⟨rfl, srcWord_toNat s p⟩⟩

/-- Settles O9, each part by induction on the limit. -/
theorem commonLenIsTheFirstDifference : Obligations.CommonLenIsTheFirstDifference := fun s a b limit =>
  ⟨commonLen_le s.srcByte a b limit, fun _ => eq_of_lt_commonLen s.srcByte a b limit,
    commonLen_eq_limit_or_ne s.srcByte a b limit⟩

/-- Settles O58: the engine is idle, every buffer and table is empty, and the fault log is empty. -/
theorem resetMeetsTheInvariant : Obligations.ResetMeetsTheInvariant := fun _ => resetFor_invariant

end Sys2Proof.Machine
end

section
/-! PROOFS about the state, first part: what no instruction changes (10_state.md R34, 20_memory.md R74), and the invariant
through completions, the elements of a block, the commands, the host's accesses and the platform reset. -/

namespace Sys2Proof.Machine

/-! ### The host's side of the state -/

/-- A command's end leaves the host's side alone. -/
theorem Run.hostSide_settle {s : State} {m : Run} (h : m.All (HostSide s)) : HostSide s m.settle :=
  Run.settle_of_all h (fun _ k => k) (fun t r k => k.trans (hostSide_complete .ok r r t))
    (fun t k => (k.trans (hostSide_forgetDst t)).trans (hostSide_complete .ok 0 t.wk.cap _))
    (fun t k => k.trans (hostSide_raiseShort t))

theorem hostSide_rejectRequest (s : State) : HostSide s s.rejectRequest := hostSide_complete .illegalRequest 0 0 s

theorem hostSide_forgetHc (s : State) : HostSide s s.forgetHc := ⟨rfl, rfl, rfl, rfl, rfl, rfl, rfl, rfl⟩

/-- An update of DST, the engine and the working registers is none of the host's side. -/
theorem hostSide_update (s : State) (b : Buf) (e : Engine) (w : Working) :
    HostSide s { s with dst := b, engine := e, wk := w } := ⟨rfl, rfl, rfl, rfl, rfl, rfl, rfl, rfl⟩

theorem hostSide_decompressRun (s : State) : (decompressRun s).All (HostSide s) := by
  unfold decompressRun
  split
  · exact hostSide_refl s
  · exact hostSide_update s s.dst _ _

/-- Every instruction answers a state with the same host side. -/
theorem exec_hostSide (i : Instr) (s : State) : ∃ t, exec i s = .next t ∧ HostSide s t := by
  have elem {m : Run} {u : State} (hu : HostSide s u) (hm : m.All (ElemFrame u)) : HostSide s m.settle :=
    Run.hostSide_settle (hm.mono fun _ h => hu.trans h.host)
  have consumed (k : Nat) : HostSide s (s.consume k) := hostSide_update s s.dst s.engine _
  cases i with
  | compressFast =>
    refine ⟨_, rfl, ?_⟩
    split
    · exact hostSide_rejectRequest s
    · exact Run.hostSide_settle ((scanFrame_fastRun s).mono fun _ h => h.enc.host)
  | compressHc =>
    refine ⟨_, rfl, ?_⟩
    split
    · exact hostSide_rejectRequest s
    · exact (Run.hostSide_settle ((scanFrame_hcRun s).mono fun _ h => h.enc.host)).trans (hostSide_forgetHc _)
  | decompress =>
    refine ⟨_, rfl, ?_⟩
    split
    · exact hostSide_rejectRequest s
    · exact Run.hostSide_settle (hostSide_decompressRun s)
  | bound =>
    refine ⟨_, rfl, ?_⟩
    split
    · exact hostSide_rejectRequest s
    · exact hostSide_complete .ok _ 0 s
  | illegalCommand op reserved => exact ⟨_, rfl, hostSide_rejectRequest s⟩
  | token ln mn => exact ⟨_, rfl, elem (hostSide_refl s) (elemFrame_tokenRun ln mn s)⟩
  | litlenExtCont => exact ⟨_, rfl, hostSide_update s s.dst _ _⟩
  | litlenExtEnd t => exact ⟨_, rfl, elem (hostSide_update s s.dst s.engine _) (elemFrame_literalRun _)⟩
  | literal b => exact ⟨_, rfl, elem (hostSide_update s _ s.engine _) (elemFrame_literalNext _)⟩
  | offset16 off => exact ⟨_, rfl, elem (consumed 2) (elemFrame_offsetRun off.toNat _)⟩
  | matchlenExtCont => exact ⟨_, rfl, hostSide_update s s.dst _ _⟩
  | matchlenExtEnd t => exact ⟨_, rfl, elem (hostSide_update s s.dst s.engine _) (elemFrame_matchCopy _)⟩

/-- Settles O41: the one state an instruction answers has the same host side. -/
theorem instructionsKeepTheHostSide : Obligations.InstructionsKeepTheHostSide := by
  intro i s t h
  obtain ⟨u, hu, host⟩ := exec_hostSide i s
  obtain rfl : u = t := Host.Outcome.next.inj (hu.symm.trans h)
  exact host

/-! ### STATUS under the invariant (R26) -/

theorem statusWord_reserved (b d : Bool) (e : BitVec 4) :
    (statusWord b d e).extractLsb' 2 2 = 0 ∧ (statusWord b d e).extractLsb' 8 24 = 0 := by
  revert b d e; decide

theorem Err.code_toNat_le (e : Err) : e.code.toNat ≤ 2 := by
  cases e <;> decide

theorem statusLegal_idle {s : State} (he : s.engine = .idle) : statusLegal s ↔
    ∃ done e, s.status = statusWord false done (Err.code e) ∧ (e ≠ .ok → s.result = 0) ∧ (done = false → e = .ok) := by
  simp only [statusLegal, he]

theorem statusLegal_busy {s : State} {c : Ctx} (he : s.engine = .busy c) :
    statusLegal s ↔ s.status = statusWord true false 0 := by
  simp only [statusLegal, he]

/-- Settles O57: by what the engine does, STATUS is BUSY alone or an outcome's word. -/
theorem statusIsLegal : Obligations.StatusIsLegal := by
  intro s h
  cases he : s.engine with
  | idle =>
    obtain ⟨done, e, hs, -, -⟩ := (statusLegal_idle he).mp h.status
    rw [hs]
    have hr := statusWord_reserved false done e.code
    exact ⟨by simp, by simpa using e.code_toNat_le, hr.1, hr.2, by simp⟩
  | busy c =>
    rw [(statusLegal_busy he).mp h.status]
    have hr := statusWord_reserved true false 0
    exact ⟨by simp, by simp, hr.1, hr.2, by simp⟩

/-- In a state of the invariant that is not busy, the engine is idle. -/
theorem Invariant.idle {s : State} (h : Invariant s) (hb : s.isBusy = false) : s.engine = .idle := by
  obtain ⟨-, -, -, -, busy⟩ := statusIsLegal s h
  by_contra hne
  exact absurd (busy.mpr hne) (by simpa [State.isBusy] using hb)

/-! ### What the invariant says of the parameters, the memories and the log -/

/-- The clauses of the invariant that hold in the middle of a command too. -/
structure Stored (s : State) : Prop where
  params : s.cfg.valid = true
  src : s.src.wf s.cfg.maxSrcLen = true
  dst : s.dst.wf s.cfg.maxDstCap = true
  htF : s.htF.wf s.cfg.posW = true
  htH : s.htH.wf s.cfg.posW = true
  ct : s.ct.wf s.cfg.posW = true
  faultLog : ∀ e ∈ s.faultLog, e ≠ Err.ok

theorem Invariant.stored {s : State} (h : Invariant s) : Stored s :=
  ⟨h.params, h.src, h.dst, h.htF, h.htH, h.ct, h.faultLog⟩

/-- A piece of an encoder that stays below `cap` keeps the memories canonical. -/
theorem Stored.scan {s t : State} (h : Stored s) (hc : s.wk.cap ≤ s.cfg.maxDstCap) (f : ScanFrame s t) : Stored t := by
  have hcfg := f.enc.host.cfg
  refine ⟨?_, ?_, ?_, ?_, ?_, ?_, ?_⟩
  · rw [hcfg]; exact h.params
  · rw [hcfg, f.enc.host.src]; exact h.src
  · rw [hcfg]; exact f.dstWf _ hc h.dst
  · rw [hcfg]; exact f.htFWf h.htF
  · rw [hcfg]; exact f.htHWf h.htH
  · rw [hcfg]; exact f.ctWf h.ct
  · rw [f.enc.outcome.faultLog]; exact h.faultLog

theorem logErr_ne_ok {log : List Err} (h : ∀ e ∈ log, e ≠ Err.ok) (x : Err) : ∀ e ∈ logErr log x, e ≠ Err.ok := by
  cases x with
  | ok => exact h
  | invalidSourceShortBuffer => exact List.forall_mem_cons.mpr ⟨by decide, h⟩
  | illegalRequest => exact List.forall_mem_cons.mpr ⟨by decide, h⟩

/-- A completion meets the invariant when an error has the byte count 0 (R27, 60_exceptions.md R242). -/
theorem Stored.complete {s : State} (h : Stored s) (e : Err) (r lim : Nat) (hr : e ≠ .ok → r = 0) :
    Invariant (s.complete e r lim) where
  params := h.params
  status := ⟨true, e, rfl, fun he => by rw [complete_result, hr he]; rfl, fun hd => absurd hd (by decide)⟩
  src := h.src
  dst := h.dst
  htF := h.htF
  htH := h.htH
  ct := h.ct
  cursors := trivial
  faultLog := logErr_ne_ok h.faultLog e

theorem Stored.forgetDst {s : State} (h : Stored s) : Stored s.forgetDst :=
  { h with dst := Buf.wf_forget s.dst s.wk.cap h.dst }

theorem Stored.raiseShort {s : State} (h : Stored s) : Invariant s.raiseShort :=
  h.forgetDst.complete _ _ _ fun _ => rfl

theorem Stored.rejectRequest {s : State} (h : Stored s) : Invariant s.rejectRequest := h.complete _ _ _ fun _ => rfl

theorem Invariant.forgetHc {s : State} (h : Invariant s) : Invariant s.forgetHc :=
  { h with htH := Table.wf_unspecified _ _, ct := Table.wf_unspecified _ _ }

/-- How a piece of pseudocode keeps the invariant: where it goes on the state is one of the invariant, and where it ends
the completion has still to come. -/
def Run.Keeps : Run → Prop
  | .go s => Invariant s
  | .ret _ s => Stored s
  | .incompressible s => Stored s
  | .raise s => Stored s

theorem Run.Keeps.settle {m : Run} (h : m.Keeps) : Invariant m.settle := by
  cases m with
  | go s => exact h
  | ret r s => exact Stored.complete h _ _ _ fun he => absurd rfl he
  | incompressible s => exact (Stored.forgetDst h).complete _ _ _ fun he => absurd rfl he
  | raise s => exact Stored.raiseShort h

theorem Run.keeps_of_ends {m : Run} (h : m.All Stored) (ends : ∀ t, m ≠ .go t) : m.Keeps := by
  cases m with
  | go s => exact absurd rfl (ends s)
  | ret r s => exact h
  | incompressible s => exact h
  | raise s => exact h

/-! ### The elements of a block (43_decoder.md) -/

/-- A DECOMPRESS in progress, whatever element comes next. -/
structure InBlock (s : State) : Prop where
  stored : Stored s
  status : s.status = statusWord true false 0
  n : s.wk.n ≤ s.cfg.maxSrcLen
  cap : s.wk.cap ≤ s.cfg.maxDstCap
  si : s.wk.si ≤ s.wk.n
  di : s.wk.di ≤ s.wk.cap

/-- What the invariant asks for before a literal and before a byte of a match-length extension. -/
def FitsContext (c : Ctx) (s : State) : Prop :=
  (c = .literal → 0 < s.wk.litLen ∧ s.wk.si + s.wk.litLen ≤ s.wk.n ∧ s.wk.di + s.wk.litLen ≤ s.wk.cap) ∧
    (c = .matchExt → 1 ≤ s.wk.off ∧ s.wk.off ≤ s.wk.di)

theorem Invariant.inBlock {s : State} {c : Ctx} (h : Invariant s) (he : s.engine = .busy c) (hc : c ≠ .command) :
    InBlock s ∧ FitsContext c s := by
  have hcur := h.cursors
  simp only [cursorsLegal, he] at hcur
  obtain ⟨hn, hcap, hsi, hdi, fits⟩ := hcur.2 hc
  exact ⟨⟨h.stored, (statusLegal_busy he).mp h.status, hn, hcap, hsi, hdi⟩, fits⟩

theorem InBlock.await {s : State} {c : Ctx} (h : InBlock s) (hc : c ≠ .command) (fits : FitsContext c s) :
    Invariant (s.await c) where
  params := h.stored.params
  status := h.status
  src := h.stored.src
  dst := h.stored.dst
  htF := h.stored.htF
  htH := h.stored.htH
  ct := h.stored.ct
  cursors := ⟨fun k => absurd k hc, fun _ => ⟨h.n, h.cap, h.si, h.di, fits⟩⟩
  faultLog := h.stored.faultLog

/-- An element may move the cursors inside the block and the buffer, and write DST inside its space. -/
theorem InBlock.update {s : State} (h : InBlock s) {b : Buf} {e : Engine} {w : Working}
    (hb : b.wf s.cfg.maxDstCap = true) (hn : w.n = s.wk.n) (hc : w.cap = s.wk.cap) (hsi : w.si ≤ s.wk.n)
    (hdi : w.di ≤ s.wk.cap) : InBlock { s with dst := b, engine := e, wk := w } where
  stored := { h.stored with dst := hb }
  status := h.status
  n := hn ▸ h.n
  cap := hc ▸ h.cap
  si := hn ▸ hsi
  di := hc ▸ hdi

theorem InBlock.keeps_endOfLiterals {s : State} (h : InBlock s) : (endOfLiterals s).Keeps := by
  rcases endOfLiterals_cases s with ⟨-, hr⟩ | ⟨-, hr⟩ <;> rw [hr]
  · exact h.stored
  · exact h.await (by decide) (by simp [FitsContext])

theorem InBlock.keeps_literalRun {s : State} (h : InBlock s) : (literalRun s).Keeps := by
  rcases literalRun_cases s with ⟨-, hr⟩ | ⟨hsrc, hdst, ⟨-, hr⟩ | ⟨hl, hr⟩⟩ <;> rw [hr]
  · exact h.stored
  · exact h.keeps_endOfLiterals
  · exact h.await (by decide) (by simp only [FitsContext, reduceCtorEq, false_imp_iff, and_true]; omega)

theorem InBlock.keeps_literalNext {s : State} (h : InBlock s) (hsrc : s.wk.si + s.wk.litLen ≤ s.wk.n)
    (hdst : s.wk.di + s.wk.litLen ≤ s.wk.cap) : (literalNext s).Keeps := by
  rcases literalNext_cases s with ⟨-, hr⟩ | ⟨hl, hr⟩ <;> rw [hr]
  · exact h.keeps_endOfLiterals
  · exact h.await (by decide) (by simp only [FitsContext, reduceCtorEq, false_imp_iff, and_true]; omega)

theorem InBlock.keeps_matchCopy {s : State} (h : InBlock s) : (matchCopy s).Keeps := by
  rcases matchCopy_cases s with ⟨-, hr⟩ | ⟨hfit, hr⟩ <;> rw [hr]
  · exact h.stored
  · have hb := Buf.wf_copyBytes (s.wk.matchLen + 4) s.wk.off s.wk.di s.dst h.stored.dst (hfit.trans h.cap)
    have hm : InBlock (s.matched (s.wk.matchLen + 4)) := h.update hb rfl rfl h.si hfit
    exact hm.await (c := .token) (by decide) (by simp [FitsContext])

theorem InBlock.consume {s : State} (h : InBlock s) {k : Nat} (hk : s.wk.si + k ≤ s.wk.n) : InBlock (s.consume k) :=
  h.update h.stored.dst rfl rfl hk h.di

theorem InBlock.keeps_tokenRun {s : State} (h : InBlock s) (ln mn : BitVec 4) (hk : s.wk.si + 1 ≤ s.wk.n) :
    (tokenRun ln mn s).Keeps := by
  have ht : InBlock (takeToken ln mn s) := h.update h.stored.dst rfl rfl hk h.di
  unfold tokenRun
  split
  · exact ht.await (by decide) (by simp [FitsContext])
  · exact ht.keeps_literalRun

theorem InBlock.keeps_offsetRun {s : State} (h : InBlock s) (off : Nat) : (offsetRun off s).Keeps := by
  have ht : InBlock (s.offsetTaken off) := h.update h.stored.dst rfl rfl h.si h.di
  rcases offsetRun_cases off s with ⟨-, hr⟩ | ⟨hpos, hin, ⟨-, hr⟩ | ⟨-, hr⟩⟩ <;> rw [hr]
  · exact h.stored
  · exact ht.await (by decide) ⟨by simp, fun _ => ⟨hpos, hin⟩⟩
  · exact ht.keeps_matchCopy

/-- A literal of a run that fits is written inside both buffers, and the rest of the run fits too. -/
theorem InBlock.keeps_literal {s : State} (h : InBlock s) (b : Byte) (fits : FitsContext .literal s) :
    (literalNext (literalCopy b s)).Keeps := by
  obtain ⟨hpos, hsrc, hdst⟩ := fits.1 rfl
  have hcap := h.cap
  have hb := Buf.wf_write s.dst b h.stored.dst (show s.wk.di < s.cfg.maxDstCap by omega)
  have hl : InBlock (literalCopy b s) :=
    h.update hb rfl rfl (show s.wk.si + 1 ≤ s.wk.n by omega) (show s.wk.di + 1 ≤ s.wk.cap by omega)
  exact hl.keeps_literalNext (by simp only [literalCopy_wk]; omega) (by simp only [literalCopy_wk]; omega)

/-! ### Every instruction -/

theorem oversize_eq_false {s : State} : ¬ s.oversize = true ↔ s.wk.n ≤ s.cfg.maxSrcLen ∧ s.wk.cap ≤ s.cfg.maxDstCap := by
  simp [State.oversize]

/-- The start of a block: both cursors are 0. -/
theorem keeps_decompressRun {s : State} (h : Stored s) (hs : s.status = statusWord true false 0)
    (hn : s.wk.n ≤ s.cfg.maxSrcLen) (hc : s.wk.cap ≤ s.cfg.maxDstCap) : (decompressRun s).Keeps := by
  unfold decompressRun
  split
  · exact h
  · have hb : InBlock { s with wk := { s.wk with si := 0, di := 0 } } :=
      ⟨{ h with }, hs, hn, hc, Nat.zero_le _, Nat.zero_le _⟩
    exact hb.await (by decide) (by simp [FitsContext])

/-- Each command keeps the invariant: a request within the limits has memories that fit, and any other is rejected. -/
theorem command_keeps_invariant {s : State} (h : Invariant s) (he : s.engine = .busy .command) {i : Instr}
    (hi : i.ctx = .command) : ∃ t, exec i s = .next t ∧ Invariant t := by
  have hs := (statusLegal_busy he).mp h.status
  cases i with
  | compressFast =>
    refine ⟨_, rfl, ?_⟩
    split
    · exact h.stored.rejectRequest
    · obtain ⟨-, hc⟩ := oversize_eq_false.mp ‹_›
      exact (Run.keeps_of_ends ((scanFrame_fastRun s).mono fun _ f => h.stored.scan hc f) (fastRun_ends s)).settle
  | compressHc =>
    refine ⟨_, rfl, ?_⟩
    split
    · exact h.stored.rejectRequest
    · obtain ⟨-, hc⟩ := oversize_eq_false.mp ‹_›
      exact (Run.keeps_of_ends ((scanFrame_hcRun s).mono fun _ f => h.stored.scan hc f) (hcRun_ends s)).settle.forgetHc
  | decompress =>
    refine ⟨_, rfl, ?_⟩
    split
    · exact h.stored.rejectRequest
    · obtain ⟨hn, hc⟩ := oversize_eq_false.mp ‹_›
      exact (keeps_decompressRun h.stored hs hn hc).settle
  | bound =>
    refine ⟨_, rfl, ?_⟩
    split
    · exact h.stored.rejectRequest
    · exact h.stored.complete _ _ _ fun he => absurd rfl he
  | illegalCommand op reserved => exact ⟨_, rfl, h.stored.rejectRequest⟩
  | token | litlenExtCont | litlenExtEnd | literal | offset16 | matchlenExtCont | matchlenExtEnd => cases hi

/-- Each element keeps the invariant in its own context, when its bytes lie below `n` (43_decoder.md R201). -/
theorem element_keeps_invariant {s : State} {i : Instr} (h : InBlock s) (hi : i.ctx ≠ .command)
    (fits : FitsContext i.ctx s) (hk : s.wk.si + elementBytes i.ctx ≤ s.wk.n) : ∃ t, exec i s = .next t ∧ Invariant t := by
  have passed (v : Nat) (hv : s.wk.si + 1 ≤ s.wk.n) :
      InBlock ((s.consume 1).addLitLen v) ∧ InBlock ((s.consume 1).addMatchLen v) :=
    ⟨h.update h.stored.dst rfl rfl hv h.di, h.update h.stored.dst rfl rfl hv h.di⟩
  cases i with
  | token ln mn => exact ⟨_, rfl, (h.keeps_tokenRun ln mn hk).settle⟩
  | litlenExtCont => exact ⟨_, rfl, (passed 255 hk).1.await (by decide) (by simp [FitsContext])⟩
  | litlenExtEnd t => exact ⟨_, rfl, (passed t.toNat hk).1.keeps_literalRun.settle⟩
  | literal b => exact ⟨_, rfl, (h.keeps_literal b fits).settle⟩
  | offset16 off => exact ⟨_, rfl, ((h.consume hk).keeps_offsetRun off.toNat).settle⟩
  | matchlenExtCont => exact ⟨_, rfl, (passed 255 hk).2.await (by decide) ⟨by simp, fits.2⟩⟩
  | matchlenExtEnd t => exact ⟨_, rfl, (passed t.toNat hk).2.keeps_matchCopy.settle⟩
  | compressFast | compressHc | decompress | bound | illegalCommand => exact absurd rfl hi

/-- The engine's turn keeps the invariant. -/
theorem engineTurn_keeps_invariant {s : State} (h : Invariant s) : ∃ t, engineTurn s = .next t ∧ Invariant t := by
  rcases engineTurn_cases s with ⟨-, ht⟩ | ⟨c, he, ⟨i, rest, hd, ht⟩ | ⟨why, -, ht⟩⟩ <;> rw [ht]
  · exact ⟨s, rfl, h⟩
  · obtain ⟨-, rfl⟩ := decode_sound hd
    by_cases hc : i.ctx = .command
    · exact command_keeps_invariant h (hc ▸ he) hc
    · obtain ⟨hb, fits⟩ := h.inBlock he hc
      exact element_keeps_invariant hb hc fits (element_below_n hc hd)
  · exact ⟨_, rfl, h.stored.raiseShort⟩

/-! ### The host and the platform -/

theorem Width.dataBytes_length (w : Width) (data : Word) : (dataBytes w data).length = w.bytes := by
  cases w <;> rfl

/-- A register read changes the data read, what the host is owed, and the counter. -/
theorem readSlot_changes (i : Nat) (s : State) :
    ∃ d u k, readSlot i s = { s with readData := d, unseen := u, draws := k } := by
  unfold readSlot
  repeat' split
  all_goals exact ⟨_, _, _, rfl⟩

/-- So does every host read. -/
theorem hostRead_changes {a : Nat} {w : Width} {s t : State} (h : hostRead a w s = .next t) :
    ∃ d u k, t = { s with readData := d, unseen := u, draws := k } := by
  have buffer {base size off : Nat} {hidden : Nat → Bool} {f : Nat → Byte}
      (hb : readBuffer base size off hidden f w s = .next t) :
      ∃ d u k, t = { s with readData := d, unseen := u, draws := k } := by
    unfold readBuffer at hb
    split at hb <;> cases hb
    exact ⟨_, _, _, rfl⟩
  unfold hostRead at h
  split at h
  · split at h <;> cases h
    exact readSlot_changes _ s
  · exact buffer h
  · exact buffer h
  · split at h <;> cases h
    split <;> exact ⟨_, _, _, rfl⟩
  · cases h

/-- An address of HT_F's space has its offset below 4 * WIN_SIZE. -/
theorem regionOf_htf_lt {p : Params} {a off : Nat} (h : regionOf p a = .htf off) : off < 262144 := by
  unfold regionOf at h
  repeat' split at h
  all_goals cases h
  omega

/-- What a host write to an idle block can do: write a register, bytes inside SRC or DST, or a cell of HT_F. -/
theorem hostWriteIdle_cases {a : Nat} {w : Width} {data : Word} {s t : State}
    (h : hostWriteIdle a w data s = .next t) :
    (∃ i, t = writeSlot i data s) ∨
    (∃ off, off + w.bytes ≤ s.cfg.maxSrcLen ∧ t = { s with src := s.src.writeAll off (dataBytes w data) }) ∨
    (∃ off u, off + w.bytes ≤ s.cfg.maxDstCap ∧
      t = { s with dst := s.dst.writeAll off (dataBytes w data), unseen := u }) ∨
    (∃ i u, i < Config.winSize ∧ t = { s with htF := s.htF.write s.cfg.posW i data.toNat, unseen := u }) := by
  unfold hostWriteIdle at h
  split at h
  · split at h <;> cases h
    exact .inl ⟨_, rfl⟩
  · split at h <;> cases h
    exact .inr (.inl ⟨_, by omega, rfl⟩)
  · split at h <;> cases h
    exact .inr (.inr (.inl ⟨_, _, by omega, rfl⟩))
  · rename_i off hr
    have hoff := regionOf_htf_lt hr
    split at h <;> cases h
    exact .inr (.inr (.inr ⟨off / 4, _, show off / 4 < 65536 by omega, rfl⟩))
  · cases h

theorem startCommand_keeps_invariant {s : State} (h : Invariant s) (w : Word) : Invariant (s.startCommand w) where
  params := h.params
  status := rfl
  src := h.src
  dst := h.dst
  htF := h.htF
  htH := h.htH
  ct := h.ct
  cursors := ⟨fun _ => ⟨rfl, rfl⟩, fun k => absurd rfl k⟩
  faultLog := h.faultLog

theorem writeSlot_keeps_invariant {s : State} (h : Invariant s) (i : Nat) (data : Word) :
    Invariant (writeSlot i data s) := by
  unfold writeSlot
  repeat' split
  · exact startCommand_keeps_invariant h data
  all_goals exact ⟨h.params, h.status, h.src, h.dst, h.htF, h.htH, h.ct, h.cursors, h.faultLog⟩

theorem hostRead_keeps_invariant {a : Nat} {w : Width} {s t : State} (h : Invariant s)
    (ht : hostRead a w s = .next t) : Invariant t := by
  obtain ⟨d, u, k, rfl⟩ := hostRead_changes ht
  exact ⟨h.params, h.status, h.src, h.dst, h.htF, h.htH, h.ct, h.cursors, h.faultLog⟩

theorem hostWriteIdle_keeps_invariant {a : Nat} {w : Width} {data : Word} {s t : State} (h : Invariant s)
    (ht : hostWriteIdle a w data s = .next t) : Invariant t := by
  have hl := Width.dataBytes_length w data
  rcases hostWriteIdle_cases ht with ⟨i, rfl⟩ | ⟨off, hoff, rfl⟩ | ⟨off, u, hoff, rfl⟩ | ⟨i, u, hi, rfl⟩
  · exact writeSlot_keeps_invariant h i data
  · exact ⟨h.params, h.status, Buf.wf_writeAll s.src _ h.src (hl ▸ hoff), h.dst, h.htF, h.htH, h.ct, h.cursors,
      h.faultLog⟩
  · exact ⟨h.params, h.status, h.src, Buf.wf_writeAll s.dst _ h.dst (hl ▸ hoff), h.htF, h.htH, h.ct, h.cursors,
      h.faultLog⟩
  · exact ⟨h.params, h.status, h.src, h.dst, Table.wf_write s.htF _ h.htF hi, h.htH, h.ct, h.cursors, h.faultLog⟩

theorem platformReset_keeps_invariant {s : State} (h : Invariant s) : Invariant s.platformReset where
  params := h.params
  status := ⟨false, .ok, rfl, fun k => absurd rfl k, fun _ => rfl⟩
  src := Buf.wf_forget _ _ h.src
  dst := Buf.wf_forget _ _ h.dst
  htF := Table.wf_unspecified _ _
  htH := Table.wf_unspecified _ _
  ct := Table.wf_unspecified _ _
  cursors := trivial
  faultLog := h.faultLog

theorem hostTurn_keeps_invariant {e : HostEvent} {s t : State} (h : Invariant s) (ht : hostTurn e s = .next t) :
    Invariant t := by
  cases e with
  | read a w => exact hostRead_keeps_invariant h ht
  | write a w data =>
    simp only [hostTurn, hostWrite] at ht
    split at ht
    · cases ht
    · exact hostWriteIdle_keeps_invariant h ht
  | reset =>
    cases ht
    exact platformReset_keeps_invariant h
  | pause =>
    obtain ⟨u, hu, hinv⟩ := engineTurn_keeps_invariant h
    obtain rfl : u = t := Host.Outcome.next.inj (hu.symm.trans ht)
    exact hinv

theorem Invariant.withInbox {s : State} (h : Invariant s) (later : List HostEvent) :
    Invariant { s with inbox := later } :=
  ⟨h.params, h.status, h.src, h.dst, h.htF, h.htH, h.ct, h.cursors, h.faultLog⟩

/-- Settles O59: the step is the engine's turn or an action of the host or the platform. -/
theorem stepKeepsTheInvariant : Obligations.StepKeepsTheInvariant := by
  intro s t h ht
  cases hin : s.inbox with
  | nil =>
    rw [step_of_inbox_nil hin] at ht
    exact hostTurn_keeps_invariant (e := .pause) h ht
  | cons e rest =>
    rw [step_of_inbox_cons hin] at ht
    exact hostTurn_keeps_invariant (h.withInbox rest) ht

end Sys2Proof.Machine
end

section
/-! PROOFS about the state, second part: the scan loop that the two encoders share, what it leaves when capacity never runs
out, and what Finish makes of that (40_token_codec.md R115, R116). Each encoder's loop is shown to be this one with its own
plan for an iteration. -/

namespace Sys2Proof.Machine

/-- Bytes that do not fit raise, and log nothing yet. -/
theorem putAll_raises {vs : List Byte} {s : State} (hd : s.wk.di ≤ s.wk.cap) (h : s.wk.cap < s.wk.di + vs.length) :
    ∃ w, putAll vs s = .raise w ∧ w.faultLog = s.faultLog := ⟨_, putAll_overflow vs s hd h, rfl⟩

/-! ### One iteration -/

/-- What an iteration of a scan loop does after its search: pass one position, or emit the sequence of the working registers
and pass its match. -/
inductive Plan where
  | skip (m : State)
  | emit (m : State)

/-- The state the search leaves. -/
def Plan.state : Plan → State
  | .skip m => m
  | .emit m => m

/-- The iteration as pseudocode. -/
def Plan.run : Plan → Run
  | .skip m => .go { m with wk := { m.wk with si := m.wk.si + 1 } }
  | .emit m => (emitSeq m).andThen advanceMatch

/-- The bytes of the sequence in the working registers. -/
def State.sequenceBytes (m : State) : List Byte := seqBytes (m.literals m.wk.litLen) m.wk.off m.wk.matchLen

/-- The bytes an iteration emits. -/
def Plan.bytes : Plan → List Byte
  | .skip _ => []
  | .emit m => m.sequenceBytes

/-- The state an iteration leaves when its bytes fit. -/
def Plan.next : Plan → State
  | .skip m => { m with wk := { m.wk with si := m.wk.si + 1 } }
  | .emit m => { m.emitted m.sequenceBytes with wk := { (m.emitted m.sequenceBytes).wk with
      si := m.wk.si + m.wk.matchLen, anchor := m.wk.si + m.wk.matchLen } }

def Plan.withCap (c : Nat) : Plan → Plan
  | .skip m => .skip (m.withCap c)
  | .emit m => .emit (m.withCap c)

theorem Plan.next_withCap (c : Nat) (p : Plan) : (p.withCap c).next = p.next.withCap c := by
  cases p <;> rfl

theorem Plan.next_di (p : Plan) : p.next.wk.di = p.state.wk.di + p.bytes.length := by
  cases p <;> rfl

theorem Plan.next_cap (p : Plan) : p.next.wk.cap = p.state.wk.cap := by
  cases p <;> rfl

theorem Plan.next_faultLog (p : Plan) : p.next.faultLog = p.state.faultLog := by
  cases p <;> rfl

theorem Plan.run_fits {p : Plan} (h : p.state.wk.di + p.bytes.length ≤ p.state.wk.cap) : p.run = .go p.next := by
  cases p with
  | skip m => rfl
  | emit m =>
    have he : emitSeq m = .go (m.emitted m.sequenceBytes) := putAll_fits _ m h
    rw [Plan.run, he]
    rfl

theorem Plan.run_overflow {p : Plan} (hd : p.state.wk.di ≤ p.state.wk.cap)
    (h : p.state.wk.cap < p.state.wk.di + p.bytes.length) : ∃ w, p.run = .raise w ∧ w.faultLog = p.state.faultLog := by
  cases p with
  | skip m => exact absurd h (Nat.not_lt.mpr hd)
  | emit m =>
    obtain ⟨w, he, hlog⟩ := putAll_raises (vs := m.sequenceBytes) hd h
    have hemit : emitSeq m = .raise w := he
    exact ⟨w, by rw [Plan.run, hemit, Run.andThen_raise], hlog⟩

/-! ### The loop -/

/-- A scan loop of at most `fuel` iterations (R142, R171). -/
def scanLoop (plan : State → Plan) (fuel : Nat) (s : State) : Run :=
  match fuel with
  | 0 => .go s
  | k + 1 => if s.wk.si < s.wk.sn then (plan s).run.andThen (scanLoop plan k) else .go s

/-- What the loop leaves when no byte is refused. -/
def scanEnd (plan : State → Plan) (fuel : Nat) (s : State) : State :=
  match fuel with
  | 0 => s
  | k + 1 => if s.wk.si < s.wk.sn then scanEnd plan k (plan s).next else s

/-- A search changes none of what the packer and the loop go by: DST, the cursors, the latched operands, the fault log, the
source, and which bytes of DST the host is owed. -/
structure Prepared (s m : State) : Prop where
  dst : m.dst = s.dst
  src : m.src = s.src
  faultLog : m.faultLog = s.faultLog
  hides : m.unseen.hides = s.unseen.hides
  n : m.wk.n = s.wk.n
  cap : m.wk.cap = s.wk.cap
  sn : m.wk.sn = s.wk.sn
  si : m.wk.si = s.wk.si
  di : m.wk.di = s.wk.di
  anchor : m.wk.anchor = s.wk.anchor

theorem prepared_refl (s : State) : Prepared s s := ⟨rfl, rfl, rfl, rfl, rfl, rfl, rfl, rfl, rfl, rfl⟩

theorem Prepared.trans {s t u : State} (h : Prepared s t) (k : Prepared t u) : Prepared s u :=
  ⟨k.dst.trans h.dst, k.src.trans h.src, k.faultLog.trans h.faultLog, k.hides.trans h.hides, k.n.trans h.n,
    k.cap.trans h.cap, k.sn.trans h.sn, k.si.trans h.si, k.di.trans h.di, k.anchor.trans h.anchor⟩

/-- An encoder's plan: its search prepares, whatever the capacity; a sequence it emits has the literals since `anchor` and a
match of at least MIN_MATCH bytes that ends at most `slack` past `sn`. -/
structure GoodPlan (slack : Nat) (plan : State → Plan) : Prop where
  prepared : ∀ s, Prepared s (plan s).state
  measured : ∀ s m, s.wk.si < s.wk.sn → plan s = .emit m →
    m.wk.litLen = m.wk.si - m.wk.anchor ∧ 4 ≤ m.wk.matchLen ∧ m.wk.si + m.wk.matchLen ≤ m.wk.sn + slack
  withCap : ∀ c s, plan (s.withCap c) = (plan s).withCap c

section Loop
variable {slack : Nat} {plan : State → Plan} (good : GoodPlan slack plan)
include good

theorem scanEnd_withCap (c k : Nat) (s : State) : scanEnd plan k (s.withCap c) = (scanEnd plan k s).withCap c := by
  induction k generalizing s with
  | zero => rfl
  | succ k ih =>
    by_cases h : s.wk.si < s.wk.sn
    · have h' : (s.withCap c).wk.si < (s.withCap c).wk.sn := h
      rw [scanEnd, scanEnd, if_pos h, if_pos h', good.withCap, Plan.next_withCap, ih]
    · have h' : ¬ (s.withCap c).wk.si < (s.withCap c).wk.sn := h
      rw [scanEnd, scanEnd, if_neg h, if_neg h']

/-- The destination cursor never goes back. -/
theorem di_le_scanEnd (k : Nat) (s : State) : s.wk.di ≤ (scanEnd plan k s).wk.di := by
  induction k generalizing s with
  | zero => exact Nat.le_refl _
  | succ k ih =>
    rw [scanEnd]
    split
    · have hdi := (plan s).next_di
      rw [(good.prepared s).di] at hdi
      have := ih (plan s).next
      omega
    · exact Nat.le_refl _

/-- With room for everything it emits, the loop comes to its end. -/
theorem scanLoop_fits {k : Nat} {s : State} (h : (scanEnd plan k s).wk.di ≤ s.wk.cap) :
    scanLoop plan k s = .go (scanEnd plan k s) := by
  induction k generalizing s with
  | zero => rfl
  | succ k ih =>
    have prep := good.prepared s
    rw [scanEnd] at h ⊢
    rw [scanLoop]
    split
    · rw [if_pos ‹_›] at h
      have hroom : (plan s).next.wk.di ≤ s.wk.cap := (di_le_scanEnd good k _).trans h
      rw [Plan.next_di, ← prep.cap] at hroom
      rw [Plan.run_fits hroom, Run.andThen_go]
      refine ih ?_
      rw [Plan.next_cap, prep.cap]
      exact h
    · rfl

/-- Without that room, an emission raises. -/
theorem scanLoop_overflow {k : Nat} {s : State} (hd : s.wk.di ≤ s.wk.cap) (h : s.wk.cap < (scanEnd plan k s).wk.di) :
    ∃ w, scanLoop plan k s = .raise w ∧ w.faultLog = s.faultLog := by
  induction k generalizing s with
  | zero => exact absurd h (Nat.not_lt.mpr hd)
  | succ k ih =>
    have prep := good.prepared s
    rw [scanEnd] at h
    rw [scanLoop]
    split
    · rw [if_pos ‹_›] at h
      by_cases hroom : (plan s).state.wk.di + (plan s).bytes.length ≤ (plan s).state.wk.cap
      · have hcap : (plan s).next.wk.cap = s.wk.cap := (Plan.next_cap _).trans prep.cap
        obtain ⟨w, hw, hlog⟩ := ih (s := (plan s).next) (by rw [Plan.next_di, Plan.next_cap]; exact hroom)
          (by rw [hcap]; exact h)
        refine ⟨w, by rw [Plan.run_fits hroom, Run.andThen_go, hw], ?_⟩
        rw [hlog, Plan.next_faultLog, prep.faultLog]
      · obtain ⟨w, hw, hlog⟩ := Plan.run_overflow (p := plan s) (by rw [prep.di, prep.cap]; exact hd) (by omega)
        exact ⟨w, by rw [hw, Run.andThen_raise], hlog.trans prep.faultLog⟩
    · rw [if_neg ‹_›] at h
      exact absurd h (Nat.not_lt.mpr hd)

/-- Every iteration moves `si` on, so `sn - si` of them reach `sn`. -/
theorem sn_le_scanEnd_si {k : Nat} {s : State} (h : s.wk.sn ≤ s.wk.si + k) : s.wk.sn ≤ (scanEnd plan k s).wk.si := by
  induction k generalizing s with
  | zero => exact h
  | succ k ih =>
    rw [scanEnd]
    split
    · have prep := good.prepared s
      have hnext : (plan s).next.wk.sn = s.wk.sn ∧ s.wk.si + 1 ≤ (plan s).next.wk.si := by
        cases hp : plan s with
        | skip m =>
          rw [hp] at prep
          exact ⟨prep.sn, Nat.succ_le_succ prep.si.ge⟩
        | emit m =>
          obtain ⟨-, hlen, -⟩ := good.measured s m ‹_› hp
          rw [hp] at prep
          have hsi : m.wk.si = s.wk.si := prep.si
          exact ⟨prep.sn, show s.wk.si + 1 ≤ m.wk.si + m.wk.matchLen by omega⟩
      have := ih (s := (plan s).next) (by omega)
      omega
    · exact Nat.not_lt.mp ‹_›

end Loop

/-! ### What the loop keeps -/

/-- The scan of the command that `s` starts has come to `v`: nothing above `di` is written, nothing at all before the first
match, and the output is at most 256/255 of the source below `anchor` (R117, 44_bound.md R231). -/
structure ScanState (slack : Nat) (s v : State) : Prop where
  n : v.wk.n = s.wk.n
  cap : v.wk.cap = s.wk.cap
  sn : v.wk.sn = s.wk.n - 12
  src : v.src = s.src
  faultLog : v.faultLog = s.faultLog
  hides : v.unseen.hides = s.unseen.hides
  above : SameDstFrom v.wk.di s v
  noMatch : v.wk.anchor = 0 → v.dst = s.dst
  anchor : v.wk.anchor ≤ v.wk.si
  si : v.wk.si ≤ v.wk.sn + slack
  size : 255 * v.wk.di ≤ 256 * v.wk.anchor

theorem ScanState.prepared {slack : Nat} {s v m : State} (h : ScanState slack s v) (p : Prepared v m) :
    ScanState slack s m where
  n := p.n.trans h.n
  cap := p.cap.trans h.cap
  sn := p.sn.trans h.sn
  src := p.src.trans h.src
  faultLog := p.faultLog.trans h.faultLog
  hides := p.hides.trans h.hides
  above := fun a ha => (dstByte_congr p.dst a).trans (h.above a (p.di ▸ ha))
  noMatch := fun ha => p.dst.trans (h.noMatch (p.anchor ▸ ha))
  anchor := by rw [p.anchor, p.si]; exact h.anchor
  si := by rw [p.si, p.sn]; exact h.si
  size := by rw [p.di, p.anchor]; exact h.size

/-- A sequence has at most 256/255 of the bytes it stands for (R87, R113). -/
theorem seqBytes_length_le (lit : List Byte) (off : Nat) {len : Nat} (h : 4 ≤ len) :
    255 * (seqBytes lit off len).length ≤ 256 * (lit.length + len) := by
  simp only [seqBytes, List.length_cons, List.length_append, offsetBytes_length, lenExt_length, Config.minMatch]
  split <;> split <;> omega

theorem sequenceBytes_length_le {m : State} (h : 4 ≤ m.wk.matchLen) :
    255 * m.sequenceBytes.length ≤ 256 * (m.wk.litLen + m.wk.matchLen) := by
  have := seqBytes_length_le (m.literals m.wk.litLen) m.wk.off h
  rwa [State.literals, bytesFrom_length] at this

/-- Emitted bytes stand below the new `di`. -/
theorem sameDst_emitted (vs : List Byte) (m : State) : SameDstFrom (m.wk.di + vs.length) m (m.emitted vs) := fun a ha => by
  rw [dstByte_emitted, dif_neg (by omega)]

section Loop
variable {slack : Nat} {plan : State → Plan} (good : GoodPlan slack plan)
include good

theorem ScanState.next {s v : State} (h : ScanState slack s v) (hlt : v.wk.si < v.wk.sn) :
    ScanState slack s (plan v).next := by
  have prep := good.prepared v
  cases hp : plan v with
  | skip m =>
    rw [hp] at prep
    have hm : ScanState slack s m := h.prepared prep
    have hsi : m.wk.si < m.wk.sn := prep.si.trans_lt (hlt.trans_eq prep.sn.symm)
    exact ⟨hm.n, hm.cap, hm.sn, hm.src, hm.faultLog, hm.hides, hm.above, hm.noMatch, Nat.le_succ_of_le hm.anchor,
      show m.wk.si + 1 ≤ m.wk.sn + slack by omega, hm.size⟩
  | emit m =>
    obtain ⟨hlit, hlen, hend⟩ := good.measured v m hlt hp
    rw [hp] at prep
    have hm : ScanState slack s m := h.prepared prep
    have hsize := sequenceBytes_length_le hlen
    have hanchor := hm.anchor
    have hold := hm.size
    refine ⟨hm.n, hm.cap, hm.sn, hm.src, hm.faultLog, hm.hides, fun a ha => ?_, fun hz => ?_, Nat.le_refl _, hend, ?_⟩
    · exact (sameDst_emitted m.sequenceBytes m a ha).trans (hm.above a (Nat.le_of_add_right_le ha))
    · exact absurd hz (show m.wk.si + m.wk.matchLen ≠ 0 by omega)
    · show 255 * (m.wk.di + m.sequenceBytes.length) ≤ 256 * (m.wk.si + m.wk.matchLen)
      omega

theorem ScanState.scanEnd {s v : State} (h : ScanState slack s v) (k : Nat) :
    ScanState slack s (scanEnd plan k v) := by
  induction k generalizing v with
  | zero => exact h
  | succ k ih =>
    rw [Machine.scanEnd]
    split
    · exact ih (h.next good ‹_›)
    · exact h

end Loop

/-- The start of the scan, whatever the HC tables and the budget are. -/
theorem scanState_start {slack : Nat} {s v : State} (hdst : v.dst = s.dst) (hsrc : v.src = s.src)
    (hlog : v.faultLog = s.faultLog) (hu : v.unseen = s.unseen) (hn : v.wk.n = s.wk.n) (hcap : v.wk.cap = s.wk.cap)
    (hsn : v.wk.sn = s.wk.n - 12) (hsi : v.wk.si = 0) (hdi : v.wk.di = 0) (hanchor : v.wk.anchor = 0) :
    ScanState slack s v where
  n := hn
  cap := hcap
  sn := hsn
  src := hsrc
  faultLog := hlog
  hides := by rw [hu]
  above := fun a _ => dstByte_congr hdst a
  noMatch := fun _ => hdst
  anchor := by rw [hanchor]; exact Nat.zero_le _
  si := by rw [hsi]; exact Nat.zero_le _
  size := by rw [hdi]; exact Nat.zero_le _

/-- What a scan leaves fits every capacity of BOUND(n) or more (44_bound.md R231). -/
theorem ScanState.di_le_bound {slack : Nat} {s v : State} (h : ScanState slack s v) (hs : slack ≤ 12) (hn : 12 < s.wk.n) :
    v.wk.di ≤ s.wk.n + s.wk.n / 255 := by
  have h1 := h.size
  have h2 := h.anchor
  have h3 := h.si
  have h4 := h.sn
  omega

/-! ### Finish (R115) -/

/-- The state with the literal length of the final sequence. -/
def State.lastMeasured (v : State) : State := { v with wk := { v.wk with litLen := v.wk.n - v.wk.anchor } }

/-- The state after the final header. -/
def State.headed (v : State) : State := v.lastMeasured.emitted (lastHeader (v.wk.n - v.wk.anchor))

/-- The state after the last literals. -/
def State.finished (v : State) : State :=
  v.headed.emitted (bytesFrom v.srcByte v.wk.anchor (v.wk.n - v.wk.anchor))

/-- The bytes of output with the final header (`S` and `Hd` of R116). -/
def State.headedLength (v : State) : Nat := v.wk.di + (lastHeader (v.wk.n - v.wk.anchor)).length

theorem finish_of_noMatch {v : State} (h : v.wk.anchor = 0) : finish v = .ret 0 v := by
  rw [finish, if_pos h]

theorem finish_of_headed {v : State} (h : v.wk.anchor ≠ 0) (hfit : v.headedLength ≤ v.wk.cap) :
    finish v = finishLiterals v.headed := by
  rw [finish, if_neg h]
  have he : emitLastHeader v.lastMeasured = .go v.headed := putAll_fits _ _ hfit
  exact congrArg (Run.andThen · finishLiterals) he

theorem finish_header_overflow {v : State} (h : v.wk.anchor ≠ 0) (hd : v.wk.di ≤ v.wk.cap)
    (hfull : v.wk.cap < v.headedLength) : ∃ w, finish v = .raise w ∧ w.faultLog = v.faultLog := by
  rw [finish, if_neg h]
  obtain ⟨w, he, hlog⟩ := putAll_raises (s := v.lastMeasured) hd hfull
  exact ⟨w, congrArg (Run.andThen · finishLiterals) he, hlog⟩

theorem finishLiterals_of_reached {v : State} (h : v.wk.anchor ≤ v.headedLength) :
    finishLiterals v.headed = .incompressible v.headed := by
  rw [finishLiterals]
  exact if_pos h

theorem finishLiterals_fits {v : State} (h : v.headedLength < v.wk.anchor)
    (hfit : v.headedLength + (v.wk.n - v.wk.anchor) ≤ v.wk.cap) :
    finishLiterals v.headed = .ret (v.headedLength + (v.wk.n - v.wk.anchor)) v.finished := by
  rw [finishLiterals, if_neg (show ¬ v.headed.wk.anchor ≤ v.headed.wk.di from Nat.not_le.mpr h)]
  have he : emitLastLiterals v.headed = .go v.finished :=
    putAll_fits (bytesFrom v.srcByte v.wk.anchor (v.wk.n - v.wk.anchor)) v.headed (by rw [bytesFrom_length]; exact hfit)
  rw [he, Run.andThen_go, show v.finished.wk.di = _ from congrArg (v.headedLength + ·) (bytesFrom_length _ _ _)]

theorem finishLiterals_overflow {v : State} (h : v.headedLength < v.wk.anchor) (hd : v.headedLength ≤ v.wk.cap)
    (hfull : v.wk.cap < v.headedLength + (v.wk.n - v.wk.anchor)) :
    ∃ w, finishLiterals v.headed = .raise w ∧ w.faultLog = v.faultLog := by
  rw [finishLiterals, if_neg (show ¬ v.headed.wk.anchor ≤ v.headed.wk.di from Nat.not_le.mpr h)]
  obtain ⟨w, he, hlog⟩ := putAll_raises (vs := bytesFrom v.srcByte v.wk.anchor (v.wk.n - v.wk.anchor)) (s := v.headed) hd
    (by rw [bytesFrom_length]; exact hfull)
  exact ⟨w, congrArg (Run.andThen · fun t => .ret t.wk.di t) he, hlog⟩

/-- The whole output is what the scan emitted, the header and the literals. -/
theorem output_finished (v : State) :
    bytesFrom v.finished.dstByte 0 (v.headedLength + (v.wk.n - v.wk.anchor)) =
      bytesFrom v.dstByte 0 v.wk.di ++ lastHeader (v.wk.n - v.wk.anchor) ++
        bytesFrom v.srcByte v.wk.anchor (v.wk.n - v.wk.anchor) := by
  have hlit := output_emitted (bytesFrom v.srcByte v.wk.anchor (v.wk.n - v.wk.anchor)) v.headed
  rw [bytesFrom_length] at hlit
  exact hlit.trans (congrArg (· ++ _) (output_emitted (lastHeader (v.wk.n - v.wk.anchor)) v.lastMeasured))

/-- Finish writes nothing above the byte count. -/
theorem sameDst_finished (v : State) : SameDstFrom (v.headedLength + (v.wk.n - v.wk.anchor)) v v.finished := fun a ha => by
  have hlit := sameDst_emitted (bytesFrom v.srcByte v.wk.anchor (v.wk.n - v.wk.anchor)) v.headed
  rw [bytesFrom_length] at hlit
  exact (hlit a ha).trans (sameDst_emitted (lastHeader (v.wk.n - v.wk.anchor))
    v.lastMeasured a (Nat.le_of_add_right_le ha))

/-! ### The outcome (R116) -/

theorem completed_of_faultLog {s v : State} (h : v.faultLog = s.faultLog) (e : Err) (r lim : Nat) :
    Completed e r s (v.complete e r lim) := ⟨rfl, rfl, rfl, congrArg (logErr · e) h, rfl⟩

theorem completed_raise {s w : State} (h : w.faultLog = s.faultLog) :
    Completed .invalidSourceShortBuffer 0 s (Run.raise w).settle := completed_of_faultLog (v := w.forgetDst) h _ 0 _

/-- How an encode ends: with a byte count within `cap`, or with InvalidSourceShortBuffer. -/
def EncodeEnds (s t : State) : Prop :=
  (∃ r, r ≤ s.wk.cap ∧ Completed .ok r s t ∧ (r ≠ 0 → SameDstFrom r s t ∧ HidesBelow r s t)) ∨
    Completed .invalidSourceShortBuffer 0 s t

theorem encodeEnds_zero {s t : State} (h : Completed .ok 0 s t) : EncodeEnds s t :=
  .inl ⟨0, Nat.zero_le _, h, fun h0 => absurd rfl h0⟩

section Outcome
variable {s v t : State} (hn : v.wk.n = s.wk.n)
include hn

/-- R116's outcome with the length of the output and the final header in one piece. -/
theorem encodeOutcome_iff : EncodeOutcome s v t ↔
    (v.wk.anchor = 0 → Completed .ok 0 s t ∧ SameDst s t) ∧
    (v.wk.anchor ≠ 0 → s.wk.cap < v.headedLength → Completed .invalidSourceShortBuffer 0 s t) ∧
    (v.wk.anchor ≠ 0 → v.headedLength ≤ s.wk.cap → v.wk.anchor ≤ v.headedLength → Completed .ok 0 s t) ∧
    (v.headedLength < v.wk.anchor → v.headedLength ≤ s.wk.cap →
      s.wk.cap < v.headedLength + (v.wk.n - v.wk.anchor) → Completed .invalidSourceShortBuffer 0 s t) ∧
    (v.headedLength < v.wk.anchor → v.headedLength + (v.wk.n - v.wk.anchor) ≤ s.wk.cap →
      Completed .ok (v.headedLength + (v.wk.n - v.wk.anchor)) s t ∧
        bytesFrom t.dstByte 0 (v.headedLength + (v.wk.n - v.wk.anchor)) =
          bytesFrom v.dstByte 0 v.wk.di ++ lastHeader (v.wk.n - v.wk.anchor) ++
            bytesFrom s.srcByte v.wk.anchor (v.wk.n - v.wk.anchor)) := by
  simp only [EncodeOutcome, bytesFrom_length, State.headedLength, hn]

theorem encode_noMatch (hzero : v.wk.anchor = 0) (hc : Completed .ok 0 s t) (hd : SameDst s t) :
    EncodeOutcome s v t ∧ EncodeEnds s t :=
  ⟨(encodeOutcome_iff hn).mpr ⟨fun _ => ⟨hc, hd⟩, fun k => absurd hzero k, fun k => absurd hzero k, by omega, by omega⟩,
    encodeEnds_zero hc⟩

theorem encode_short (hpos : v.wk.anchor ≠ 0) (hfull : s.wk.cap < v.headedLength ∨
      v.headedLength < v.wk.anchor ∧ s.wk.cap < v.headedLength + (v.wk.n - v.wk.anchor))
    (hc : Completed .invalidSourceShortBuffer 0 s t) : EncodeOutcome s v t ∧ EncodeEnds s t :=
  ⟨(encodeOutcome_iff hn).mpr ⟨fun k => absurd k hpos, fun _ _ => hc, by omega, fun _ _ _ => hc, by omega⟩, .inr hc⟩

theorem encode_reached (hpos : v.wk.anchor ≠ 0) (hfit : v.headedLength ≤ s.wk.cap)
    (hreach : v.wk.anchor ≤ v.headedLength) (hc : Completed .ok 0 s t) : EncodeOutcome s v t ∧ EncodeEnds s t :=
  ⟨(encodeOutcome_iff hn).mpr ⟨fun k => absurd k hpos, by omega, fun _ _ _ => hc, by omega, by omega⟩,
    encodeEnds_zero hc⟩

end Outcome

section Outcome
variable {slack : Nat} {s v : State} (h : ScanState slack s v)
include h

/-- The whole output fits: its bytes are written, are owed to the host, and nothing above them changes. -/
theorem encode_whole (hlt : v.headedLength < v.wk.anchor)
    (hfit : v.headedLength + (v.wk.n - v.wk.anchor) ≤ s.wk.cap) :
    EncodeOutcome s v (Run.ret (v.headedLength + (v.wk.n - v.wk.anchor)) v.finished).settle ∧
      EncodeEnds s (Run.ret (v.headedLength + (v.wk.n - v.wk.anchor)) v.finished).settle := by
  have hc : Completed .ok (v.headedLength + (v.wk.n - v.wk.anchor)) s
      (Run.ret (v.headedLength + (v.wk.n - v.wk.anchor)) v.finished).settle :=
    completed_of_faultLog (v := v.finished) h.faultLog _ _ _
  have hout := output_finished v
  rw [srcByte_congr_fun h.src] at hout
  refine ⟨(encodeOutcome_iff h.n).mpr ⟨by omega, by omega, by omega, by omega, fun _ _ => ⟨hc, hout⟩⟩,
    .inl ⟨_, hfit, hc, fun _ => ⟨fun a ha => ?_, fun a => ?_⟩⟩⟩
  · exact (sameDst_finished v a ha).trans (h.above a (Nat.le_of_add_right_le (Nat.le_of_add_right_le ha)))
  · rw [Run.settle_ret, complete_unseen, Unseen.hides_ended, ← congrFun h.hides a]
    rfl

/-- R115 and R116 for a scan whose bytes fit. -/
theorem finish_outcome (hscan : v.wk.di ≤ s.wk.cap) :
    EncodeOutcome s v (finish v).settle ∧ EncodeEnds s (finish v).settle := by
  have hcap := h.cap
  by_cases hzero : v.wk.anchor = 0
  · rw [finish_of_noMatch hzero]
    exact encode_noMatch h.n hzero (completed_of_faultLog h.faultLog _ _ _) fun a => dstByte_congr (h.noMatch hzero) a
  · by_cases hhead : v.headedLength ≤ s.wk.cap
    · rw [finish_of_headed hzero (hcap ▸ hhead)]
      by_cases hreach : v.wk.anchor ≤ v.headedLength
      · rw [finishLiterals_of_reached hreach]
        exact encode_reached h.n hzero hhead hreach (completed_of_faultLog (v := v.headed.forgetDst) h.faultLog _ _ _)
      · by_cases hall : v.headedLength + (v.wk.n - v.wk.anchor) ≤ s.wk.cap
        · rw [finishLiterals_fits (Nat.not_le.mp hreach) (hcap ▸ hall)]
          exact encode_whole h (Nat.not_le.mp hreach) hall
        · obtain ⟨w, hw, hlog⟩ := finishLiterals_overflow (v := v) (by omega) (by omega) (by omega)
          rw [hw]
          exact encode_short h.n hzero (by omega) (completed_raise (hlog.trans h.faultLog))
    · obtain ⟨w, hw, hlog⟩ := finish_header_overflow hzero (by omega) (by omega)
      rw [hw]
      exact encode_short h.n hzero (by omega) (completed_raise (hlog.trans h.faultLog))

/-- R116 for a scan that comes to `v` when its bytes fit and raises when they do not. -/
theorem encode_outcome {m : Run} (fits : v.wk.di ≤ s.wk.cap → m = .go v)
    (overflow : s.wk.cap < v.wk.di → ∃ w, m = .raise w ∧ w.faultLog = s.faultLog) :
    EncodeOutcome s v (m.andThen finish).settle ∧ EncodeEnds s (m.andThen finish).settle := by
  by_cases hscan : v.wk.di ≤ s.wk.cap
  · rw [fits hscan, Run.andThen_go]
    exact finish_outcome h hscan
  · obtain ⟨w, hw, hlog⟩ := overflow (Nat.not_le.mp hscan)
    have hsize := h.size
    have hlong : s.wk.cap < v.headedLength := (Nat.not_le.mp hscan).trans_le (Nat.le_add_right _ _)
    rw [hw, Run.andThen_raise]
    exact encode_short h.n (by omega) (.inl hlong) (completed_raise hlog)

end Outcome

/-- The loop with any capacity of BOUND(n) or more comes to its end, between `sn` and `sn + slack`, and what it leaves
decides the outcome at the capacity of the command. -/
theorem scan_decides {slack : Nat} {plan : State → Plan} (good : GoodPlan slack plan) (hs : slack ≤ 12) {s v : State}
    (hn : 12 < s.wk.n) (h : ScanState slack s v) (hd : v.wk.di = 0) :
    EncodeEnds s ((scanLoop plan (s.wk.n - 12) v).andThen finish).settle ∧
    ∀ big, s.wk.n + s.wk.n / 255 + 16 ≤ big → ∃ u, scanLoop plan (s.wk.n - 12) (v.withCap big) = .go u ∧
      s.wk.n - 12 ≤ u.wk.si ∧ u.wk.si ≤ s.wk.n - 12 + slack ∧
      EncodeOutcome s u ((scanLoop plan (s.wk.n - 12) v).andThen finish).settle := by
  have hend := h.scanEnd good (s.wk.n - 12)
  have hout := encode_outcome hend (m := scanLoop plan (s.wk.n - 12) v)
    (fun hfit => scanLoop_fits good (h.cap ▸ hfit)) fun hfull => by
      obtain ⟨w, hw, hlog⟩ := scanLoop_overflow good (s := v) (by omega) (h.cap ▸ hfull)
      exact ⟨w, hw, hlog.trans h.faultLog⟩
  refine ⟨hout.2, fun big hbig => ⟨(scanEnd plan (s.wk.n - 12) v).withCap big, ?_, ?_, ?_, hout.1⟩⟩
  · have hdi := hend.di_le_bound hs hn
    rw [scanLoop_fits good, scanEnd_withCap good]
    rw [scanEnd_withCap good]
    exact hdi.trans (by simp only [withCap_wk]; omega)
  · have := sn_le_scanEnd_si good (k := s.wk.n - 12) (s := v) (by rw [h.sn]; omega)
    rwa [h.sn] at this
  · have := hend.si
    rwa [hend.sn] at this

end Sys2Proof.Machine
end

section
/-! PROOFS about the state, third part: the plans of COMPRESS_FAST (41_fast_encoder.md R142 to R146) and COMPRESS_HC
(42_hc_encoder.md R174 to R178), and what each command completes with. -/

namespace Sys2Proof.Machine

/-! ### The plan of COMPRESS_FAST -/

/-- An iteration of COMPRESS_FAST: the lookup, then the emission of an accepted match or the next position. -/
def fastPlan (s : State) : Plan :=
  if fastAccepts (fastLookup s) then .emit (fastMeasure (fastLookup s)) else .skip (fastLookup s)

theorem fastTake_eq_run (s : State) : fastTake (fastLookup s) = (fastPlan s).run := by
  unfold fastTake fastPlan
  split <;> rfl

theorem fastScan_eq_scanLoop (k : Nat) (s : State) : fastScan k s = scanLoop fastPlan k s := by
  induction k generalizing s with
  | zero => rfl
  | succ k ih => rw [fastScan, scanLoop, fastTake_eq_run, funext ih]

theorem prepared_fastLookup (s : State) : Prepared s (fastLookup s) :=
  ⟨rfl, rfl, rfl, rfl, rfl, rfl, rfl, rfl, rfl, rfl⟩

/-- R144: the match has at least MIN_MATCH bytes, and it ends at `sn` or, with just these, up to 3 bytes beyond. -/
theorem fastMatchEnd_bounds {s : State} (h : s.wk.si < s.wk.sn) :
    s.wk.si + 4 ≤ fastMatchEnd s ∧ fastMatchEnd s ≤ s.wk.sn + 3 := by
  simp only [fastMatchEnd, Config.minMatch, State.commonLen]
  split
  · have := commonLen_le s.srcByte (s.wk.si + 4) (s.wk.si + 4 - s.wk.off) (s.wk.sn - (s.wk.si + 4))
    omega
  · omega

theorem goodPlan_fast : GoodPlan 3 fastPlan where
  prepared s := by
    unfold fastPlan
    split
    · exact ⟨rfl, rfl, rfl, rfl, rfl, rfl, rfl, rfl, rfl, rfl⟩
    · exact prepared_fastLookup s
  measured s m hlt hp := by
    unfold fastPlan at hp
    split at hp <;> cases hp
    obtain ⟨hmin, hmax⟩ := fastMatchEnd_bounds (s := fastLookup s) hlt
    refine ⟨rfl, ?_, ?_⟩
    · exact Nat.le_sub_of_add_le' hmin
    · exact (Nat.add_sub_cancel' (Nat.le_of_add_right_le hmin)).trans_le hmax
  withCap c s := by
    unfold fastPlan
    rw [apply_ite (Plan.withCap c)]
    rfl

/-! ### COMPRESS_FAST completes -/

/-- The start of COMPRESS_FAST's scan (R142). -/
theorem scanState_startScan (s : State) : ScanState 3 s s.startScan :=
  scanState_start rfl rfl rfl rfl rfl rfl rfl rfl rfl rfl

theorem tooShort_iff (s : State) : s.tooShort = true ↔ ¬ (12 < s.wk.n ∧ 0 < s.wk.cap) := by
  simp only [State.tooShort, Config.mfLimit, Bool.or_eq_true, decide_eq_true_eq]
  omega

/-- What the final test and a completion leave of DST at `cap` and above. -/
theorem sameDst_settle {s : State} {m : Run} (h : m.All (ScanFrame s)) : SameDstFrom s.wk.cap s m.settle :=
  Run.settle_of_all h (fun _ f => f.enc.dst) (fun _ _ f => f.enc.dst)
    (fun t f a ha => (sameDst_forgetDst t a (f.enc.cap ▸ ha)).trans (f.enc.dst a ha))
    (fun t f a ha => (sameDst_raiseShort t a (f.enc.cap ▸ ha)).trans (f.enc.dst a ha))

/-- COMPRESS_FAST leaves the HC tables alone, its completion included. -/
theorem sameHc_settle_fastRun (s : State) : SameHc s (fastRun s).settle :=
  Run.settle_of_all (sameHc_fastRun s) (fun _ h => h) (fun _ _ h => h) (fun _ h => h) (fun _ h => h)

/-- COMPRESS_HC leaves HT_F alone, its completion included. -/
theorem sameFast_settle_hcRun (s : State) : SameFast s (hcRun s).settle :=
  Run.settle_of_all (sameFast_hcRun s) (fun _ h => h) (fun _ _ h => h) (fun _ h => h) (fun _ h => h)

theorem fastRun_of_short {s : State} (h : s.tooShort = true) : fastRun s = .ret 0 s := by
  rw [fastRun, if_pos h]

theorem fastRun_of_long {s : State} (h : ¬ s.tooShort = true) :
    fastRun s = (scanLoop fastPlan (s.wk.n - 12) s.startScan).andThen finish := by
  rw [fastRun, if_neg h, fastScan_eq_scanLoop]
  rfl

/-- Both halves of R116 for COMPRESS_FAST: how it ends, and past the early return the outcome its scan decides. -/
theorem fastRun_outcome (s : State) : EncodeEnds s (fastRun s).settle ∧
    (12 < s.wk.n → 0 < s.wk.cap → ∀ big, s.wk.n + s.wk.n / 255 + 16 ≤ big →
      ∃ u, fastScan (s.wk.n - 12) (s.withCap big).startScan = .go u ∧
        s.wk.n - 12 ≤ u.wk.si ∧ u.wk.si ≤ s.wk.n - 12 + 3 ∧ EncodeOutcome s u (fastRun s).settle) := by
  by_cases hshort : s.tooShort = true
  · rw [fastRun_of_short hshort]
    exact ⟨encodeEnds_zero (completed_complete _ _ _ s), fun hn hc => absurd ⟨hn, hc⟩ ((tooShort_iff s).mp hshort)⟩
  · obtain ⟨hn, -⟩ : 12 < s.wk.n ∧ 0 < s.wk.cap := not_not.mp (mt (tooShort_iff s).mpr hshort)
    obtain ⟨hends, hscan⟩ := scan_decides goodPlan_fast (by decide) hn (scanState_startScan s) rfl
    rw [fastRun_of_long hshort]
    refine ⟨hends, fun _ _ big hbig => ?_⟩
    rw [fastScan_eq_scanLoop]
    exact hscan big hbig

theorem exec_compressFast_of_fits {s : State} (hn : s.wk.n ≤ s.cfg.maxSrcLen) (hc : s.wk.cap ≤ s.cfg.maxDstCap) :
    exec .compressFast s = .next (fastRun s).settle := by
  have h : ¬ s.oversize = true := oversize_eq_false.mpr ⟨hn, hc⟩
  simp only [exec, execCompressFast, if_neg h]

/-- Settles O22: the loop is the shared scan loop with the plan of COMPRESS_FAST. -/
theorem compressFastCompletes : Obligations.CompressFastCompletes := by
  refine ⟨fun k v => ⟨fun h => ?_, fun h => ?_⟩, fun s hn hc => ?_⟩
  · rw [fastScan, if_pos h, fastTake]
    rfl
  · cases k with
    | zero => rfl
    | succ k => rw [fastScan, if_neg (Nat.not_lt.mpr h)]
  · have frame := scanFrame_fastRun s
    obtain ⟨hends, hscan⟩ := fastRun_outcome s
    obtain ⟨hhtH, hct⟩ := sameHc_settle_fastRun s
    exact ⟨_, exec_compressFast_of_fits hn hc, Run.hostSide_settle (frame.mono fun _ f => f.enc.host),
      sameDst_settle frame, hhtH, hct, hends, hscan⟩

/-! ### The plan of COMPRESS_HC -/

/-- An iteration of COMPRESS_HC: the search with the insertion of `si`, then the next position, or the insertion of the
match's interior and the emission. -/
def hcPlan (s : State) : Plan :=
  if (hcSearch s).wk.bestLen = 0 then .skip (hcSearch s) else .emit (hcMeasured (hcInsertMatch (hcSearch s)))

theorem hcTake_eq_run (s : State) : hcTake (hcSearch s) = (hcPlan s).run := by
  unfold hcPlan
  split
  · rw [hcTake, if_pos ‹_›]
    rfl
  · rw [hcTake_match ‹_›]
    rfl

theorem hcScan_eq_scanLoop (k : Nat) (s : State) : hcScan k s = scanLoop hcPlan k s := by
  induction k generalizing s with
  | zero => rfl
  | succ k ih => rw [hcScan, scanLoop, hcTake_eq_run, funext ih]

theorem prepared_hcInsert (q : Nat) (s : State) : Prepared s (hcInsert q s) :=
  ⟨rfl, rfl, rfl, rfl, rfl, rfl, rfl, rfl, rfl, rfl⟩

theorem prepared_hcCandidate (s : State) : Prepared s (hcCandidate s) := by
  unfold hcCandidate
  split
  · unfold hcMeasure
    split <;> exact ⟨rfl, rfl, rfl, rfl, rfl, rfl, rfl, rfl, rfl, rfl⟩
  · exact prepared_refl s

theorem prepared_hcFollow (k link : Nat) (s : State) : Prepared s (hcFollow k link s) :=
  ⟨rfl, rfl, rfl, rfl, rfl, rfl, rfl, rfl, rfl, rfl⟩

theorem prepared_hcWalk (k : Nat) (s : State) : Prepared s (hcWalk k s) := by
  induction k generalizing s with
  | zero => exact prepared_refl s
  | succ k ih =>
    rw [hcWalk]
    split
    · exact ((prepared_hcCandidate s).trans (prepared_hcFollow k _ _)).trans (ih _)
    · exact prepared_refl s

theorem prepared_hcLookup (s : State) : Prepared s (hcLookup s) :=
  ⟨rfl, rfl, rfl, rfl, rfl, rfl, rfl, rfl, rfl, rfl⟩

theorem prepared_hcSearch (s : State) : Prepared s (hcSearch s) :=
  ((prepared_hcLookup s).trans (prepared_hcWalk s.wk.effDepth _)).trans (prepared_hcInsert s.wk.si _)

theorem prepared_hcInsertFrom (k q : Nat) (s : State) : Prepared s (hcInsertFrom k q s) := by
  induction k generalizing q s with
  | zero => exact prepared_refl s
  | succ k ih => exact (prepared_hcInsert q s).trans (ih (q + 1) _)

theorem prepared_hcInsertMatch (s : State) : Prepared s (hcInsertMatch s) := by
  unfold hcInsertMatch
  exact prepared_hcInsertFrom _ _ s

theorem prepared_hcMeasured (s : State) : Prepared s (hcMeasured s) :=
  ⟨rfl, rfl, rfl, rfl, rfl, rfl, rfl, rfl, rfl, rfl⟩

/-- The best match so far is none, or one of at least MIN_MATCH bytes that ends at `sn` or before (R175, R181). -/
def BestFits (s : State) : Prop := s.wk.bestLen = 0 ∨ 4 ≤ s.wk.bestLen ∧ s.wk.bestLen ≤ s.wk.sn - s.wk.si

theorem bestFits_hcCandidate {s : State} (h : BestFits s) : BestFits (hcCandidate s) := by
  unfold hcCandidate
  split
  · unfold hcMeasure
    split
    · exact .inr ⟨‹_ ∧ _›.1, commonLen_le s.srcByte _ _ _⟩
    · exact h
  · exact h

theorem bestFits_hcWalk (k : Nat) {s : State} (h : BestFits s) : BestFits (hcWalk k s) := by
  induction k generalizing s with
  | zero => exact h
  | succ k ih =>
    rw [hcWalk]
    split
    · exact ih (bestFits_hcCandidate h)
    · exact h

theorem bestFits_hcSearch (s : State) : BestFits (hcSearch s) :=
  bestFits_hcWalk s.wk.effDepth (s := hcLookup s) (.inl rfl)

/-! ### The search at another capacity -/

theorem hcMeasure_withCap (c : Nat) (s : State) : hcMeasure (s.withCap c) = (hcMeasure s).withCap c := by
  unfold hcMeasure
  rw [apply_ite (State.withCap c)]
  rfl

theorem hcCandidate_withCap (c : Nat) (s : State) : hcCandidate (s.withCap c) = (hcCandidate s).withCap c := by
  unfold hcCandidate
  rw [apply_ite (State.withCap c), ← hcMeasure_withCap]
  rfl

theorem hcWalk_withCap (c k : Nat) (s : State) : hcWalk k (s.withCap c) = (hcWalk k s).withCap c := by
  induction k generalizing s with
  | zero => rfl
  | succ k ih =>
    rw [hcWalk, hcWalk, apply_ite (State.withCap c), ← ih, hcCandidate_withCap]
    rfl

theorem hcSearch_withCap (c : Nat) (s : State) : hcSearch (s.withCap c) = (hcSearch s).withCap c :=
  congrArg (hcInsert s.wk.si) (hcWalk_withCap c s.wk.effDepth (hcLookup s))

theorem hcInsertFrom_withCap (c k q : Nat) (s : State) :
    hcInsertFrom k q (s.withCap c) = (hcInsertFrom k q s).withCap c := by
  induction k generalizing q s with
  | zero => rfl
  | succ k ih => exact ih (q + 1) (hcInsert q s)

theorem hcInsertMatch_withCap (c : Nat) (s : State) : hcInsertMatch (s.withCap c) = (hcInsertMatch s).withCap c := by
  simp only [hcInsertMatch, hcInsertStart, withCap_wk, hcInsertFrom_withCap]

theorem hcMeasured_withCap (c : Nat) (s : State) : hcMeasured (s.withCap c) = (hcMeasured s).withCap c := rfl

theorem hcPlan_withCap (c : Nat) (s : State) : hcPlan (s.withCap c) = (hcPlan s).withCap c := by
  unfold hcPlan
  rw [hcSearch_withCap, hcInsertMatch_withCap, hcMeasured_withCap, withCap_wk, apply_ite (Plan.withCap c)]
  simp only [Plan.withCap]

theorem goodPlan_hc : GoodPlan 0 hcPlan where
  prepared s := by
    have hsearch := prepared_hcSearch s
    unfold hcPlan
    split
    · exact hsearch
    · exact hsearch.trans ((prepared_hcInsertMatch _).trans (prepared_hcMeasured _))
  measured s m hlt hp := by
    by_cases hnone : (hcSearch s).wk.bestLen = 0
    · rw [hcPlan, if_pos hnone] at hp
      exact Plan.noConfusion hp
    · rw [hcPlan, if_neg hnone] at hp
      obtain ⟨hmin, hmax⟩ := (bestFits_hcSearch s).resolve_left hnone
      have hsi := (prepared_hcSearch s).si
      have hsn := (prepared_hcSearch s).sn
      have hend : (hcSearch s).wk.si + (hcSearch s).wk.bestLen ≤ (hcSearch s).wk.sn := by omega
      rw [← Plan.emit.inj hp, hcMeasured_wk, hcInsertMatch_wk]
      exact ⟨rfl, hmin, hend⟩
  withCap := hcPlan_withCap

/-! ### COMPRESS_HC completes -/

/-- The start of COMPRESS_HC's scan, both HC tables zeroed (R170, R171). -/
theorem scanState_hcStart (s : State) : ScanState 0 s (hcStart s.zeroHc) :=
  scanState_start rfl rfl rfl rfl rfl rfl rfl rfl rfl rfl

theorem hcRun_of_short {s : State} (h : s.tooShort = true) : hcRun s = .ret 0 s.zeroHc := by
  rw [hcRun, if_pos h]

theorem hcRun_of_long {s : State} (h : ¬ s.tooShort = true) :
    hcRun s = (scanLoop hcPlan (s.wk.n - 12) (hcStart s.zeroHc)).andThen finish := by
  rw [hcRun, if_neg h, hcScan_eq_scanLoop]
  rfl

theorem Completed.forgetHc {e : Err} {r : Nat} {s t : State} (h : Completed e r s t) : Completed e r s t.forgetHc :=
  ⟨h.status, h.result, h.engine, h.faultLog, h.unseen⟩

theorem EncodeEnds.forgetHc {s t : State} (h : EncodeEnds s t) : EncodeEnds s t.forgetHc :=
  h.imp (fun ⟨r, hr, hc, hb⟩ => ⟨r, hr, hc.forgetHc, hb⟩) Completed.forgetHc

theorem EncodeOutcome.forgetHc {s u t : State} (h : EncodeOutcome s u t) : EncodeOutcome s u t.forgetHc := by
  obtain ⟨noMatch, short, reached, shortLiterals, whole⟩ := h
  exact ⟨fun h1 => ⟨(noMatch h1).1.forgetHc, (noMatch h1).2⟩, fun h1 h2 => (short h1 h2).forgetHc,
    fun h1 h2 h3 => (reached h1 h2 h3).forgetHc, fun h1 h2 h3 => (shortLiterals h1 h2 h3).forgetHc,
    fun h1 h2 => ⟨(whole h1 h2).1.forgetHc, (whole h1 h2).2⟩⟩

/-- Both halves of R116 for COMPRESS_HC, whose matches end at `sn` at the latest (R181). -/
theorem hcRun_outcome (s : State) : EncodeEnds s (hcRun s).settle ∧
    (12 < s.wk.n → 0 < s.wk.cap → ∀ big, s.wk.n + s.wk.n / 255 + 16 ≤ big →
      ∃ u, hcScan (s.wk.n - 12) (hcStart (s.withCap big).zeroHc) = .go u ∧ u.wk.si = s.wk.n - 12 ∧
        EncodeOutcome s u (hcRun s).settle) := by
  by_cases hshort : s.tooShort = true
  · rw [hcRun_of_short hshort]
    have hc : Completed .ok 0 s (Run.ret 0 s.zeroHc).settle := completed_of_faultLog (s := s) (v := s.zeroHc) rfl _ _ _
    exact ⟨encodeEnds_zero hc, fun hn hc => absurd ⟨hn, hc⟩ ((tooShort_iff s).mp hshort)⟩
  · obtain ⟨hn, -⟩ : 12 < s.wk.n ∧ 0 < s.wk.cap := not_not.mp (mt (tooShort_iff s).mpr hshort)
    obtain ⟨hends, hscan⟩ := scan_decides goodPlan_hc (by decide) hn (scanState_hcStart s) rfl
    rw [hcRun_of_long hshort]
    refine ⟨hends, fun _ _ big hbig => ?_⟩
    obtain ⟨u, hu, hlow, hhigh, hout⟩ := hscan big hbig
    exact ⟨u, (hcScan_eq_scanLoop _ _).trans hu, Nat.le_antisymm hhigh hlow, hout⟩

theorem exec_compressHc_of_fits {s : State} (hn : s.wk.n ≤ s.cfg.maxSrcLen) (hc : s.wk.cap ≤ s.cfg.maxDstCap) :
    exec .compressHc s = .next (hcRun s).settle.forgetHc := by
  have h : ¬ s.oversize = true := oversize_eq_false.mpr ⟨hn, hc⟩
  simp only [exec, execCompressHc, if_neg h]

/-- Settles O23: the loop is the shared scan loop with the plan of COMPRESS_HC. -/
theorem compressHcCompletes : Obligations.CompressHcCompletes := by
  refine ⟨fun k v => ⟨fun h => ?_, fun h => ?_⟩, fun s hn hc => ?_⟩
  · rw [hcScan, if_pos h]
  · cases k with
    | zero => rfl
    | succ k => rw [hcScan, if_neg (Nat.not_lt.mpr h)]
  · have frame := scanFrame_hcRun s
    obtain ⟨hends, hscan⟩ := hcRun_outcome s
    refine ⟨_, exec_compressHc_of_fits hn hc,
      (Run.hostSide_settle (frame.mono fun _ f => f.enc.host)).trans (hostSide_forgetHc _), sameDst_settle frame,
      sameFast_settle_hcRun s, hends.forgetHc, fun h12 hpos big hbig => ?_⟩
    obtain ⟨u, hu, hsi, hout⟩ := hscan h12 hpos big hbig
    exact ⟨u, hu, hsi, hout.forgetHc⟩

end Sys2Proof.Machine
end

section
/-! PROOFS about the state, fourth part: the host's accesses to the registers (10_state.md R21 to R31), the buffers (R34, R35)
and the fast table (R36), and the two resets (R39, 70_reset_and_hazards.md R270, R271). -/

namespace Sys2Proof.Machine

/-! ### Where an address lies (20_memory.md R69) -/

theorem Params.apart_iff (a m b n : Nat) : Params.apart a m b n = true ↔ a + m ≤ b ∨ b + n ≤ a := by
  simp [Params.apart]

theorem regionOf_reg (p : Params) {off : Nat} (h : off < 64) : regionOf p (p.baseReg + off) = .reg off := by
  rw [regionOf, if_pos (by omega), Nat.add_sub_cancel_left]

section Valid
variable {p : Params} (hp : p.valid = true)
include hp

/-- No two of the four spaces share an address (log entry 3). -/
theorem Params.valid_apart :
    Params.apart p.baseReg 64 p.baseSrc p.maxSrcLen = true ∧ Params.apart p.baseReg 64 p.baseDst p.maxDstCap = true ∧
    Params.apart p.baseReg 64 p.baseHtf 262144 = true ∧
    Params.apart p.baseSrc p.maxSrcLen p.baseDst p.maxDstCap = true ∧
    Params.apart p.baseSrc p.maxSrcLen p.baseHtf 262144 = true ∧
    Params.apart p.baseDst p.maxDstCap p.baseHtf 262144 = true := by
  simp only [Params.valid, Bool.and_eq_true] at hp
  obtain ⟨⟨⟨⟨⟨⟨-, regSrc⟩, regDst⟩, regHtf⟩, srcDst⟩, srcHtf⟩, dstHtf⟩ := hp
  exact ⟨regSrc, regDst, regHtf, srcDst, srcHtf, dstHtf⟩

theorem Params.valid_posW : p.posW ≤ 32 := by
  simp only [Params.valid, Bool.and_eq_true, decide_eq_true_eq] at hp
  omega

theorem regionOf_src {off : Nat} (h : off < p.maxSrcLen) : regionOf p (p.baseSrc + off) = .src off := by
  have regSrc := (Params.apart_iff _ _ _ _).mp (Params.valid_apart hp).1
  rw [regionOf, if_neg (by omega), if_pos (by omega), Nat.add_sub_cancel_left]

theorem regionOf_dst {off : Nat} (h : off < p.maxDstCap) : regionOf p (p.baseDst + off) = .dst off := by
  obtain ⟨-, regDst, -, srcDst, -, -⟩ := Params.valid_apart hp
  have regDst := (Params.apart_iff _ _ _ _).mp regDst
  have srcDst := (Params.apart_iff _ _ _ _).mp srcDst
  rw [regionOf, if_neg (by omega), if_neg (by omega), if_pos (by omega), Nat.add_sub_cancel_left]

theorem regionOf_htf {off : Nat} (h : off < 262144) : regionOf p (p.baseHtf + off) = .htf off := by
  obtain ⟨-, -, regHtf, -, srcHtf, dstHtf⟩ := Params.valid_apart hp
  have regHtf := (Params.apart_iff _ _ _ _).mp regHtf
  have srcHtf := (Params.apart_iff _ _ _ _).mp srcHtf
  have dstHtf := (Params.apart_iff _ _ _ _).mp dstHtf
  rw [regionOf, if_neg (by omega), if_neg (by omega), if_neg (by omega), if_pos (by omega), Nat.add_sub_cancel_left]

end Valid

/-! ### One rule for each kind of access -/

/-- The host has written a byte of SRC. -/
def State.hostSrcByte (off : Nat) (b : Byte) (s : State) : State := { s with src := s.src.write off b }

/-- The host has written a byte of DST, and reads it back. -/
def State.hostDstByte (off : Nat) (b : Byte) (s : State) : State :=
  { s with dst := s.dst.write off b, unseen := s.unseen.hostBytes off 1 }

/-- The host has written a cell of HT_F, and reads it back. -/
def State.hostHtfCell (i : Nat) (data : Word) (s : State) : State :=
  { s with htF := s.htF.write s.cfg.posW i data.toNat, unseen := s.unseen.hostCell i }

/-- The host has read a STATUS that shows DONE = 1. -/
def State.observed (s : State) : State := { s with readData := s.status, unseen := .nothing }

theorem wordAccess_aligned (i : Nat) : wordAccess .word (4 * i) = true := by
  simp [wordAccess]

theorem wordAccess_eq_false {w : Width} {off : Nat} (h : w ≠ .word ∨ off % 4 ≠ 0) : wordAccess w off = false := by
  rw [wordAccess, Bool.and_eq_false_iff, decide_eq_false_iff_not, decide_eq_false_iff_not]
  exact h

theorem hostWrite_idle {s : State} (h : s.isBusy = false) (a : Nat) (w : Width) (data : Word) :
    hostWrite a w data s = hostWriteIdle a w data s := by
  rw [hostWrite, h, if_neg Bool.false_ne_true]

theorem hostRead_slot (s : State) {i : Nat} (h : i < 16) :
    hostRead (s.cfg.baseReg + 4 * i) .word s = .next (readSlot i s) := by
  simp only [hostRead, regionOf_reg s.cfg (show 4 * i < 64 by omega), wordAccess_aligned, if_true,
    Nat.mul_div_cancel_left i (show 0 < 4 by decide)]

theorem hostWriteIdle_slot (s : State) {i : Nat} (h : i < 16) (data : Word) :
    hostWriteIdle (s.cfg.baseReg + 4 * i) .word data s = .next (writeSlot i data s) := by
  simp only [hostWriteIdle, regionOf_reg s.cfg (show 4 * i < 64 by omega), wordAccess_aligned, if_true,
    Nat.mul_div_cancel_left i (show 0 < 4 by decide)]

section Valid
variable {s : State} (hp : s.cfg.valid = true)
include hp

theorem hostRead_src {off : Nat} (h : off < s.cfg.maxSrcLen) :
    hostRead (s.cfg.baseSrc + off) .byte s = .next (s.answerBytes s.srcHidden s.srcByte off .byte) := by
  simp only [hostRead, regionOf_src hp h, readBuffer]
  exact if_neg (Nat.not_lt.mpr h)

theorem hostRead_dst {off : Nat} (h : off < s.cfg.maxDstCap) :
    hostRead (s.cfg.baseDst + off) .byte s = .next (s.answerBytes s.dstHidden s.dstByte off .byte) := by
  simp only [hostRead, regionOf_dst hp h, readBuffer]
  exact if_neg (Nat.not_lt.mpr h)

theorem hostRead_htf {i : Nat} (h : i < 65536) : hostRead (s.cfg.baseHtf + 4 * i) .word s =
    .next (if s.htfHidden i then s.answerFree .word else s.answer (BitVec.ofNat 32 (s.htfCell i))) := by
  simp only [hostRead, regionOf_htf hp (show 4 * i < 262144 by omega), wordAccess_aligned, if_true,
    Nat.mul_div_cancel_left i (show 0 < 4 by decide)]

theorem hostWriteIdle_src {off : Nat} (h : off < s.cfg.maxSrcLen) (data : Word) :
    hostWriteIdle (s.cfg.baseSrc + off) .byte data s =
      .next (s.hostSrcByte off (data.extractLsb' 0 8)) := by
  simp only [hostWriteIdle, regionOf_src hp h]
  exact if_neg (Nat.not_lt.mpr h)

theorem hostWriteIdle_dst {off : Nat} (h : off < s.cfg.maxDstCap) (data : Word) :
    hostWriteIdle (s.cfg.baseDst + off) .byte data s =
      .next (s.hostDstByte off (data.extractLsb' 0 8)) := by
  simp only [hostWriteIdle, regionOf_dst hp h]
  exact if_neg (Nat.not_lt.mpr h)

theorem hostWriteIdle_htf {i : Nat} (h : i < 65536) (data : Word) :
    hostWriteIdle (s.cfg.baseHtf + 4 * i) .word data s = .next (s.hostHtfCell i data) := by
  simp only [hostWriteIdle, regionOf_htf hp (show 4 * i < 262144 by omega), wordAccess_aligned, if_true,
    Nat.mul_div_cancel_left i (show 0 < 4 by decide)]
  rfl

end Valid

/-! ### Registers -/

section Step
variable {s : State} {a : Nat} {later : List HostEvent}

theorem step_of_read {w : Width} (h : s.inbox = .read a w :: later) : step s = hostRead a w { s with inbox := later } :=
  step_of_inbox_cons h

theorem step_of_idle_write {w : Width} {data : Word} (h : s.inbox = .write a w data :: later)
    (hidle : s.isBusy = false) : step s = hostWriteIdle a w data { s with inbox := later } :=
  (step_of_inbox_cons h).trans (hostWrite_idle (s := { s with inbox := later }) hidle a w data)

end Step

/-- Settles O49: the address is one of the register space, and the form is not the one it has. -/
theorem registerAccessFormIsRefused : Obligations.RegisterAccessFormIsRefused := by
  intro s off w data later hoff hform
  have hform := wordAccess_eq_false hform
  have hreg : regionOf s.cfg (s.cfg.baseReg + off) = .reg off := regionOf_reg s.cfg hoff
  refine ⟨fun h => ?_, fun h hidle => ?_⟩
  · rw [step_of_read h]
    simp [hostRead, hreg, hform]
  · rw [step_of_idle_write h hidle]
    simp [hostWriteIdle, hreg, hform]

/-- The value a read of slot `i` answers when none of it is hidden (R21). -/
def State.slotValue (s : State) (i : Nat) : Word :=
  if i = 1 then s.srcLen else if i = 2 then s.dstCap else if i = 3 then s.depth
    else if i = 4 then s.status else if i = 5 then s.result else 0

/-- A read of STATUS is an observation when it shows DONE = 1, and a read of another slot changes the data read alone. -/
theorem readSlot_of_seen {i : Nat} {s : State} (h : i = 5 → s.isBusy = false ∧ s.unseen.result = false) :
    readSlot i s = { s with
      readData := s.slotValue i
      unseen := if i = 4 ∧ statusDone s.status = true then .nothing else s.unseen } := by
  by_cases h4 : i = 4
  · subst h4
    simp [readSlot, State.answerStatus, State.slotValue]
  · have hu : ¬ (i = 4 ∧ statusDone s.status = true) := fun k => h4 k.1
    have hd : readSlot i s = s.answer (s.slotValue i) := by
      unfold readSlot State.slotValue
      rw [if_neg h4, if_neg h4]
      split_ifs with h1 h2 h3 h5 hfree
      · rfl
      · rfl
      · rfl
      · obtain ⟨hb, hr⟩ := h h5
        simp [hb, hr] at hfree
      · rfl
      · rfl
    rw [hd, if_neg hu]
    rfl

theorem readSlot_result_hidden {s : State} (h : s.isBusy = true ∨ s.unseen.result = true) :
    readSlot 5 s = s.answerFree .word := by
  simp [readSlot, h]

/-- Settles O47: the read of a slot, after the event is taken from the inbox. -/
theorem registerReads : Obligations.RegisterReads := by
  intro s i later hi h
  have hstep : step s = .next (readSlot i { s with inbox := later }) :=
    (step_of_read h).trans (hostRead_slot { s with inbox := later } hi)
  refine ⟨fun hseen => ?_, fun ⟨h5, hhidden⟩ => ?_⟩
  · exact hstep.trans (congrArg _ (readSlot_of_seen (s := { s with inbox := later }) hseen))
  · subst h5
    exact ⟨_, hstep.trans (congrArg _ (readSlot_result_hidden (s := { s with inbox := later }) hhidden))⟩

/-- A write of a slot other than CMD writes that register and nothing else (R21). -/
theorem writeSlot_of_pos {i : Nat} (h : 1 ≤ i) (data : Word) (s : State) :
    writeSlot i data s = { s with
      srcLen := if i = 1 then data else s.srcLen
      dstCap := if i = 2 then data else s.dstCap
      depth := if i = 3 then data else s.depth } := by
  unfold writeSlot
  rw [if_neg (Nat.one_le_iff_ne_zero.mp h)]
  by_cases h1 : i = 1
  · subst h1; rfl
  · by_cases h2 : i = 2
    · subst h2; rfl
    · by_cases h3 : i = 3
      · subst h3; rfl
      · simp only [if_neg h1, if_neg h2, if_neg h3]

/-- Settles O48: the write of a slot, after the event is taken from the inbox. -/
theorem registerWrites : Obligations.RegisterWrites := by
  intro s i data later hpos hi hidle h
  rw [step_of_idle_write h hidle]
  exact (hostWriteIdle_slot { s with inbox := later } hi data).trans
    (congrArg _ (writeSlot_of_pos hpos data { s with inbox := later }))

/-- Settles O45: the write of slot 0 starts the command. -/
theorem commandWriteStartsACommand : Obligations.CommandWriteStartsACommand := by
  intro s w later hidle h
  have hstep : step s = .next (State.startCommand w { s with inbox := later }) := by
    rw [step_of_idle_write h hidle]
    exact hostWriteIdle_slot { s with inbox := later } (i := 0) (by decide) w
  have hfetch : (State.startCommand w { s with inbox := later }).fetchBytes .command = bytesOfWord w ++ [] := rfl
  refine ⟨_, hstep, statusBusy_statusWord _ _ _, statusDone_statusWord _ _ _, statusErr_statusWord _ _ _, rfl, rfl, rfl,
    rfl, ?_, rfl, rfl, rfl, rfl, rfl, rfl, rfl, ⟨rfl, rfl, rfl⟩, rfl, rfl, rfl⟩
  rw [hfetch, decode_command]

/-! ### The resets -/

/-- Settles O53: the reset state is written out, and its memories list nothing. -/
theorem resetValues : Obligations.ResetValues := fun _ =>
  ⟨rfl, rfl, rfl, rfl, rfl, statusBusy_statusWord false false 0, statusDone_statusWord false false 0,
    statusErr_statusWord false false 0, rfl, rfl, rfl, rfl, fun _ => rfl, fun _ => rfl, fun _ => rfl⟩

/-- Settles O54: the buffers forget every byte inside their spaces, and HT_F is drawn anew. -/
theorem platformResetAtAnyTime : Obligations.PlatformResetAtAnyTime := by
  intro s later h
  exact ⟨_, step_of_inbox_cons h, rfl, rfl, rfl, rfl, rfl, rfl, rfl, rfl, rfl,
    fun i hi => Buf.read_forget_below .src s.src hi, fun i hi => Buf.read_forget_below .dst s.dst hi, fun _ => rfl⟩

/-! ### Buffer bytes -/

/-- The data of a byte read: the byte, or a free one where it is hidden. -/
theorem answerBytes_byte_toNat (hidden : Nat → Bool) (f : Nat → Byte) (off : Nat) (s : State) :
    (s.answerBytes hidden f off .byte).readData.toNat =
      (if hidden off then (Config.freeWord s.draws).extractLsb' 0 8 else f off).toNat := by
  have hlt (b : Byte) : (BitVec.ofNat 32 (leValue [b])).toNat = b.toNat := by
    simp only [leValue, BitVec.toNat_ofNat]
    omega
  exact hlt _

theorem lowByte_toNat (data : Word) : (data.extractLsb' 0 8).toNat = data.toNat % 256 := by
  simp [BitVec.extractLsb'_toNat]

/-- The byte of a read that is not hidden. -/
theorem answerBytes_byte_seen {hidden : Nat → Bool} {off : Nat} (h : hidden off = false) (f : Nat → Byte) (s : State) :
    (s.answerBytes hidden f off .byte).readData.toNat = (f off).toNat := by
  rw [answerBytes_byte_toNat, h, if_neg Bool.false_ne_true]

theorem dstHidden_idle {s : State} (h : s.isBusy = false) (a : Nat) : s.dstHidden a = s.unseen.hides a := by
  rw [State.dstHidden, h, Bool.false_or]

/-- A read of STATUS while DONE = 1 answers it and settles what the host was owed (R72b, R283). -/
theorem hostRead_status {s : State} (h : statusDone s.status = true) :
    hostRead (s.cfg.baseReg + 16) .word s = .next s.observed := by
  refine (hostRead_slot s (i := 4) (by decide)).trans ?_
  rw [readSlot_of_seen (fun h5 => absurd h5 (by decide)), if_pos ⟨rfl, h⟩]
  rfl

/-- A byte of SRC is answered while the engine is idle. -/
theorem readData_src_idle {t : State} (h : t.isBusy = false) (off : Nat) :
    (t.answerBytes t.srcHidden t.srcByte off .byte).readData.toNat = (t.srcByte off).toNat :=
  answerBytes_byte_seen (hidden := t.srcHidden) h t.srcByte t

/-- A byte of DST is answered while the engine is idle, when the host is owed nothing of it. -/
theorem readData_dst_idle {t : State} (h : t.isBusy = false) {off : Nat} (hu : t.unseen.hides off = false) :
    (t.answerBytes t.dstHidden t.dstByte off .byte).readData.toNat = (t.dstByte off).toNat :=
  answerBytes_byte_seen (hidden := t.dstHidden) ((dstHidden_idle h off).trans hu) t.dstByte t

/-- Settles O50: one rule for each access, and what a read answers after a write, after an observation, and by itself. -/
theorem bufferBytesReadBack : Obligations.BufferBytesReadBack := by
  intro s off data hp hidle
  refine ⟨fun hoff => ?_, fun hoff => ?_, fun hoff => ?_, fun hoff => ?_, fun hoff hdone => ?_⟩
  · refine ⟨_, _, (hostWrite_idle hidle _ _ _).trans (hostWriteIdle_src hp hoff data),
      hostRead_src (s := s.hostSrcByte off (data.extractLsb' 0 8)) hp hoff, ?_,
      fun a ha => Buf.read_write_other .src s.src _ ha, rfl, ⟨rfl, rfl, rfl⟩⟩
    have hread := readData_src_idle (t := s.hostSrcByte off (data.extractLsb' 0 8)) hidle off
    rw [hread, ← lowByte_toNat]
    exact congrArg _ (Buf.read_write_same .src s.src off _)
  · refine ⟨_, _, (hostWrite_idle hidle _ _ _).trans (hostWriteIdle_dst hp hoff data),
      hostRead_dst (s := s.hostDstByte off (data.extractLsb' 0 8)) hp hoff, ?_,
      fun a ha => Buf.read_write_other .dst s.dst _ ha, rfl, ⟨rfl, rfl, rfl⟩⟩
    have hown : (s.unseen.hostBytes off 1).hides off = false := by simp [Unseen.hides_hostBytes]
    have hread := readData_dst_idle (t := s.hostDstByte off (data.extractLsb' 0 8)) hidle hown
    rw [hread, ← lowByte_toNat]
    exact congrArg _ (Buf.read_write_same .dst s.dst off _)
  · exact ⟨_, hostRead_src hp hoff, readData_src_idle hidle off⟩
  · refine ⟨_, hostRead_dst hp hoff, ?_⟩
    rw [answerBytes_byte_toNat, dstHidden_idle hidle]
  · exact ⟨_, _, hostRead_status hdone, rfl, hostRead_dst (s := s.observed) hp hoff,
      readData_dst_idle (t := s.observed) hidle (Unseen.hides_nothing off)⟩

/-! ### Fast table cells -/

/-- A cell of at most 32 bits that is not hidden is answered. -/
theorem answer_htf_seen {s : State} {i : Nat} (hidle : s.isBusy = false) (hi : i ∉ s.unseen.htF)
    (hlt : s.htfCell i < 2 ^ 32) :
    (if s.htfHidden i then s.answerFree .word else s.answer (BitVec.ofNat 32 (s.htfCell i))).readData.toNat =
      s.htfCell i := by
  have hseen : s.htfHidden i = false := by simp [State.htfHidden, hidle, hi]
  rw [hseen, if_neg Bool.false_ne_true, answer_readData, BitVec.toNat_ofNat, Nat.mod_eq_of_lt hlt]

theorem lt_word_of_lt_posW {p : Params} (hp : p.valid = true) {v : Nat} (h : v < 2 ^ p.posW) : v < 2 ^ 32 :=
  h.trans_le (Nat.pow_le_pow_right (by decide) (Params.valid_posW hp))

/-- Settles O51: one rule for each access, and that a cell has at most 32 bits. -/
theorem fastTableCellsReadBack : Obligations.FastTableCellsReadBack := by
  intro s i data hp hidle hi
  have hcell (hwf : s.htF.wf s.cfg.posW = true) : s.htfCell i < 2 ^ 32 :=
    lt_word_of_lt_posW hp (Table.read_lt .htF s.htF i hwf)
  refine ⟨?_, fun hwf hseen => ?_, fun hwf hdone => ?_⟩
  · refine ⟨_, _, (hostWrite_idle hidle _ _ _).trans (hostWriteIdle_htf hp hi data),
      hostRead_htf (s := s.hostHtfCell i data) hp hi, ?_, fun j hj => ?_, rfl, rfl, rfl, rfl⟩
    · have hread : (s.htF.write s.cfg.posW i data.toNat).read .htF s.cfg.posW i = data.toNat % 2 ^ s.cfg.posW := by
        rw [Table.read_write, if_pos rfl]
      have hlt : data.toNat % 2 ^ s.cfg.posW < 2 ^ 32 :=
        lt_word_of_lt_posW hp (Nat.mod_lt _ (Nat.two_pow_pos _))
      have hown : i ∉ (s.hostHtfCell i data).unseen.htF := by simp [State.hostHtfCell, Unseen.hostCell]
      exact (answer_htf_seen (s := s.hostHtfCell i data) hidle hown (hread.trans_lt hlt)).trans hread
    · exact (Table.read_write .htF s.cfg.posW s.htF i j data.toNat).trans (if_neg hj)
  · exact ⟨_, hostRead_htf hp hi, answer_htf_seen hidle hseen (hcell hwf)⟩
  · exact ⟨_, _, hostRead_status hdone, hostRead_htf (s := s.observed) hp hi,
      answer_htf_seen (s := s.observed) hidle List.not_mem_nil (hcell hwf)⟩

end Sys2Proof.Machine
end

section
/-! PROOFS about the state, fifth part: the two encoders read no byte of SRC at or above `n` (20_memory.md R65). Each piece
of their pseudocode is shown to do the same with another SRC that agrees below `n`; for COMPRESS_HC this rests on the chain
tables, which hold no position beyond the scan position. -/

namespace Sys2Proof.Machine

/-! ### Another SRC -/

/-- The state with another SRC. -/
def State.withSrc (b : Buf) (s : State) : State := { s with src := b }

/-- A piece of pseudocode with another SRC wherever it leaves the command. -/
def Run.withSrc (b : Buf) : Run → Run
  | .go s => .go (s.withSrc b)
  | .ret r s => .ret r (s.withSrc b)
  | .incompressible s => .incompressible (s.withSrc b)
  | .raise s => .raise (s.withSrc b)

def Plan.withSrc (b : Buf) : Plan → Plan
  | .skip m => .skip (m.withSrc b)
  | .emit m => .emit (m.withSrc b)

/-- A buffer agrees with SRC below `n`. -/
def Agrees (b : Buf) (s : State) : Prop := ∀ k, k < s.wk.n → b.read .src k = s.srcByte k

@[simp] theorem withSrc_wk (b : Buf) (s : State) : (s.withSrc b).wk = s.wk := rfl
@[simp] theorem withSrc_srcByte (b : Buf) (s : State) (i : Nat) : (s.withSrc b).srcByte i = b.read .src i := rfl
@[simp] theorem withSrc_hthCell (b : Buf) (s : State) (i : Nat) : (s.withSrc b).hthCell i = s.hthCell i := rfl
@[simp] theorem withSrc_ctCell (b : Buf) (s : State) (i : Nat) : (s.withSrc b).ctCell i = s.ctCell i := rfl

theorem Run.settle_withSrc (b : Buf) (m : Run) : (m.withSrc b).settle = m.settle.withSrc b := by
  cases m <;> rfl

theorem Run.andThen_withSrc {b : Buf} {m : Run} {f : State → Run}
    (hf : ∀ t, m = .go t → f (t.withSrc b) = (f t).withSrc b) : (m.withSrc b).andThen f = (m.andThen f).withSrc b := by
  cases m with
  | go t => exact hf t rfl
  | ret r t => rfl
  | incompressible t => rfl
  | raise t => rfl

/-- Two byte functions that agree below a bound have the same CommonLen below it. -/
theorem commonLen_eq_of_agree {f g : Nat → Byte} {n : Nat} (h : ∀ k, k < n → f k = g k) {a c limit : Nat}
    (ha : a + limit ≤ n) (hc : c + limit ≤ n) : commonLen f a c limit = commonLen g a c limit := by
  induction limit generalizing a c with
  | zero => rfl
  | succ l ih =>
    rw [commonLen, commonLen, h a (by omega), h c (by omega), ih (by omega) (by omega)]

theorem Agrees.congr {b : Buf} {s t : State} (h : Agrees b s) (hsrc : t.src = s.src) (hn : t.wk.n = s.wk.n) :
    Agrees b t := fun k hk => (h k (hn ▸ hk)).trans (srcByte_congr hsrc k).symm

theorem Agrees.prepared {b : Buf} {s t : State} (h : Agrees b s) (p : Prepared s t) : Agrees b t := h.congr p.src p.n

section Reads
variable {b : Buf} {s : State} (agree : Agrees b s)
include agree

theorem Agrees.srcWord_withSrc {p : Nat} (h : p + 4 ≤ s.wk.n) : (s.withSrc b).srcWord p = s.srcWord p := by
  simp only [State.srcWord, withSrc_srcByte]
  rw [agree p (by omega), agree (p + 1) (by omega), agree (p + 2) (by omega), agree (p + 3) (by omega)]

theorem Agrees.fp_withSrc {p : Nat} (h : p + 4 ≤ s.wk.n) : (s.withSrc b).fp p = s.fp p :=
  congrArg fpHash (agree.srcWord_withSrc h)

theorem Agrees.commonLen_withSrc {a c limit : Nat} (ha : a + limit ≤ s.wk.n) (hc : c + limit ≤ s.wk.n) :
    (s.withSrc b).commonLen a c limit = s.commonLen a c limit := commonLen_eq_of_agree agree ha hc

theorem Agrees.literals_withSrc {L : Nat} (h : L ≤ s.wk.n - s.wk.anchor) : (s.withSrc b).literals L = s.literals L :=
  bytesFrom_congr fun i _ _ => agree i (by rw [withSrc_wk] at *; omega)

end Reads

/-! ### The packer -/

theorem put_withSrc (b : Buf) (v : Byte) (s : State) : put v (s.withSrc b) = (put v s).withSrc b := by
  rw [put, put, apply_ite (Run.withSrc b)]
  rfl

theorem putAll_withSrc (b : Buf) (vs : List Byte) (s : State) : putAll vs (s.withSrc b) = (putAll vs s).withSrc b := by
  induction vs generalizing s with
  | nil => rfl
  | cons v r ih =>
    rw [putAll, putAll, put_withSrc]
    exact Run.andThen_withSrc fun t _ => ih t

/-- Where `putAll` goes on, it has written all its bytes. -/
theorem putAll_go {vs : List Byte} {s t : State} (h : putAll vs s = .go t) : t = s.emitted vs := by
  by_cases hfit : s.wk.di + vs.length ≤ s.wk.cap
  · exact (Run.go.inj ((putAll_fits vs s hfit).symm.trans h)).symm
  · by_cases hd : s.wk.di ≤ s.wk.cap
    · rw [putAll_overflow vs s hd (Nat.not_le.mp hfit)] at h
      cases h
    · cases vs with
      | nil => exact (Run.go.inj h).symm
      | cons v r =>
        rw [putAll, put_full v (by omega)] at h
        cases h

/-- The literals of a sequence lie between `anchor` and `n`. -/
theorem Agrees.emitSeq_withSrc {b : Buf} {m : State} (agree : Agrees b m) (h : m.wk.litLen ≤ m.wk.n - m.wk.anchor) :
    emitSeq (m.withSrc b) = (emitSeq m).withSrc b := by
  rw [emitSeq, emitSeq, withSrc_wk, agree.literals_withSrc h, putAll_withSrc]

theorem Agrees.finishLiterals_withSrc {b : Buf} {s : State} (agree : Agrees b s)
    (h : s.wk.litLen = s.wk.n - s.wk.anchor) :
    finishLiterals (s.withSrc b) = (finishLiterals s).withSrc b := by
  have hlit : emitLastLiterals (s.withSrc b) = (emitLastLiterals s).withSrc b := by
    rw [emitLastLiterals, emitLastLiterals, withSrc_wk, agree.literals_withSrc h.le, putAll_withSrc]
  rw [finishLiterals, finishLiterals, apply_ite (Run.withSrc b), hlit,
    Run.andThen_withSrc fun _ _ => rfl]
  rfl

theorem Agrees.finish_withSrc {b : Buf} {s : State} (agree : Agrees b s) :
    finish (s.withSrc b) = (finish s).withSrc b := by
  by_cases hz : s.wk.anchor = 0
  · rw [finish_of_noMatch hz, finish_of_noMatch (v := s.withSrc b) hz]
    rfl
  · rw [finish, finish, if_neg hz, if_neg (show ¬ (s.withSrc b).wk.anchor = 0 from hz)]
    have hhead : emitLastHeader (s.lastMeasured.withSrc b) = (emitLastHeader s.lastMeasured).withSrc b :=
      putAll_withSrc b _ s.lastMeasured
    refine (congrArg (Run.andThen · finishLiterals) hhead).trans (Run.andThen_withSrc fun t ht => ?_)
    have hagree : Agrees b s.headed := agree
    obtain rfl : t = s.headed := putAll_go ht
    exact hagree.finishLiterals_withSrc rfl

/-! ### The scan loop -/

theorem Plan.run_go {p : Plan} {t : State} (h : p.run = .go t) : t = p.next := by
  cases p with
  | skip m => exact (Run.go.inj h).symm
  | emit m =>
    rw [Plan.run] at h
    cases he : emitSeq m with
    | go u =>
      obtain rfl : u = m.emitted m.sequenceBytes := putAll_go he
      rw [he] at h
      exact (Run.go.inj h).symm
    | ret r u => rw [he] at h; cases h
    | incompressible u => rw [he] at h; cases h
    | raise u => rw [he] at h; cases h

theorem Plan.run_withSrc {b : Buf} {p : Plan} (agree : Agrees b p.state)
    (hlit : ∀ m, p = .emit m → m.wk.litLen ≤ m.wk.n - m.wk.anchor) : (p.withSrc b).run = p.run.withSrc b := by
  cases p with
  | skip m => rfl
  | emit m =>
    have hemit : emitSeq (m.withSrc b) = (emitSeq m).withSrc b := Agrees.emitSeq_withSrc agree (hlit m rfl)
    rw [Plan.withSrc, Plan.run, Plan.run, hemit]
    exact Run.andThen_withSrc fun _ _ => rfl

/-- The scan's positions below `sn` lie 12 bytes and more below `n`. -/
theorem ScanState.sn_add_le {slack : Nat} {s v : State} (h : ScanState slack s v) (hlt : v.wk.si < v.wk.sn) :
    v.wk.sn + 12 ≤ v.wk.n := by
  have hn := h.n
  have hsn := h.sn
  omega

/-- A scan loop whose plan does the same with another SRC does the same itself. `I` is what the plan needs of the states the
loop passes. -/
theorem scanLoop_withSrc {slack : Nat} {plan : State → Plan} (good : GoodPlan slack plan) {b : Buf} {s : State}
    (agree : Agrees b s) {I : State → Prop}
    (same : ∀ v, Agrees b v → v.wk.sn + 12 ≤ v.wk.n → v.wk.si < v.wk.sn → I v → plan (v.withSrc b) = (plan v).withSrc b)
    (next : ∀ v, v.wk.si < v.wk.sn → I v → I (plan v).next)
    (k : Nat) {v : State} (h : ScanState slack s v) (hI : I v) :
    scanLoop plan k (v.withSrc b) = (scanLoop plan k v).withSrc b := by
  induction k generalizing v with
  | zero => rfl
  | succ k ih =>
    by_cases hlt : v.wk.si < v.wk.sn
    · have prep := good.prepared v
      have hsn := h.sn_add_le hlt
      have hv : Agrees b v := agree.congr h.src h.n
      rw [scanLoop, scanLoop, if_pos hlt, if_pos (show (v.withSrc b).wk.si < (v.withSrc b).wk.sn from hlt),
        same v hv hsn hlt hI, Plan.run_withSrc (hv.prepared prep) ?_]
      · refine Run.andThen_withSrc fun t ht => ?_
        obtain rfl := Plan.run_go ht
        exact ih (h.next good hlt) (next v hlt hI)
      · intro m hm
        obtain ⟨hlit, -, -⟩ := good.measured v m hlt hm
        rw [hm] at prep
        have hm : m.wk.n = v.wk.n ∧ m.wk.si = v.wk.si := ⟨prep.n, prep.si⟩
        omega
    · rw [scanLoop, scanLoop, if_neg hlt, if_neg (show ¬ (v.withSrc b).wk.si < (v.withSrc b).wk.sn from hlt)]
      rfl

/-! ### COMPRESS_FAST -/

section Fast
variable {b : Buf} {v : State} (agree : Agrees b v)
include agree

theorem Agrees.fastLookup_withSrc (h : v.wk.si + 4 ≤ v.wk.n) : fastLookup (v.withSrc b) = (fastLookup v).withSrc b := by
  rw [fastLookup, withSrc_wk, agree.srcWord_withSrc h, agree.fp_withSrc h]
  rfl

/-- A candidate is compared only when it lies below `sn` (R143). -/
theorem Agrees.fastAccepts_withSrc (h : v.wk.sn + 4 ≤ v.wk.n) : fastAccepts (v.withSrc b) = fastAccepts v := by
  by_cases hr : v.wk.ref < v.wk.sn
  · rw [fastAccepts, withSrc_wk, agree.srcWord_withSrc (by omega)]
    rfl
  · simp [fastAccepts, hr]

/-- The extension stops at `sn` (R144). -/
theorem Agrees.fastMatchEnd_withSrc (h : v.wk.sn ≤ v.wk.n) : fastMatchEnd (v.withSrc b) = fastMatchEnd v := by
  unfold fastMatchEnd
  refine ite_congr rfl (fun hlt => ?_) fun _ => rfl
  have hend : v.wk.si + 4 + (v.wk.sn - (v.wk.si + 4)) ≤ v.wk.n := (Nat.add_sub_cancel' (Nat.le_of_lt hlt)).trans_le h
  exact congrArg (v.wk.si + 4 + ·) (agree.commonLen_withSrc hend ((Nat.add_le_add_right (Nat.sub_le _ _) _).trans hend))

theorem Agrees.fastMeasure_withSrc (h : v.wk.sn ≤ v.wk.n) : fastMeasure (v.withSrc b) = (fastMeasure v).withSrc b := by
  rw [fastMeasure, agree.fastMatchEnd_withSrc h]
  rfl

theorem Agrees.fastPlan_withSrc (hsn : v.wk.sn + 12 ≤ v.wk.n) (hlt : v.wk.si < v.wk.sn) :
    fastPlan (v.withSrc b) = (fastPlan v).withSrc b := by
  have hlook : Agrees b (fastLookup v) := agree
  rw [fastPlan, fastPlan, agree.fastLookup_withSrc (by omega),
    hlook.fastAccepts_withSrc (show v.wk.sn + 4 ≤ v.wk.n by omega),
    hlook.fastMeasure_withSrc (show v.wk.sn ≤ v.wk.n by omega),
    apply_ite (Plan.withSrc b)]
  rfl

theorem Agrees.fastRun_withSrc : fastRun (v.withSrc b) = (fastRun v).withSrc b := by
  by_cases hshort : v.tooShort = true
  · rw [fastRun_of_short hshort, fastRun_of_short (s := v.withSrc b) hshort]
    rfl
  · rw [fastRun_of_long hshort, fastRun_of_long (s := v.withSrc b) hshort]
    have hscan := scanLoop_withSrc goodPlan_fast agree (I := fun _ => True)
      (fun _ hu hsn hlt _ => hu.fastPlan_withSrc hsn hlt) (fun _ _ _ => trivial) (v.wk.n - 12)
      (scanState_startScan v) trivial
    refine (congrArg (Run.andThen · finish) hscan).trans (Run.andThen_withSrc fun t ht => ?_)
    have hframe := scanFrame_fastScan (v.wk.n - 12) v.startScan
    rw [fastScan_eq_scanLoop, ht] at hframe
    exact (agree.congr hframe.enc.host.src hframe.enc.n).finish_withSrc

end Fast

/-! ### The chain tables hold no position beyond the scan position (R176, R177) -/

/-- No entry of HT_H or CT is above a limit. -/
def TablesUpTo (lim : Nat) (s : State) : Prop := ∀ i, s.hthCell i ≤ lim ∧ s.ctCell i ≤ lim

theorem TablesUpTo.mono {lim lim' : Nat} {s : State} (h : TablesUpTo lim s) (hl : lim ≤ lim') : TablesUpTo lim' s :=
  fun i => ⟨(h i).1.trans hl, (h i).2.trans hl⟩

/-- An insertion stores a position and an old head, each truncated to POS_W bits. -/
theorem TablesUpTo.hcInsert {lim q : Nat} {s : State} (h : TablesUpTo lim s) (hq : q ≤ lim) :
    TablesUpTo lim (hcInsert q s) := by
  intro i
  constructor
  · show (s.htH.write s.cfg.posW (s.fp q).toNat q).read .htH s.cfg.posW i ≤ lim
    rw [Table.read_write]
    split
    · exact (Nat.mod_le _ _).trans hq
    · exact (h i).1
  · show (s.ct.write s.cfg.posW (q % Config.winSize) (s.hthCell (s.fp q).toNat)).read .ct s.cfg.posW i ≤ lim
    rw [Table.read_write]
    split
    · exact (Nat.mod_le _ _).trans (h _).1
    · exact (h i).2

theorem TablesUpTo.hcInsertFrom {lim k q : Nat} {s : State} (h : TablesUpTo lim s) (hq : q + k ≤ lim) :
    TablesUpTo lim (hcInsertFrom k q s) := by
  induction k generalizing q s with
  | zero => exact h
  | succ k ih => exact ih (h.hcInsert (by omega)) (by omega)

/-- A candidate changes working registers only. -/
theorem TablesUpTo.hcCandidate {lim : Nat} {s : State} (h : TablesUpTo lim s) : TablesUpTo lim (hcCandidate s) := by
  unfold Machine.hcCandidate
  split
  · unfold hcMeasure
    split <;> exact h
  · exact h

theorem TablesUpTo.hcWalk {lim : Nat} (k : Nat) {s : State} (h : TablesUpTo lim s) : TablesUpTo lim (hcWalk k s) := by
  induction k generalizing s with
  | zero => exact h
  | succ k ih =>
    rw [Machine.hcWalk]
    split
    · exact ih (s := hcFollow k _ (Machine.hcCandidate s)) h.hcCandidate
    · exact h

theorem TablesUpTo.hcSearch {s : State} (h : TablesUpTo s.wk.si s) : TablesUpTo s.wk.si (hcSearch s) :=
  (TablesUpTo.hcWalk (s := hcLookup s) s.wk.effDepth h).hcInsert (Nat.le_refl _)

/-- The first interior position of a match lies at its end or before. -/
theorem hcInsertStart_le {s : State} (h : s.wk.bestLen ≠ 0) : hcInsertStart s ≤ s.wk.si + s.wk.bestLen := by
  rw [hcInsertStart_eq]
  omega

theorem TablesUpTo.hcInsertMatch {s : State} (h : TablesUpTo s.wk.si s) (hb : s.wk.bestLen ≠ 0) :
    TablesUpTo (s.wk.si + s.wk.bestLen) (hcInsertMatch s) := by
  have hstart := hcInsertStart_le hb
  unfold Machine.hcInsertMatch
  exact (h.mono (Nat.le_add_right _ _)).hcInsertFrom (by omega)

/-- The emission of a match changes no entry, and the scan goes on at the match end. -/
theorem TablesUpTo.emit_next {m : State} (h : TablesUpTo (m.wk.si + m.wk.bestLen) m) :
    TablesUpTo (Plan.emit (hcMeasured m)).next.wk.si (Plan.emit (hcMeasured m)).next := h

/-- An iteration of COMPRESS_HC leaves no entry beyond the next scan position. -/
theorem TablesUpTo.hcPlan_next {v : State} (h : TablesUpTo v.wk.si v) :
    TablesUpTo (hcPlan v).next.wk.si (hcPlan v).next := by
  have hsearch := h.hcSearch
  rw [← (prepared_hcSearch v).si] at hsearch
  generalize hu : Machine.hcSearch v = u at hsearch
  unfold hcPlan
  rw [hu]
  split
  · exact hsearch.mono (Nat.le_succ _)
  · refine TablesUpTo.emit_next ?_
    rw [hcInsertMatch_wk]
    exact hsearch.hcInsertMatch ‹_›

/-! ### COMPRESS_HC -/

theorem hcMeasure_withSrc (b : Buf) (s : State) : hcMeasure (s.withSrc b) = (hcMeasure s).withSrc b := by
  unfold hcMeasure
  rw [apply_ite (State.withSrc b)]
  rfl

theorem hcMeasured_withSrc (b : Buf) (s : State) : hcMeasured (s.withSrc b) = (hcMeasured s).withSrc b := rfl

/-- A chain walk at a scan position: the candidate and every link lie at or before it, and the best match ends at `sn` or
before. -/
structure WalkState (s : State) : Prop where
  best : BestFits s
  si : s.wk.si < s.wk.sn
  n : s.wk.sn + 12 ≤ s.wk.n
  next : s.wk.next ≤ s.wk.si
  tables : TablesUpTo s.wk.si s

/-- The walk goes on at a link of the chain. -/
theorem WalkState.follow {s : State} (h : WalkState s) (k i : Nat) :
    WalkState (hcFollow k (s.ctCell i) (hcCandidate s)) := by
  have p := prepared_hcCandidate s
  refine ⟨bestFits_hcCandidate h.best, ?_, ?_, ?_, ?_⟩
  · show (hcCandidate s).wk.si < (hcCandidate s).wk.sn
    rw [p.si, p.sn]
    exact h.si
  · show (hcCandidate s).wk.sn + 12 ≤ (hcCandidate s).wk.n
    rw [p.sn, p.n]
    exact h.n
  · show s.ctCell i ≤ (hcCandidate s).wk.si
    rw [p.si]
    exact (h.tables i).2
  · have ht := h.tables.hcCandidate
    rw [← p.si] at ht
    exact ht

section Hc
variable {b : Buf} {v : State} (agree : Agrees b v)
include agree

theorem Agrees.hcLookup_withSrc (h : v.wk.si + 4 ≤ v.wk.n) : hcLookup (v.withSrc b) = (hcLookup v).withSrc b := by
  rw [hcLookup, withSrc_wk, agree.srcWord_withSrc h, agree.fp_withSrc h]
  rfl

/-- The probe and the measurement of a candidate stay below `sn` (R175). -/
theorem Agrees.hcCandidate_withSrc (w : WalkState v) : hcCandidate (v.withSrc b) = (hcCandidate v).withSrc b := by
  obtain ⟨hbest, hsi, hn, hnext, -⟩ := w
  have hlen : v.wk.bestLen ≤ v.wk.sn - v.wk.si := hbest.elim (fun h => by omega) fun h => h.2
  have hmeasured := hcMeasure_withSrc b { v with wk := { v.wk with
    ml := v.commonLen v.wk.next v.wk.si (v.wk.sn - v.wk.si) } }
  rw [hcCandidate, hcCandidate, withSrc_wk, withSrc_srcByte, withSrc_srcByte, agree _ (by omega),
    agree _ (by omega), agree.commonLen_withSrc (by omega) (by omega), apply_ite (State.withSrc b), ← hmeasured]
  rfl

theorem Agrees.hcWalk_withSrc (k : Nat) (w : WalkState v) : hcWalk k (v.withSrc b) = (hcWalk k v).withSrc b := by
  induction k generalizing v with
  | zero => rfl
  | succ k ih =>
    have p := prepared_hcCandidate v
    have hfollow : Agrees b (hcFollow k (v.ctCell (v.wk.next % Config.winSize)) (hcCandidate v)) :=
      agree.congr p.src p.n
    rw [hcWalk, hcWalk, apply_ite (State.withSrc b), ← ih hfollow (w.follow k _),
      agree.hcCandidate_withSrc w]
    rfl

theorem Agrees.hcInsert_withSrc {q : Nat} (h : q + 4 ≤ v.wk.n) : hcInsert q (v.withSrc b) = (hcInsert q v).withSrc b := by
  rw [hcInsert, agree.fp_withSrc h]
  rfl

theorem Agrees.hcInsertFrom_withSrc {k q : Nat} (h : q + k + 3 ≤ v.wk.n) :
    hcInsertFrom k q (v.withSrc b) = (hcInsertFrom k q v).withSrc b := by
  induction k generalizing q v with
  | zero => rfl
  | succ k ih =>
    rw [hcInsertFrom, hcInsertFrom, agree.hcInsert_withSrc (by omega)]
    exact ih (v := hcInsert q v) agree (show q + 1 + k + 3 ≤ v.wk.n by omega)

/-- The interior of a match that ends 3 bytes or more below `n` is inserted without a read at `n`. -/
theorem Agrees.hcInsertMatch_withSrc (hb : v.wk.bestLen ≠ 0) (h : v.wk.si + v.wk.bestLen + 3 ≤ v.wk.n) :
    hcInsertMatch (v.withSrc b) = (hcInsertMatch v).withSrc b := by
  have hstart := hcInsertStart_le hb
  have hfrom := agree.hcInsertFrom_withSrc (q := hcInsertStart v) (k := v.wk.si + v.wk.bestLen - hcInsertStart v)
    (by omega)
  simp only [hcInsertMatch, hcInsertStart, withSrc_wk] at hfrom ⊢
  exact hfrom

theorem Agrees.hcSearch_withSrc (hsn : v.wk.sn + 12 ≤ v.wk.n) (hlt : v.wk.si < v.wk.sn) (ht : TablesUpTo v.wk.si v) :
    hcSearch (v.withSrc b) = (hcSearch v).withSrc b := by
  have hlook : Agrees b (hcLookup v) := agree
  have walk : WalkState (hcLookup v) := ⟨.inl rfl, hlt, hsn, (ht _).1, ht⟩
  have p := prepared_hcWalk v.wk.effDepth (hcLookup v)
  have hn : v.wk.si + 4 ≤ (hcWalk v.wk.effDepth (hcLookup v)).wk.n := by
    rw [p.n]
    show v.wk.si + 4 ≤ v.wk.n
    omega
  rw [hcSearch, hcSearch, withSrc_wk, agree.hcLookup_withSrc (by omega), hlook.hcWalk_withSrc _ walk]
  exact (hlook.prepared p).hcInsert_withSrc hn

theorem Agrees.hcPlan_withSrc (hsn : v.wk.sn + 12 ≤ v.wk.n) (hlt : v.wk.si < v.wk.sn) (ht : TablesUpTo v.wk.si v) :
    hcPlan (v.withSrc b) = (hcPlan v).withSrc b := by
  have p := prepared_hcSearch v
  have hsearch : Agrees b (hcSearch v) := agree.prepared p
  have hn : (hcSearch v).wk.sn + 12 ≤ (hcSearch v).wk.n := by rw [p.sn, p.n]; exact hsn
  have hsi : (hcSearch v).wk.si < (hcSearch v).wk.sn := by rw [p.si, p.sn]; exact hlt
  unfold hcPlan
  rw [agree.hcSearch_withSrc hsn hlt ht, withSrc_wk]
  by_cases hb : (hcSearch v).wk.bestLen = 0
  · rw [if_pos hb, if_pos hb]
    rfl
  · obtain ⟨-, hfit⟩ := (bestFits_hcSearch v).resolve_left hb
    rw [if_neg hb, if_neg hb, hsearch.hcInsertMatch_withSrc hb (by omega), Plan.withSrc, hcMeasured_withSrc]

theorem Agrees.hcRun_withSrc : hcRun (v.withSrc b) = (hcRun v).withSrc b := by
  by_cases hshort : v.tooShort = true
  · rw [hcRun_of_short hshort, hcRun_of_short (s := v.withSrc b) hshort]
    rfl
  · rw [hcRun_of_long hshort, hcRun_of_long (s := v.withSrc b) hshort]
    have hzero : TablesUpTo (hcStart v.zeroHc).wk.si (hcStart v.zeroHc) := fun i => ⟨Nat.le_refl 0, Nat.le_refl 0⟩
    have hscan := scanLoop_withSrc goodPlan_hc agree (I := fun u => TablesUpTo u.wk.si u)
      (fun _ hu hsn hlt ht => hu.hcPlan_withSrc hsn hlt ht) (fun _ _ ht => ht.hcPlan_next) (v.wk.n - 12)
      (scanState_hcStart v) hzero
    refine (congrArg (Run.andThen · finish) hscan).trans (Run.andThen_withSrc fun t ht => ?_)
    have hframe := scanFrame_hcScan (v.wk.n - 12) (hcStart v.zeroHc)
    rw [hcScan_eq_scanLoop, ht] at hframe
    exact (agree.congr hframe.enc.host.src hframe.enc.n).finish_withSrc

end Hc

/-- Settles O30: each encoder does the same with another SRC that agrees below `n`, whether the request is rejected or
runs. -/
theorem encodersReadOnlyTheirInput : Obligations.EncodersReadOnlyTheirInput := by
  rintro i s t other (rfl | rfl) (agree : Agrees other s) h
  · have hsame : exec .compressFast (s.withSrc other) =
        .next ((if s.oversize then s.rejectRequest else (fastRun s).settle).withSrc other) := by
      rw [exec, execCompressFast, agree.fastRun_withSrc, Run.settle_withSrc, apply_ite (State.withSrc other)]
      rfl
    cases h
    exact hsame
  · have hsame : exec .compressHc (s.withSrc other) =
        .next ((if s.oversize then s.rejectRequest else (hcRun s).settle.forgetHc).withSrc other) := by
      rw [exec, execCompressHc, agree.hcRun_withSrc, Run.settle_withSrc, apply_ite (State.withSrc other)]
      rfl
    cases h
    exact hsame

end Sys2Proof.Machine
end

section
/-! PROOFS about the state, sixth part: what the elements of a block store in DST (43_decoder.md R203 to R207), that the engine
writes nothing at `cap` (20_memory.md R66), what a host read changes (R68), and that a step runs the decoded instruction. -/

namespace Sys2Proof.Machine

/-! ### What an element stores -/

/-- Every byte of DST outside `[lo, hi)` reads as before. -/
def SameDstOutside (lo hi : Nat) (s t : State) : Prop := ∀ a, a < lo ∨ hi ≤ a → t.dstByte a = s.dstByte a

/-- An element that starts in `s` and stores in `DST[lo..hi)` only: it goes on or returns having done so, or raises before
it has stored anything. -/
def Run.StoresIn (lo hi : Nat) (s : State) : Run → Prop
  | .go t => ElemFrame s t ∧ t.unseen = s.unseen ∧ SameDstOutside lo hi s t
  | .ret _ t => ElemFrame s t ∧ SameDstOutside lo hi s t
  | .incompressible _ => False
  | .raise t => ElemFrame s t ∧ SameDst s t

section Stores
variable {lo hi : Nat} {s : State}

/-- The first part of an element may pass its bytes and take its operands. -/
theorem Run.StoresIn.after {m : Run} {u : State} {w : Working} (h : m.StoresIn lo hi u) (hu : u = { s with wk := w })
    (hn : w.n = s.wk.n) (hc : w.cap = s.wk.cap) : m.StoresIn lo hi s := by
  subst hu
  have frame : ElemFrame s { s with wk := w } := elemFrame_update s s.dst s.engine w hn hc
  cases m with
  | go t => exact ⟨frame.trans h.1, h.2⟩
  | ret r t => exact ⟨frame.trans h.1, h.2⟩
  | incompressible t => exact h
  | raise t => exact ⟨frame.trans h.1, h.2⟩

theorem storesIn_raise : (Run.raise s).StoresIn lo hi s := ⟨elemFrame_refl s, fun _ => rfl⟩

theorem storesIn_await (c : Ctx) : (Run.go (s.await c)).StoresIn lo hi s :=
  ⟨elemFrame_update s s.dst _ s.wk rfl rfl, rfl, fun _ _ => rfl⟩

theorem storesIn_endOfLiterals : (endOfLiterals s).StoresIn lo hi s := by
  rcases endOfLiterals_cases s with ⟨-, h⟩ | ⟨-, h⟩ <;> rw [h]
  · exact ⟨elemFrame_refl s, fun _ _ => rfl⟩
  · exact storesIn_await .offset

theorem storesIn_literalRun : (literalRun s).StoresIn lo hi s := by
  rcases literalRun_cases s with ⟨-, h⟩ | ⟨-, -, ⟨-, h⟩ | ⟨-, h⟩⟩ <;> rw [h]
  · exact storesIn_raise
  · exact storesIn_endOfLiterals
  · exact storesIn_await .literal

theorem storesIn_tokenRun (ln mn : BitVec 4) : (tokenRun ln mn s).StoresIn lo hi s := by
  unfold tokenRun
  split
  · exact (storesIn_await (s := takeToken ln mn s) .litExt).after rfl rfl rfl
  · exact (storesIn_literalRun (s := takeToken ln mn s)).after rfl rfl rfl

/-- R203: the literal is stored at `DST[di]`, and what comes next stores nothing. -/
theorem storesIn_literal (b : Byte) : (literalNext (literalCopy b s)).StoresIn s.wk.di (s.wk.di + 1) s := by
  have frame : ElemFrame s (literalCopy b s) := elemFrame_update s _ s.engine _ rfl rfl
  have stored : SameDstOutside s.wk.di (s.wk.di + 1) s (literalCopy b s) := fun a ha =>
    Buf.read_write_other .dst s.dst b (by omega)
  have await (c : Ctx) : (Run.go ((literalCopy b s).await c)).StoresIn s.wk.di (s.wk.di + 1) s :=
    ⟨frame.trans (elemFrame_update _ _ _ _ rfl rfl), rfl, stored⟩
  rcases literalNext_cases (literalCopy b s) with ⟨-, h⟩ | ⟨-, h⟩ <;> rw [h]
  · rcases endOfLiterals_cases (literalCopy b s) with ⟨-, h⟩ | ⟨-, h⟩ <;> rw [h]
    · exact ⟨frame, stored⟩
    · exact await .offset
  · exact await .literal

/-- R207: a match is stored from `di` on, and one that would reach beyond `cap` is not stored at all. -/
theorem storesIn_matchCopy :
    (matchCopy s).StoresIn s.wk.di (min s.wk.cap (s.wk.di + (s.wk.matchLen + 4))) s := by
  rcases matchCopy_cases s with ⟨-, h⟩ | ⟨hfit, h⟩ <;> rw [h]
  · exact storesIn_raise
  · rw [Nat.min_eq_right hfit]
    exact ⟨elemFrame_update s _ _ _ rfl rfl, rfl, fun a ha => Buf.read_copyBytes_outside _ _ _ _ ha⟩

/-- R205 and R206: with a nibble of 15 the match is not stored yet. -/
theorem storesIn_offsetRun (off : Nat) : (offsetRun off s).StoresIn s.wk.di
    (min s.wk.cap (s.wk.di + (if s.wk.mn = 15#4 then 0 else s.wk.mn.toNat + 4))) s := by
  rcases offsetRun_cases off s with ⟨-, h⟩ | ⟨-, -, ⟨-, h⟩ | ⟨hmn, h⟩⟩ <;> rw [h]
  · exact storesIn_raise
  · exact (storesIn_await (s := s.offsetTaken off) .matchExt).after rfl rfl rfl
  · rw [if_neg hmn]
    exact (storesIn_matchCopy (s := s.offsetTaken off)).after rfl rfl rfl

end Stores

/-- Where the bytes that an element stores from `di` on end; a match that does not fit is not stored. -/
def State.storeEnd (s : State) : Instr → Nat
  | .literal _ => s.wk.di + 1
  | .offset16 _ => min s.wk.cap (s.wk.di + (if s.wk.mn = 15#4 then 0 else s.wk.mn.toNat + 4))
  | .matchlenExtEnd b => min s.wk.cap (s.wk.di + (s.wk.matchLen + b.toNat + 4))
  | _ => s.wk.di

/-- Every element is a piece of pseudocode that stores in `DST[di..storeEnd)`. -/
theorem element_storesIn {i : Instr} (hi : i.ctx ≠ .command) (s : State) :
    ∃ m : Run, exec i s = .next m.settle ∧ m.StoresIn s.wk.di (s.storeEnd i) s := by
  cases i with
  | token ln mn => exact ⟨_, rfl, storesIn_tokenRun ln mn⟩
  | litlenExtCont =>
    exact ⟨.go _, rfl, (storesIn_await (s := (s.consume 1).addLitLen 255) .litExt).after rfl rfl rfl⟩
  | litlenExtEnd t => exact ⟨_, rfl, (storesIn_literalRun (s := (s.consume 1).addLitLen t.toNat)).after rfl rfl rfl⟩
  | literal b => exact ⟨_, rfl, storesIn_literal b⟩
  | offset16 off => exact ⟨_, rfl, (storesIn_offsetRun (s := s.consume 2) off.toNat).after rfl rfl rfl⟩
  | matchlenExtCont =>
    exact ⟨.go _, rfl, (storesIn_await (s := (s.consume 1).addMatchLen 255) .matchExt).after rfl rfl rfl⟩
  | matchlenExtEnd t => exact ⟨_, rfl, (storesIn_matchCopy (s := (s.consume 1).addMatchLen t.toNat)).after rfl rfl rfl⟩
  | compressFast | compressHc | decompress | bound | illegalCommand => exact absurd rfl hi

section Settled
variable {lo hi : Nat} {s : State} {m : Run} (h : m.StoresIn lo hi s)
include h

theorem Run.StoresIn.sameTables : SameTables s m.settle := by
  cases m with
  | go t => exact h.1.tables
  | ret r t => exact ⟨h.1.tables.htF, h.1.tables.htH, h.1.tables.ct⟩
  | incompressible t => exact h.elim
  | raise t => exact ⟨h.1.tables.htF, h.1.tables.htH, h.1.tables.ct⟩

/-- Only where the command goes on is the engine not idle afterwards. -/
theorem Run.StoresIn.running (he : m.settle.engine ≠ .idle) : SameOutcome s m.settle ∧ m.settle.unseen = s.unseen ∧
    m.settle.wk.n = s.wk.n ∧ m.settle.wk.cap = s.wk.cap := by
  cases m with
  | go t => exact ⟨h.1.outcome, h.2.1, h.1.n, h.1.cap⟩
  | ret r t => exact absurd rfl he
  | incompressible t => exact h.elim
  | raise t => exact absurd rfl he

/-- An element that logs no error has stored in its range only, and one that logs an error has raised. -/
theorem Run.StoresIn.dst : (m.settle.faultLog = s.faultLog ∧ SameDstOutside lo hi s m.settle) ∨
    (m.settle.faultLog ≠ s.faultLog ∧ SameDstFrom s.wk.cap s m.settle) := by
  cases m with
  | go t => exact .inl ⟨h.1.outcome.faultLog, h.2.2⟩
  | ret r t => exact .inl ⟨h.1.outcome.faultLog, h.2⟩
  | incompressible t => exact h.elim
  | raise t =>
    obtain ⟨frame, same⟩ := h
    refine .inr ⟨?_, fun a ha => (sameDst_raiseShort t a (frame.cap ▸ ha)).trans (same a)⟩
    rw [Run.settle_raise, raiseShort_faultLog, frame.outcome.faultLog]
    exact List.cons_ne_self _ _

end Settled

/-- Settles O40: an element is a piece of pseudocode that stores in its own range, whatever its end. -/
theorem elementFrames : Obligations.ElementFrames := by
  intro i s t hi ht
  obtain ⟨m, hm, stores⟩ := element_storesIn hi s
  obtain rfl : m.settle = t := Host.Outcome.next.inj (hm.symm.trans ht)
  refine ⟨instructionsKeepTheHostSide i s _ ht, stores.sameTables, stores.running, fun hlog => ?_, fun hlog => ?_⟩
  · obtain ⟨-, outside⟩ := stores.dst.resolve_right fun raised => raised.1 hlog
    have nothing (hend : s.storeEnd i = s.wk.di) : SameDst s m.settle := fun a => outside a (by omega)
    cases i with
    | literal b => exact fun a ha => outside a (show a < s.wk.di ∨ s.wk.di + 1 ≤ a by omega)
    | offset16 off => exact fun a ha => outside a (ha.imp_right (Nat.min_le_right _ _).trans)
    | matchlenExtEnd b => exact fun a ha => outside a (ha.imp_right (Nat.min_le_right _ _).trans)
    | token ln mn => exact nothing rfl
    | litlenExtCont => exact nothing rfl
    | litlenExtEnd b => exact nothing rfl
    | matchlenExtCont => exact nothing rfl
    | compressFast | compressHc | decompress | bound | illegalCommand => exact absurd rfl hi
  · exact (stores.dst.resolve_left fun kept => hlog kept.1).2

/-! ### Nothing is written at `cap` (R66) -/

/-- Under the invariant an element stores below `cap`; for a literal, because the run fits. -/
theorem storeEnd_le_cap {s : State} {i : Instr} (h : InBlock s) (fits : FitsContext i.ctx s) :
    s.storeEnd i ≤ s.wk.cap := by
  cases i with
  | literal b =>
    obtain ⟨hpos, -, hdst⟩ := fits.1 rfl
    exact (Nat.add_le_add_left hpos _).trans hdst
  | offset16 off => exact Nat.min_le_left _ _
  | matchlenExtEnd b => exact Nat.min_le_left _ _
  | token | litlenExtCont | litlenExtEnd | matchlenExtCont => exact h.di
  | compressFast | compressHc | decompress | bound | illegalCommand => exact h.di

theorem element_sameDstFrom_cap {s : State} {i : Instr} (h : InBlock s) (hi : i.ctx ≠ .command)
    (fits : FitsContext i.ctx s) : ∃ t, exec i s = .next t ∧ SameDstFrom s.wk.cap s t := by
  obtain ⟨m, hm, stores⟩ := element_storesIn hi s
  refine ⟨_, hm, ?_⟩
  rcases stores.dst with ⟨-, outside⟩ | ⟨-, kept⟩
  · exact fun a ha => outside a (.inr ((storeEnd_le_cap h fits).trans ha))
  · exact kept

/-- A command stores below `cap` in any state; only the encoders store at all. -/
theorem command_sameDstFrom_cap {i : Instr} (hi : i.ctx = .command) (s : State) :
    ∃ t, exec i s = .next t ∧ SameDstFrom s.wk.cap s t := by
  cases i with
  | compressFast =>
    refine ⟨_, rfl, ?_⟩
    split
    · exact fun _ _ => rfl
    · exact sameDst_settle (scanFrame_fastRun s)
  | compressHc =>
    refine ⟨_, rfl, ?_⟩
    split
    · exact fun _ _ => rfl
    · exact sameDst_settle (scanFrame_hcRun s)
  | decompress =>
    refine ⟨_, rfl, ?_⟩
    unfold decompressRun
    repeat' split
    all_goals exact fun _ _ => rfl
  | bound =>
    refine ⟨_, rfl, ?_⟩
    split <;> exact fun _ _ => rfl
  | illegalCommand op reserved => exact ⟨_, rfl, fun _ _ => rfl⟩
  | token | litlenExtCont | litlenExtEnd | literal | offset16 | matchlenExtCont | matchlenExtEnd => cases hi

/-- Settles O56: the engine is idle, runs a command or an element, or raises. -/
theorem nothingIsWrittenAtCap : Obligations.NothingIsWrittenAtCap := by
  intro s t h ht
  rcases engineTurn_cases s with ⟨-, hu⟩ | ⟨c, he, ⟨i, rest, hd, hu⟩ | ⟨why, -, hu⟩⟩
  · obtain rfl : s = t := Host.Outcome.next.inj (hu.symm.trans ht)
    exact fun _ _ => rfl
  · obtain ⟨-, rfl⟩ := decode_sound hd
    have hexec : ∃ u, exec i s = .next u ∧ SameDstFrom s.wk.cap s u := by
      by_cases hc : i.ctx = .command
      · exact command_sameDstFrom_cap hc s
      · obtain ⟨hb, fits⟩ := h.inBlock he hc
        exact element_sameDstFrom_cap hb hc fits
    obtain ⟨u, hnext, same⟩ := hexec
    obtain rfl : u = t := Host.Outcome.next.inj (hnext.symm.trans (hu.symm.trans ht))
    exact same
  · obtain rfl : s.raiseShort = t := Host.Outcome.next.inj (hu.symm.trans ht)
    exact sameDst_raiseShort s

/-! ### Host reads (R68) -/

/-- The host has not been promised less: all of the record stays, or a STATUS with DONE = 1 was read and settles it. -/
def KeepsPromises (observes : Prop) (s t : State) : Prop :=
  t.unseen = s.unseen ∨ (observes ∧ t.unseen = .nothing ∧ statusDone s.status = true ∧ t.readData = s.status)

/-- Of the register slots, only a read of STATUS can settle what the host is owed. -/
theorem readSlot_keepsPromises (i : Nat) (s : State) : KeepsPromises (i = 4) s (readSlot i s) := by
  by_cases h4 : i = 4
  · subst h4
    by_cases hdone : statusDone s.status = true
    · exact .inr ⟨rfl, if_pos hdone, hdone, rfl⟩
    · exact .inl (if_neg hdone)
  · unfold readSlot
    rw [if_neg h4]
    left
    repeat' split
    all_goals rfl

theorem regionOf_eq_reg {p : Params} {a off : Nat} (h : regionOf p a = .reg off) : a = p.baseReg + off := by
  unfold regionOf at h
  repeat' split at h
  all_goals cases h
  omega

/-- So does a read of any address: STATUS is the word at offset 16 of the register space. -/
theorem hostRead_keepsPromises {a : Nat} {w : Width} {s t : State} (h : hostRead a w s = .next t) :
    KeepsPromises (a = s.cfg.baseReg + 16 ∧ w = .word) s t := by
  have buffer {base size off : Nat} {hidden : Nat → Bool} {f : Nat → Byte}
      (hb : readBuffer base size off hidden f w s = .next t) : t.unseen = s.unseen := by
    unfold readBuffer at hb
    split at hb <;> cases hb
    rfl
  unfold hostRead at h
  split at h
  · rename_i off hreg
    split at h <;> cases h
    rename_i hform
    simp only [wordAccess, Bool.and_eq_true, decide_eq_true_eq] at hform
    have haddr := regionOf_eq_reg hreg
    exact (readSlot_keepsPromises (off / 4) s).imp_right fun ⟨h4, rest⟩ => ⟨⟨by omega, hform.1⟩, rest⟩
  · exact .inl (buffer h)
  · exact .inl (buffer h)
  · split at h <;> cases h
    left
    split <;> rfl
  · cases h

/-- Settles O52: a host read changes the data read, the counter, and what the host is owed. -/
theorem hostReadsHaveNoSideEffects : Obligations.HostReadsHaveNoSideEffects := by
  intro s t a w h
  refine ⟨?_, (hostRead_keepsPromises h).imp_right fun ⟨⟨ha, hw⟩, hu, hdone, hdata⟩ => ⟨hu, ha, hw, hdone, hdata⟩⟩
  obtain ⟨d, u, k, rfl⟩ := hostRead_changes h
  rfl

/-! ### Steps -/

theorem engineTurn_of_decoded {s : State} {c : Ctx} {i : Instr} {rest : List Byte} (he : s.engine = .busy c)
    (hd : decode c (s.fetchBytes c) = .ok i rest) : engineTurn s = exec i s := by
  simp only [engineTurn, he, hd]

/-- A fetch does not depend on what the host does next. -/
theorem fetchBytes_withInbox (s : State) (later : List HostEvent) (c : Ctx) :
    State.fetchBytes { s with inbox := later } c = s.fetchBytes c := by
  cases c <;> rfl

/-- Settles O42: with an empty inbox or a pause, the step is the engine's turn. -/
theorem stepRunsTheDecodedInstruction : Obligations.StepRunsTheDecodedInstruction := by
  intro s c i rest he hd
  refine ⟨(decode_sound hd).1, fun hin => ?_, fun later hin => ?_⟩
  · rw [step_of_inbox_nil hin, engineTurn_of_decoded he hd]
  · rw [step_of_inbox_cons hin]
    exact engineTurn_of_decoded he ((congrArg _ (fetchBytes_withInbox s later c)).trans hd)

end Sys2Proof.Machine
end

section
/-! PROOFS of the statements of 30_encoding.md: the instructions' encodings (R80 to R86), the length extensions (R84),
the sizes of sequences (R87), and that a block decodes to its sequences (R82). -/

namespace Sys2Proof.Machine

/-! ### Encodings of instructions -/

/-- Settles O2, constructor by constructor. -/
theorem decodeOfEncode : Obligations.DecodeOfEncode := by
  intro i rest h
  cases i with
  | compressFast => exact Laws.RoundTrip.compressFast h rest
  | compressHc => exact Laws.RoundTrip.compressHc h rest
  | decompress => exact Laws.RoundTrip.decompress h rest
  | bound => exact Laws.RoundTrip.bound h rest
  | illegalCommand op r => exact Laws.RoundTrip.illegalCommand op r h rest
  | token ln mn => exact Laws.RoundTrip.token ln mn h rest
  | litlenExtCont => exact Laws.RoundTrip.litlenExtCont h rest
  | litlenExtEnd t => exact Laws.RoundTrip.litlenExtEnd t h rest
  | literal b => exact Laws.RoundTrip.literal b h rest
  | offset16 off => exact Laws.RoundTrip.offset16 off h rest
  | matchlenExtCont => exact Laws.RoundTrip.matchlenExtCont h rest
  | matchlenExtEnd t => exact Laws.RoundTrip.matchlenExtEnd t h rest

/-- The word of four bytes as a number, least significant byte first (20_memory.md R60). -/
theorem wordOfBytes_toNat (b0 b1 b2 b3 : Byte) : (wordOfBytes b0 b1 b2 b3).toNat =
    b0.toNat + 256 * b1.toNat + 65536 * b2.toNat + 16777216 * b3.toNat := by
  simp only [wordOfBytes, append_byte_toNat]
  omega

theorem extractByte_eq {w : Word} {k : Nat} {b : Byte} (h : w.toNat / 2 ^ k % 256 = b.toNat) : w.extractLsb' k 8 = b :=
  BitVec.eq_of_toNat_eq (by rwa [BitVec.extractLsb'_toNat, Nat.shiftRight_eq_div_pow])

/-- Four bytes are those of their word. -/
theorem bytesOfWord_wordOfBytes (b0 b1 b2 b3 : Byte) : bytesOfWord (wordOfBytes b0 b1 b2 b3) = [b0, b1, b2, b3] := by
  have hw := wordOfBytes_toNat b0 b1 b2 b3
  rw [bytesOfWord, extractByte_eq (b := b0) (by omega), extractByte_eq (b := b1) (by omega),
    extractByte_eq (b := b2) (by omega), extractByte_eq (b := b3) (by omega)]

/-- A command word is its two fields (30_encoding.md R80). -/
theorem exists_commandWord (w : Word) : ∃ op r, w = commandWord op r := ⟨_, _, (commandWord_fields w).symm⟩

/-- No bit of a command word is dropped (30_encoding.md R80, R81). -/
theorem encode_decodeCommand (w : Word) : encode (decodeCommand w) = bytesOfWord w := by
  obtain ⟨op, r, rfl⟩ := exists_commandWord w
  rw [decodeCommand_commandWord]
  by_cases hr : r = 0#28
  · subst hr
    rw [if_neg (not_not.mpr rfl)]
    repeat' split
    all_goals subst_vars; rfl
  · rw [if_pos hr]
    rfl

/-- What the decoder reads is the encoding of what it answers (R80 to R86). -/
theorem encode_of_decode {c : Ctx} {bs rest : List Byte} {i : Instr} (h : decode c bs = .ok i rest) :
    bs = encode i ++ rest := by
  cases c with
  | command =>
    simp only [decode, decodeCommandBytes] at h
    split at h <;> cases h
    rw [encode_decodeCommand, bytesOfWord_wordOfBytes]
    rfl
  | token =>
    simp only [decode, decodeToken] at h
    split at h <;> cases h
    simp only [encode, append_extract (m := 4) (n := 4)]
    rfl
  | litExt =>
    simp only [decode, decodeLitExt] at h
    split at h <;> cases h
    split
    · subst_vars; rfl
    · rfl
  | literal =>
    simp only [decode, decodeLiteral] at h
    split at h <;> cases h
    rfl
  | offset =>
    simp only [decode, decodeOffset] at h
    split at h
    · split at h <;> cases h
      simp only [encode, extract_low, extract_high]
      rfl
    · cases h
  | matchExt =>
    simp only [decode, decodeMatchExt] at h
    split at h <;> cases h
    split
    · subst_vars; rfl
    · rfl

/-- Settles O3: nothing is dropped, and what is answered is sound. -/
theorem encodeOfDecode : Obligations.EncodeOfDecode := fun _ _ _ _ h => ⟨encode_of_decode h, decode_sound h⟩

/-- Settles O1 by evaluating the decoder. -/
theorem writtenOutWordsDecode : Obligations.WrittenOutWordsDecode := by
  unfold Obligations.WrittenOutWordsDecode
  decide

/-- An offset is 0 when both its bytes are (30_encoding.md R86). -/
theorem offset_eq_zero_iff (lo hi : Byte) : hi ++ lo = 0#16 ↔ lo = 0 ∧ hi = 0 := by
  have hnat : (hi ++ lo).toNat = 256 * hi.toNat + lo.toNat := append_byte_toNat hi lo
  constructor
  · intro h
    have hz : (hi ++ lo).toNat = 0 := congrArg BitVec.toNat h
    exact ⟨BitVec.eq_of_toNat_eq (show lo.toNat = 0 by omega), BitVec.eq_of_toNat_eq (show hi.toNat = 0 by omega)⟩
  · rintro ⟨rfl, rfl⟩
    rfl

/-- Settles O4, by the context and the number of bytes. -/
theorem rejectedExactly : Obligations.RejectedExactly := by
  intro c bs
  cases c with
  | command => rcases bs with _ | ⟨_, _ | ⟨_, _ | ⟨_, _ | ⟨_, r⟩⟩⟩⟩ <;> simp [decode, decodeCommandBytes]
  | token => cases bs <;> simp [decode, decodeToken]
  | litExt => cases bs <;> simp [decode, decodeLitExt]
  | literal => cases bs <;> simp [decode, decodeLiteral]
  | matchExt => cases bs <;> simp [decode, decodeMatchExt]
  | offset =>
    rcases bs with _ | ⟨lo, _ | ⟨hi, r⟩⟩
    · simp [decode, decodeOffset]
    · simp [decode, decodeOffset]
    · by_cases h : hi ++ lo = 0#16
      · simp [decode, decodeOffset, (offset_eq_zero_iff lo hi).mp h]
      · have hne : ¬ (lo = 0 ∧ hi = 0) := fun hz => h ((offset_eq_zero_iff lo hi).mpr hz)
        simpa [decode, decodeOffset, h] using hne

/-! ### Length extensions (R84) -/

theorem readLen_cont (base : Nat) (r : List Byte) : readLen base (Config.extCont :: r) = readLen (base + 255) r :=
  if_pos rfl

theorem readLen_end (base : Nat) {t : Byte} (r : List Byte) (h : t ≠ Config.extCont) :
    readLen base (t :: r) = some (base + t.toNat, r) :=
  if_neg h

/-- The value of an extension of `k` continuation bytes and a terminator (43_decoder.md R202). -/
theorem readLen_replicate (k base : Nat) {t : Byte} (r : List Byte) (h : t ≠ Config.extCont) :
    readLen base (List.replicate k Config.extCont ++ t :: r) = some (base + 255 * k + t.toNat, r) := by
  induction k generalizing base with
  | zero => exact readLen_end base r h
  | succ k ih => rw [List.replicate_succ, List.cons_append, readLen_cont, ih, Nat.mul_succ, Nat.add_comm (255 * k),
      Nat.add_assoc base]

theorem ofNat_ne_extCont {v : Nat} (h : v < 255) : BitVec.ofNat 8 v ≠ Config.extCont := by
  intro he
  have hv : v % 256 = 255 := congrArg BitVec.toNat he
  omega

/-- The bytes of `PutExt(v)` (40_token_codec.md R112) have the value `v`. -/
theorem readLen_extBytes (base v : Nat) (r : List Byte) : readLen base (extBytes v ++ r) = some (base + v, r) := by
  have hmod : v % 255 < 255 := Nat.mod_lt v (by omega)
  have hnat : (BitVec.ofNat 8 (v % 255)).toNat = v % 255 := Nat.mod_eq_of_lt (by omega)
  rw [extBytes, List.append_assoc, List.singleton_append, readLen_replicate _ _ _ (ofNat_ne_extCont hmod), hnat,
    Nat.add_assoc, Nat.div_add_mod]

/-- Whatever extension the decoder reads is the one `PutExt` emits for its value. -/
theorem extBytes_of_readLen {base v : Nat} {bs rest : List Byte} (h : readLen base bs = some (v, rest)) :
    base ≤ v ∧ bs = extBytes (v - base) ++ rest := by
  induction bs generalizing base with
  | nil => cases h
  | cons b r ih =>
    by_cases hb : b = Config.extCont
    · subst hb
      rw [readLen_cont] at h
      obtain ⟨hle, hr⟩ := ih h
      have hsub : v - (base + 255) = v - base - 255 := by omega
      exact ⟨by omega, by rw [extBytes_step (by omega), hr, hsub, List.cons_append]⟩
    · rw [readLen_end base r hb] at h
      cases h
      have hlt : b.toNat < 255 := by
        have hne : b.toNat ≠ 255 := fun he => hb (BitVec.eq_of_toNat_eq he)
        omega
      rw [Nat.add_sub_cancel_left, extBytes_small hlt, BitVec.ofNat_toNat, BitVec.setWidth_eq]
      exact ⟨by omega, rfl⟩

/-- Settles O5: the value by induction on the continuation bytes, the form by induction on the bytes. -/
theorem extensionsAreUnique : Obligations.ExtensionsAreUnique := by
  refine ⟨fun k base t rest ht => readLen_replicate k base rest ht, fun base v bs rest h => ?_⟩
  obtain ⟨hle, hbs⟩ := extBytes_of_readLen h
  exact ⟨hle, by rw [hbs, extBytes, List.append_assoc]; rfl⟩

/-! ### Sizes (R87) -/

theorem lenExt_length_lt (v : Nat) : (lenExt v).length = if v < 15 then 0 else (v - 15) / 255 + 1 := by
  rw [lenExt_length]
  split <;> split <;> omega

/-- Settles O6: the parts' lengths, added up. -/
theorem sequenceSizes : Obligations.SequenceSizes := by
  refine ⟨fun lit off len _ => ?_, fun lit => ?_⟩
  · simp only [Line.bytes, seqBytes, List.length_cons, List.length_append, offsetBytes_length, lenExt_length_lt,
      Config.minMatch]
    omega
  · simp only [Line.bytes, lastHeader, List.length_cons, List.length_append, lenExt_length_lt]
    omega

/-! ### Blocks (R82) -/

theorem tokenByte_hi (L X : Nat) : (tokenByte L X).toNat / 16 = min L 15 := by
  rw [tokenByte_toNat]
  omega

theorem tokenByte_lo (L X : Nat) : (tokenByte L X).toNat % 16 = min X 15 := by
  rw [tokenByte_toNat]
  omega

/-- A nibble and its extension give the length back (R83, R84). -/
theorem nibbleLen_lenExt (v : Nat) (r : List Byte) : nibbleLen (min v 15) (lenExt v ++ r) = some (v, r) := by
  by_cases h : 15 ≤ v
  · rw [Nat.min_eq_right h, nibbleLen, if_pos rfl, lenExt, if_pos h, readLen_extBytes, Nat.add_sub_cancel' h]
  · rw [Nat.min_eq_left (by omega), nibbleLen, if_neg (show ¬ v = 15 by omega), lenExt, if_neg h, List.nil_append]

@[simp] theorem overlapCopy_length (count off : Nat) (out : List Byte) :
    (overlapCopy count off out).length = out.length + count := by
  induction count generalizing out with
  | zero => rfl
  | succ k ih => rw [overlapCopy, ih, List.length_append, List.length_singleton, Nat.add_assoc, Nat.add_comm 1]

@[simp] theorem Sequence.expand_length (out : List Byte) (q : Sequence) :
    (q.expand out).length = out.length + q.lit.length + q.len := by
  rw [Sequence.expand, overlapCopy_length, List.length_append]

theorem length_le_foldl_expand (qs : List Sequence) (out : List Byte) :
    out.length ≤ (qs.foldl Sequence.expand out).length := by
  induction qs generalizing out with
  | nil => exact Nat.le_refl _
  | cons q qs ih =>
    have := ih (q.expand out)
    rw [Sequence.expand_length] at this
    rw [List.foldl_cons]
    omega

/-- The two bytes of an offset, read low byte first (R86). -/
theorem offsetBytes_value {off : Nat} (h : off ≤ 65535) :
    (BitVec.ofNat 8 off).toNat + 256 * (BitVec.ofNat 8 (off / 256)).toNat = off := by
  simp only [BitVec.toNat_ofNat]
  omega

/-- The match of a legal sequence, from its offset on (43_decoder.md R205 to R207). -/
theorem blockMatch_seq {cap off len : Nat} {out : List Byte} (rest : List Byte) (hlen : 4 ≤ len) (hpos : 1 ≤ off)
    (hmax : off ≤ 65535) (hout : off ≤ out.length) (hcap : out.length + len ≤ cap) :
    blockMatch cap (min (len - 4) 15) (offsetBytes off ++ lenExt (len - 4) ++ rest) out =
      some (overlapCopy len off out, rest) := by
  have hm : len - 4 + 4 = len := Nat.sub_add_cancel hlen
  simp only [offsetBytes, List.cons_append, List.nil_append, blockMatch, offsetBytes_value hmax, nibbleLen_lenExt, hm]
  rw [if_neg (by omega), if_neg (by omega)]

/-- One round of the loop: a legal sequence appends what it expands to. -/
theorem blockLoop_seq {cap : Nat} {out : List Byte} {q : Sequence} (f : Nat) (rest : List Byte) (h : q.legal out)
    (hcap : (q.expand out).length ≤ cap) :
    blockLoop cap (f + 1) (seqBytes q.lit q.off q.len ++ rest) out = blockLoop cap f rest (q.expand out) := by
  obtain ⟨hlen, hpos, hmax, hout⟩ := h
  rw [Sequence.expand_length] at hcap
  have hmatch := blockMatch_seq (cap := cap) (out := out ++ q.lit) rest hlen hpos hmax hout
    (by rw [List.length_append]; exact hcap)
  rw [List.append_assoc] at hmatch
  simp only [seqBytes, List.cons_append, List.append_assoc, blockLoop, Config.minMatch, tokenByte_hi, tokenByte_lo,
    nibbleLen_lenExt, List.drop_left, List.take_left, hmatch, List.length_append, offsetBytes_length]
  rw [if_neg (by omega), if_neg (by omega), if_neg (by omega)]
  rfl

/-- The last round of the loop: the final literals end the block (43_decoder.md R204). -/
theorem blockLoop_last {cap : Nat} {out : List Byte} (f : Nat) (last : List Byte)
    (hcap : out.length + last.length ≤ cap) :
    blockLoop cap (f + 1) (lastHeader last.length ++ last) out = some (out ++ last) := by
  simp only [lastHeader, List.cons_append, blockLoop, tokenByte_hi, nibbleLen_lenExt]
  rw [if_neg (Nat.lt_irrefl _), if_neg (Nat.not_lt.mpr hcap), if_pos trivial]

theorem blockBytes_nil (last : List Byte) : blockBytes [] last = lastHeader last.length ++ last :=
  List.append_nil _

theorem blockBytes_cons (q : Sequence) (qs : List Sequence) (last : List Byte) :
    blockBytes (q :: qs) last = seqBytes q.lit q.off q.len ++ blockBytes qs last := rfl

/-- Each sequence has a byte, its token, and so has the final one: the block's length is enough fuel. -/
theorem length_lt_blockBytes (qs : List Sequence) (last : List Byte) : qs.length < (blockBytes qs last).length := by
  induction qs with
  | nil => rw [blockBytes_nil]; exact Nat.zero_lt_succ _
  | cons q qs ih =>
    rw [blockBytes_cons, List.length_append, seqBytes, List.length_cons, List.length_cons]
    omega

/-- The loop runs a block of legal sequences to its end, from any output on. -/
theorem blockLoop_blockBytes {cap fuel : Nat} {qs : List Sequence} {last out : List Byte} (hfuel : qs.length < fuel)
    (h : legalFrom out qs) (hcap : (qs.foldl Sequence.expand out).length + last.length ≤ cap) :
    blockLoop cap fuel (blockBytes qs last) out = some (qs.foldl Sequence.expand out ++ last) := by
  induction qs generalizing out fuel with
  | nil =>
    obtain ⟨f, rfl⟩ := Nat.exists_eq_add_one.mpr hfuel
    rw [blockBytes_nil]
    exact blockLoop_last (out := out) f last hcap
  | cons q qs ih =>
    obtain ⟨f, rfl⟩ := Nat.exists_eq_add_one.mpr (Nat.zero_lt_of_lt hfuel)
    obtain ⟨hq, hqs⟩ := h
    rw [List.foldl_cons] at hcap ⊢
    have hle := length_le_foldl_expand qs (q.expand out)
    rw [blockBytes_cons, blockLoop_seq f _ hq (by omega)]
    exact ih (Nat.lt_of_succ_lt_succ hfuel) hqs hcap

/-- Settles O7: the loop over the sequences, from no output on. -/
theorem blocksDecodeToTheirSequences : Obligations.BlocksDecodeToTheirSequences := by
  intro qs last cap hlegal hcap
  have hfuel := length_lt_blockBytes qs last
  have hne : blockBytes qs last ≠ [] := List.ne_nil_of_length_pos (by omega)
  rw [decodeBlock, if_neg hne]
  exact blockLoop_blockBytes hfuel hlegal hcap

end Sys2Proof.Machine
end

section
/-! PROOFS about the instructions of 30_encoding.md: an illegal command word (R81), the elements of a block TOKEN,
LITLEN_EXT_CONT, MATCHLEN_EXT_CONT, LITERAL and OFFSET16 (R83 to R86; 43_decoder.md R202 to R207), and bytes that are no
element (R88). -/

namespace Sys2Proof.Machine

/-! ### Illegal command words (R81) -/

theorem commandWord_toNat (op : BitVec 4) (r : BitVec 28) : (commandWord op r).toNat = 16 * r.toNat + op.toNat := by
  rw [commandWord, BitVec.toNat_append, ← Nat.shiftLeft_add_eq_or_of_lt op.isLt, Nat.shiftLeft_eq, Nat.mul_comm]

theorem legalCommand_iff (op : BitVec 4) (r : BitVec 28) :
    legalCommand op r = true ↔ r.toNat = 0 ∧ 1 ≤ op.toNat ∧ op.toNat ≤ 4 := by
  simp only [legalCommand, Bool.and_eq_true, Bool.or_eq_true, beq_iff_eq, ← BitVec.toNat_inj, BitVec.toNat_ofNat]
  omega

/-- Two legal fields decode to one of the four commands. -/
theorem decodeCommand_ne_illegal {op : BitVec 4} {r : BitVec 28} (h : legalCommand op r = true) (op' : BitVec 4)
    (r' : BitVec 28) : decodeCommand (commandWord op r) ≠ .illegalCommand op' r' := by
  simp only [legalCommand, Bool.and_eq_true, Bool.or_eq_true, beq_iff_eq] at h
  obtain ⟨rfl, ((rfl | rfl) | rfl) | rfl⟩ := h <;> exact fun h => nomatch h

/-- Any other two fields are those of an illegal command. -/
theorem decodeCommand_illegal {op : BitVec 4} {r : BitVec 28} (h : legalCommand op r = false) :
    decodeCommand (commandWord op r) = .illegalCommand op r := by
  have hwf : (Instr.illegalCommand op r).wf = true := by rw [Instr.wf, h]; rfl
  have hdec := (decode_command (commandWord op r) []).symm.trans (Laws.RoundTrip.illegalCommand op r hwf [])
  exact (Decoded.ok.inj hdec).1

/-- Settles O19: which words are illegal, by their two fields; and the rejection of the request. -/
theorem illegalCommandCompletes : Obligations.IllegalCommandCompletes := by
  refine ⟨fun w => ?_, fun op reserved s => ?_⟩
  · obtain ⟨op, r, rfl⟩ := exists_commandWord w
    have hop := op.isLt
    have hw := commandWord_toNat op r
    have hlegal := legalCommand_iff op r
    cases h : legalCommand op r with
    | true =>
      obtain ⟨hr, hlo, hhi⟩ := hlegal.mp h
      exact iff_of_false (fun ⟨op', r', he⟩ => decodeCommand_ne_illegal h op' r' he) (by omega)
    | false =>
      have hnot := mt hlegal.mpr (Bool.eq_false_iff.mp h)
      exact iff_of_true ⟨op, r, decodeCommand_illegal h⟩ (by omega)
  · exact ⟨_, rfl, completed_rejectRequest s, statusErr_statusWord false true _, hostSide_rejectRequest s,
      ⟨rfl, rfl, rfl⟩, fun _ => rfl⟩

/-! ### The guards of the copy engine, one equation for each case -/

section Guards
variable {s : State}

theorem endOfLiterals_end (h : s.wk.si = s.wk.n) : endOfLiterals s = .ret s.wk.di s := if_pos h

theorem endOfLiterals_offset (h : s.wk.si ≠ s.wk.n) : endOfLiterals s = .go (s.await .offset) := if_neg h

/-- R203: a run that does not fit raises. -/
theorem literalRun_raise (h : s.wk.n < s.wk.si + s.wk.litLen ∨ s.wk.cap < s.wk.di + s.wk.litLen) :
    literalRun s = .raise s := by
  rcases literalRun_cases s with ⟨-, e⟩ | ⟨hn, hc, -⟩
  · exact e
  · omega

/-- R203: a run that fits and is not empty is copied. -/
theorem literalRun_literals (hn : s.wk.si + s.wk.litLen ≤ s.wk.n) (hc : s.wk.di + s.wk.litLen ≤ s.wk.cap)
    (hpos : s.wk.litLen ≠ 0) : literalRun s = .go (s.await .literal) := by
  rcases literalRun_cases s with ⟨h, -⟩ | ⟨-, -, ⟨h0, -⟩ | ⟨-, e⟩⟩
  · omega
  · exact absurd h0 hpos
  · exact e

/-- R204: an empty run is over. -/
theorem literalRun_empty (hn : s.wk.si ≤ s.wk.n) (hc : s.wk.di ≤ s.wk.cap) (h0 : s.wk.litLen = 0) :
    literalRun s = endOfLiterals s := by
  rcases literalRun_cases s with ⟨h, -⟩ | ⟨-, -, ⟨-, e⟩ | ⟨hpos, -⟩⟩
  · omega
  · exact e
  · exact absurd h0 hpos

/-- R207: a match that fits is copied. -/
theorem matchCopy_fits (h : s.wk.di + (s.wk.matchLen + 4) ≤ s.wk.cap) :
    matchCopy s = .go (s.matched (s.wk.matchLen + 4)) := if_neg (Nat.not_lt.mpr h)

theorem matchCopy_raise (h : s.wk.cap < s.wk.di + (s.wk.matchLen + 4)) : matchCopy s = .raise s := if_pos h

end Guards

/-! ### TOKEN (R83) -/

theorem exec_token_extension (mn : BitVec 4) (s : State) :
    exec (.token 15#4 mn) s = .next ((takeToken 15#4 mn s).await .litExt) := rfl

theorem exec_token {ln : BitVec 4} (mn : BitVec 4) (s : State) (h : ln ≠ 15#4) :
    exec (.token ln mn) s = .next (literalRun (takeToken ln mn s)).settle := by
  have hrun : tokenRun ln mn s = literalRun (takeToken ln mn s) := if_neg h
  rw [← hrun]
  rfl

/-- Settles O33: the nibble, then the two checks, then the end of an empty run. -/
theorem tokenOpensTheRun : Obligations.TokenOpensTheRun := by
  intro ln mn s
  refine ⟨?_, fun h15 hn hc h0 => ?_, ?_, ?_, fun h15 h => ?_⟩
  · rintro rfl
    exact exec_token_extension mn s
  · have hpos : ln.toNat ≠ 0 := fun h => h0 (BitVec.eq_of_toNat_eq h)
    rw [exec_token mn s h15, literalRun_literals (s := takeToken ln mn s) hn hc hpos]
    rfl
  · rintro rfl hn hc
    rw [exec_token mn s (by decide), literalRun_empty (s := takeToken 0#4 mn s) hn.le hc rfl,
      endOfLiterals_offset (s := takeToken 0#4 mn s) hn.ne]
    rfl
  · rintro rfl hn hc
    rw [exec_token mn s (by decide), literalRun_empty (s := takeToken 0#4 mn s) hn.le hc rfl,
      endOfLiterals_end (s := takeToken 0#4 mn s) hn]
    exact ⟨_, rfl, completed_of_faultLog rfl _ _ _, ⟨rfl, rfl, rfl, rfl, rfl, rfl, rfl, rfl⟩, ⟨rfl, rfl, rfl⟩,
      fun _ => rfl⟩
  · rw [exec_token mn s h15, literalRun_raise (s := takeToken ln mn s) h]
    exact ⟨_, rfl, completed_raise rfl⟩

/-! ### The extensions (R84) -/

/-- Settles O34: both continuation bytes, by what the two instructions do. -/
theorem continuationAdds255 : Obligations.ContinuationAdds255 := fun _ => ⟨rfl, rfl⟩

/-! ### LITERAL (R85) -/

/-- What a literal leaves stores its byte at `di`, whatever comes next. -/
theorem literalNext_dst (b : Byte) (s : State) :
    (literalNext (literalCopy b s)).settle.dst = s.dst.write s.wk.di b := by
  rcases literalNext_cases (literalCopy b s) with ⟨-, h⟩ | ⟨-, h⟩ <;> rw [h]
  · rcases endOfLiterals_cases (literalCopy b s) with ⟨-, h⟩ | ⟨-, h⟩ <;> rw [h] <;> rfl
  · rfl

/-- R203: a run of more than one literal goes on. -/
theorem literalNext_literal {b : Byte} {s : State} (h : 1 < s.wk.litLen) :
    literalNext (literalCopy b s) = .go ((literalCopy b s).await .literal) :=
  if_neg (Nat.sub_ne_zero_of_lt h)

/-- R204: its last literal ends a run. -/
theorem literalNext_last {b : Byte} {s : State} (h : s.wk.litLen ≤ 1) :
    literalNext (literalCopy b s) = endOfLiterals (literalCopy b s) :=
  if_pos (Nat.sub_eq_zero_of_le h)

/-- Settles O36: the store, and the three ways on. -/
theorem literalStoresOneByte : Obligations.LiteralStoresOneByte := by
  intro b s
  have hdst := literalNext_dst b s
  have hread (a : Nat) : (literalNext (literalCopy b s)).settle.dstByte a = if a = s.wk.di then b else s.dstByte a := by
    rw [State.dstByte, hdst, Buf.read_write]
    rfl
  have hhost : HostSide s (literalNext (literalCopy b s)).settle := instructionsKeepTheHostSide (.literal b) s _ rfl
  refine ⟨_, rfl, hhost, (storesIn_literal b).sameTables, (hread _).trans (if_pos rfl),
    fun a ha => (hread a).trans (if_neg ha), fun hlit => ?_, fun hlit hn => ?_, fun hlit hn => ?_⟩
  · rw [literalNext_literal hlit]
    exact ⟨rfl, ⟨rfl, rfl, rfl⟩, rfl⟩
  · have h0 : s.wk.litLen - 1 = 0 := Nat.sub_eq_zero_of_le hlit
    rw [literalNext_last hlit, endOfLiterals_offset (s := literalCopy b s) hn, ← h0]
    exact ⟨rfl, ⟨rfl, rfl, rfl⟩, rfl⟩
  · rw [literalNext_last hlit, endOfLiterals_end (s := literalCopy b s) hn]
    exact completed_of_faultLog (s := s) (v := literalCopy b s) rfl _ _ _

/-! ### OFFSET16 (R86) -/

theorem exec_offset16 (off : BitVec 16) (s : State) :
    exec (.offset16 off) s = .next (offsetRun off.toNat (s.consume 2)).settle := rfl

section Offset
variable {off : Nat} {s : State}

/-- R205: an offset of 0 or beyond the output raises. -/
theorem offsetRun_raise (h : off = 0 ∨ s.wk.di < off) : offsetRun off s = .raise s := if_pos h

/-- R206: a nibble of 15 awaits the extension. -/
theorem offsetRun_extension (hpos : off ≠ 0) (hdi : off ≤ s.wk.di) (hmn : s.wk.mn = 15#4) :
    offsetRun off s = .go ((s.offsetTaken off).await .matchExt) := by
  rcases offsetRun_cases off s with ⟨h, -⟩ | ⟨-, -, ⟨-, e⟩ | ⟨hne, -⟩⟩
  · omega
  · exact e
  · exact absurd hmn hne

/-- R206: with any other nibble the match is copied. -/
theorem offsetRun_match (hpos : off ≠ 0) (hdi : off ≤ s.wk.di) (hmn : s.wk.mn ≠ 15#4) :
    offsetRun off s = matchCopy (s.offsetTaken off) := by
  rcases offsetRun_cases off s with ⟨h, -⟩ | ⟨-, -, ⟨heq, -⟩ | ⟨-, e⟩⟩
  · omega
  · exact absurd heq hmn
  · exact e

end Offset

/-- Settles O37: the check of the offset, the nibble, then the check of the match. -/
theorem offsetOpensTheMatch : Obligations.OffsetOpensTheMatch := by
  intro off s
  have pos (h : off ≠ 0#16) : off.toNat ≠ 0 := fun hz => h (BitVec.eq_of_toNat_eq hz)
  simp only [exec_offset16]
  refine ⟨fun h0 hdi hmn => ?_, fun h0 hdi hmn hc => ?_, fun h => ?_⟩
  · have hlen : s.wk.mn.toNat = 15 := congrArg BitVec.toNat hmn
    rw [offsetRun_extension (s := s.consume 2) (pos h0) hdi hmn, ← hlen]
    rfl
  · rw [offsetRun_match (s := s.consume 2) (pos h0) hdi hmn,
      matchCopy_fits (s := (s.consume 2).offsetTaken off.toNat) hc]
    rfl
  · refine ⟨_, rfl, ?_⟩
    by_cases hoff : off.toNat = 0 ∨ s.wk.di < off.toNat
    · rw [offsetRun_raise (s := s.consume 2) hoff]
      exact completed_raise rfl
    · obtain ⟨h0, hdi⟩ := not_or.mp hoff
      obtain ⟨hmn, hc⟩ := (h.resolve_left fun hz => h0 (congrArg BitVec.toNat hz)).resolve_left hdi
      rw [offsetRun_match (s := s.consume 2) h0 (Nat.not_lt.mp hdi) hmn,
        matchCopy_raise (s := (s.consume 2).offsetTaken off.toNat) hc]
      exact completed_raise rfl

/-! ### Bytes that are no element (R88) -/

theorem engineTurn_of_rejected {s : State} {c : Ctx} {why : Reject} (he : s.engine = .busy c)
    (hd : decode c (s.fetchBytes c) = .rejected why) : engineTurn s = .next s.raiseShort := by
  simp only [engineTurn, he, hd]

/-- Settles O43: the engine's turn raises. -/
theorem rejectedElementsRaise : Obligations.RejectedElementsRaise := by
  intro s c why he hin hd
  refine ⟨s.raiseShort, ?_, completed_raiseShort s, hostSide_raiseShort s, ⟨rfl, rfl, rfl⟩, sameDst_raiseShort s⟩
  rw [step_of_inbox_nil hin, engineTurn_of_rejected he hd]

end Sys2Proof.Machine
end

section
/-! PROOFS of the statements of 40_token_codec.md: `Put` (R110), `EmitSeq` (R113), the order of `Finish` (R115), and that a
nonzero byte count is below `n` (R117). -/

namespace Sys2Proof.Machine

/-! ### Put (R110) -/

/-- A byte that was put stands at the old `di`, and no other byte of DST changes. -/
theorem dstByte_put (v : Byte) (s : State) (a : Nat) :
    (s.emitted [v]).dstByte a = if a = s.wk.di then v else s.dstByte a := Buf.read_write .dst s.dst s.wk.di a v

/-- Settles O10: the byte does not fit, or it is put. -/
theorem putWritesOneByteOrRaises : Obligations.PutWritesOneByteOrRaises := by
  refine fun v s => ⟨put_full v, fun hroom => ⟨s.emitted [v], put_fits v hroom, rfl, ?_, fun a ha => ?_,
    ⟨rfl, rfl, rfl, rfl, rfl, rfl, rfl, rfl⟩, ⟨rfl, rfl, rfl⟩, ⟨rfl, rfl, rfl⟩⟩⟩
  · rw [dstByte_put, if_pos rfl]
  · rw [dstByte_put, if_neg ha]

/-! ### EmitSeq (R113) -/

theorem emitSeq_fits {s : State} (h : s.wk.di + s.sequenceBytes.length ≤ s.wk.cap) :
    emitSeq s = .go (s.emitted s.sequenceBytes) := putAll_fits s.sequenceBytes s h

theorem emitSeq_overflow {s : State} (hd : s.wk.di ≤ s.wk.cap) (h : s.wk.cap < s.wk.di + s.sequenceBytes.length) :
    ∃ t, emitSeq s = .raise t := ⟨_, putAll_overflow s.sequenceBytes s hd h⟩

/-- The offset's low byte is its remainder by 256 (R86). -/
theorem offsetBytes_eq_mod_div (off : Nat) : offsetBytes off = [BitVec.ofNat 8 (off % 256), BitVec.ofNat 8 (off / 256)] := by
  have hlow : BitVec.ofNat 8 (off % 256) = BitVec.ofNat 8 off := BitVec.eq_of_toNat_eq (Nat.mod_mod off 256)
  rw [hlow, offsetBytes]

/-- Settles O11: the bytes of R113 are the sequence of the working registers, which fits or does not. -/
theorem emitSeqAppendsTheSequence : Obligations.EmitSeqAppendsTheSequence := by
  intro s hd bytes
  have hbytes : s.sequenceBytes = bytes := by
    rw [State.sequenceBytes, seqBytes, offsetBytes_eq_mod_div, State.literals, bytesFrom_length]
    rfl
  rw [← hbytes]
  exact ⟨fun hfit => ⟨_, emitSeq_fits hfit, rfl, output_emitted s.sequenceBytes s⟩, emitSeq_overflow hd⟩

/-! ### Finish (R115) -/

/-- Settles O12: each clause is one way through the header, the test and the literals. -/
theorem finishInOrder : Obligations.FinishInOrder := by
  intro s hd _
  refine ⟨finish_of_noMatch, fun hmatch => ⟨fun hfull => ?_, fun hhead hreach => ?_, fun hhead hlt hfull => ?_,
    fun hlt hfit => ?_⟩⟩
  · obtain ⟨t, ht, -⟩ := finish_header_overflow hmatch hd hfull
    exact ⟨t, ht⟩
  · exact ⟨s.headed, (finish_of_headed hmatch hhead).trans (finishLiterals_of_reached hreach)⟩
  · obtain ⟨t, ht, -⟩ := finishLiterals_overflow hlt hhead hfull
    exact ⟨t, (finish_of_headed hmatch hhead).trans ht⟩
  · have hhead : s.headedLength ≤ s.wk.cap := Nat.le_of_add_right_le hfit
    exact ⟨s.finished, (finish_of_headed hmatch hhead).trans (finishLiterals_fits hlt hfit), output_finished s⟩

/-! ### Nonzero results (R117) -/

/-- RESULT is 0 or below `n`. -/
def ResultBelow (n : Nat) (t : State) : Prop := t.result ≠ 0 → t.result.toNat < n

theorem Completed.resultBelow_of_zero {e : Err} {n : Nat} {s t : State} (h : Completed e 0 s t) : ResultBelow n t :=
  fun hne => absurd h.result hne

theorem Completed.resultBelow_of_lt {e : Err} {n r : Nat} {s t : State} (h : Completed e r s t) (hr : r < n) :
    ResultBelow n t := fun _ => by
  rw [h.result, BitVec.toNat_ofNat]
  exact (Nat.mod_le _ _).trans_lt hr

/-- R115's test: an outcome with a byte count has its output and header below `anchor`, and the rest of the source follows
as literals. -/
theorem EncodeOutcome.resultBelow {s u t : State} (h : EncodeOutcome s u t) (ha : u.wk.anchor ≤ s.wk.n) :
    ResultBelow s.wk.n t := by
  obtain ⟨noMatch, short, reached, shortLiterals, whole⟩ := h
  by_cases hzero : u.wk.anchor = 0
  · exact (noMatch hzero).1.resultBelow_of_zero
  · rcases Nat.lt_or_ge s.wk.cap _ with hfull | hhead
    · exact (short hzero hfull).resultBelow_of_zero
    · rcases Nat.lt_or_ge _ u.wk.anchor with hlt | hreach
      · rcases Nat.lt_or_ge s.wk.cap _ with hfull | hfit
        · exact (shortLiterals hlt hhead hfull).resultBelow_of_zero
        · exact (whole hlt hfit).1.resultBelow_of_lt (by omega)
      · exact (reached hzero hhead hreach).resultBelow_of_zero

/-- A scan loop that goes on has refused no byte. -/
theorem scanLoop_go {slack : Nat} {plan : State → Plan} (good : GoodPlan slack plan) {k : Nat} {v u : State}
    (hd : v.wk.di ≤ v.wk.cap) (h : scanLoop plan k v = .go u) : u = scanEnd plan k v := by
  by_cases hfit : (scanEnd plan k v).wk.di ≤ v.wk.cap
  · exact Run.go.inj (h.symm.trans (scanLoop_fits good hfit))
  · obtain ⟨w, hw, -⟩ := scanLoop_overflow good hd (Nat.not_le.mp hfit)
    exact Run.noConfusion (h.symm.trans hw)

/-- No match passes the end of the source: the last one ends at most `slack` past `sn = n - 12`. -/
theorem scanLoop_anchor_le {slack : Nat} {plan : State → Plan} (good : GoodPlan slack plan) (hs : slack ≤ 12) {k : Nat}
    {s v u : State} (hu : scanLoop plan k v = .go u) (h : ScanState slack s v) (hd : v.wk.di ≤ v.wk.cap)
    (hn : 12 ≤ s.wk.n) : u.wk.anchor ≤ s.wk.n := by
  rw [scanLoop_go good hd hu]
  have hend := h.scanEnd good k
  have hanchor := hend.anchor
  have hsi := hend.si
  have hsn := hend.sn
  omega

theorem fastRun_resultBelow (s : State) : ResultBelow s.wk.n (fastRun s).settle := by
  by_cases hshort : s.tooShort = true
  · rw [fastRun_of_short hshort]
    exact (completed_complete _ _ _ s).resultBelow_of_zero
  · obtain ⟨hn, hc⟩ : 12 < s.wk.n ∧ 0 < s.wk.cap := not_not.mp (mt (tooShort_iff s).mpr hshort)
    obtain ⟨u, hu, -, -, hout⟩ := (fastRun_outcome s).2 hn hc _ (Nat.le_refl _)
    rw [fastScan_eq_scanLoop] at hu
    have hanchor := scanLoop_anchor_le goodPlan_fast (by decide) hu (scanState_startScan _) (Nat.zero_le _) hn.le
    exact hout.resultBelow hanchor

theorem hcRun_resultBelow (s : State) : ResultBelow s.wk.n (hcRun s).settle := by
  by_cases hshort : s.tooShort = true
  · rw [hcRun_of_short hshort]
    exact (completed_complete _ _ _ s.zeroHc).resultBelow_of_zero
  · obtain ⟨hn, hc⟩ : 12 < s.wk.n ∧ 0 < s.wk.cap := not_not.mp (mt (tooShort_iff s).mpr hshort)
    obtain ⟨u, hu, -, hout⟩ := (hcRun_outcome s).2 hn hc _ (Nat.le_refl _)
    rw [hcScan_eq_scanLoop] at hu
    have hanchor := scanLoop_anchor_le goodPlan_hc (by decide) hu (scanState_hcStart _) (Nat.zero_le _) hn.le
    exact hout.resultBelow hanchor

/-- Settles O24: an illegal request has the result 0, and each encoder's run one below `n`. -/
theorem nonzeroResultsAreSmaller : Obligations.NonzeroResultsAreSmaller := by
  rintro i s t (rfl | rfl) h <;> obtain rfl := Host.Outcome.next.inj h
  · show ResultBelow s.wk.n _
    split
    · exact (completed_rejectRequest s).resultBelow_of_zero
    · exact fastRun_resultBelow s
  · show ResultBelow s.wk.n _
    split
    · exact (completed_rejectRequest s).resultBelow_of_zero
    · exact hcRun_resultBelow s

end Sys2Proof.Machine
end

section
/-! PROOFS of the statements of 41_fast_encoder.md, first part: the early return that both encoders share (R141), the
lookup and its three tests (R143), and the match end (R144). -/

namespace Sys2Proof.Machine

/-! ### The early return (R141, R171) -/

/-- Settles O21: both encoders return 0 before they write DST or HT_F. -/
theorem shortInputsReturnZero : Obligations.ShortInputsReturnZero := by
  intro i s hi hn hc hshort
  have short : s.tooShort = true := (tooShort_iff s).mpr (by omega)
  obtain ⟨t, ht, host⟩ := exec_hostSide i s
  refine ⟨t, ht, ?_⟩
  rcases hi with rfl | rfl
  · rw [exec_compressFast_of_fits hn hc, fastRun_of_short short] at ht
    cases ht
    exact ⟨completed_complete .ok 0 0 s, host, fun _ => rfl, rfl⟩
  · rw [exec_compressHc_of_fits hn hc, hcRun_of_short short] at ht
    cases ht
    exact ⟨(completed_of_faultLog (s := s) (v := s.zeroHc) rfl .ok 0 0).forgetHc, host, fun _ => rfl, rfl⟩

/-! ### The lookup (R143) -/

/-- Two fingerprint words are equal when their four bytes are. -/
theorem srcWord_eq_iff (s : State) (p q : Nat) :
    s.srcWord p = s.srcWord q ↔ ∀ k, k < 4 → s.srcByte (p + k) = s.srcByte (q + k) := by
  constructor
  · intro h k hk
    have hnat := congrArg BitVec.toNat h
    rw [srcWord_toNat, srcWord_toNat] at hnat
    apply BitVec.eq_of_toNat_eq
    have hcases : k = 0 ∨ k = 1 ∨ k = 2 ∨ k = 3 := by omega
    rcases hcases with rfl | rfl | rfl | rfl
    · show (s.srcByte p).toNat = (s.srcByte q).toNat
      omega
    · omega
    · omega
    · omega
  · intro h
    simp only [State.srcWord]
    rw [h 3 (by decide), h 2 (by decide), h 1 (by decide), show s.srcByte p = s.srcByte q from h 0 (by decide)]

theorem fastAccepts_iff (s : State) : fastAccepts s = true ↔
    s.wk.ref < s.wk.sn ∧ 1 ≤ s.wk.off ∧ s.wk.off ≤ 65535 ∧ s.srcWord s.wk.ref = s.wk.x := by
  simp only [fastAccepts, Bool.and_eq_true, decide_eq_true_eq, and_assoc]

/-- The lookup writes the cell of the fingerprint and no other. -/
theorem fastLookup_htfCell (s : State) (i : Nat) : (fastLookup s).htfCell i =
    if i = (s.fp s.wk.si).toNat then s.wk.si % 2 ^ s.cfg.posW else s.htfCell i :=
  Table.read_write .htF s.cfg.posW s.htF (s.fp s.wk.si).toNat i s.wk.si

/-- Settles O13: the read after the write, and the tests with the offset as a signed difference. -/
theorem fastLookupAndTests : Obligations.FastLookupAndTests := by
  intro s
  refine ⟨rfl, ?_, fun i hi => ?_, ?_⟩
  · rw [fastLookup_htfCell, if_pos rfl]
  · rw [fastLookup_htfCell, if_neg hi]
  · have hword : (fastLookup s).srcWord = s.srcWord := funext (srcWord_congr rfl)
    rw [fastAccepts_iff, hword, fastLookup_wk, srcWord_eq_iff]
    have hrange (ref : Nat) : (1 ≤ s.wk.si - ref ∧ s.wk.si - ref ≤ 65535) ↔
        ((1 : Int) ≤ (s.wk.si : Int) - ref ∧ (s.wk.si : Int) - ref ≤ 65535) := by omega
    rw [← and_assoc (a := 1 ≤ _), hrange, and_assoc]

/-! ### The match end (R144) -/

theorem fastMatchEnd_of_room {s : State} (h : s.wk.si + 4 < s.wk.sn) : fastMatchEnd s =
    s.wk.si + 4 + s.commonLen (s.wk.si + 4) (s.wk.si + 4 - s.wk.off) (s.wk.sn - (s.wk.si + 4)) := if_pos h

theorem fastMatchEnd_of_end {s : State} (h : s.wk.sn ≤ s.wk.si + 4) : fastMatchEnd s = s.wk.si + 4 :=
  if_neg (Nat.not_lt.mpr h)

/-- Settles O14: below `sn` the extension is a CommonLen, and without room for one the match has 4 bytes. -/
theorem fastMatchEndsAtTheFirstDifference : Obligations.FastMatchEndsAtTheFirstDifference := by
  intro s hoff
  by_cases hroom : s.wk.si + 4 < s.wk.sn
  · obtain ⟨hle, hagree, hstop⟩ :=
      commonLenIsTheFirstDifference s (s.wk.si + 4) (s.wk.si + 4 - s.wk.off) (s.wk.sn - (s.wk.si + 4))
    have hback (j : Nat) : s.wk.si + 4 - s.wk.off + j = s.wk.si + 4 + j - s.wk.off := by omega
    rw [fastMatchEnd_of_room hroom]
    refine ⟨by omega, by omega, fun q hlo hhi => ?_, fun hlt => ?_⟩
    · have hq := hagree (q - (s.wk.si + 4)) (by omega)
      rwa [hback, Nat.add_sub_cancel' hlo] at hq
    · rw [← hback]
      exact hstop.resolve_left (by omega)
  · rw [fastMatchEnd_of_end (Nat.not_lt.mp hroom)]
    exact ⟨Nat.le_refl _, by omega, by omega, by omega⟩

end Sys2Proof.Machine
end

section
/-! PROOFS of the statements of 41_fast_encoder.md, second part: the block an encoder writes decodes to its source (R140,
R171). A match that an encoder emits repeats earlier source bytes, so the sequences it emits expand to the source below
`anchor`. -/

namespace Sys2Proof.Machine

/-! ### Matches -/

/-- The `len` bytes at `si` are those `off` before them, for an offset a sequence can have (30_encoding.md R86, R89). -/
structure IsMatch (f : Nat → Byte) (si off len : Nat) : Prop where
  pos : 1 ≤ off
  max : off ≤ 65535
  inside : off ≤ si
  repeats : ∀ k, k < len → f (si - off + k) = f (si + k)

/-- The copy of a match prolongs the output by the bytes at `si` (43_decoder.md R207). -/
theorem IsMatch.overlapCopy_eq {f : Nat → Byte} {si off len : Nat} (h : IsMatch f si off len) :
    overlapCopy len off (bytesFrom f 0 si) = bytesFrom f 0 (si + len) := by
  obtain ⟨hpos, hmax, hin, hrep⟩ := h
  induction len generalizing si with
  | zero => rfl
  | succ l ih =>
    have hbyte : (bytesFrom f 0 si).getD ((bytesFrom f 0 si).length - off) 0 = f si := by
      have hlt : si - off < (bytesFrom f 0 si).length := by rw [bytesFrom_length]; omega
      rw [bytesFrom_length, List.getD_eq_getElem _ _ hlt, bytesFrom_getElem, Nat.zero_add]
      exact hrep 0 (Nat.succ_pos l)
    have hnext : bytesFrom f 0 si ++ [f si] = bytesFrom f 0 (si + 1) := by
      rw [bytesFrom_append, bytesFrom_succ, bytesFrom_zero, Nat.zero_add]
    rw [overlapCopy, hbyte, hnext, ih (by omega) fun k hk => ?_, Nat.add_right_comm, Nat.add_assoc]
    have hk := hrep (k + 1) (by omega)
    rwa [show si - off + (k + 1) = si + 1 - off + k by omega, show si + (k + 1) = si + 1 + k by omega] at hk

/-! ### The sequences emitted so far -/

/-- A sequence as a line of a block (R90). -/
def Sequence.line (q : Sequence) : Line := .seq q.lit q.off q.len

theorem blockBytes_eq (qs : List Sequence) (last : List Byte) :
    blockBytes qs last = assemble (qs.map Sequence.line) ++ (lastHeader last.length ++ last) := by
  have hlast : assemble [.last last] = lastHeader last.length ++ last := List.append_nil _
  rw [← hlast]
  exact List.flatMap_append

theorem assemble_snoc (qs : List Sequence) (q : Sequence) :
    assemble ((qs ++ [q]).map Sequence.line) = assemble (qs.map Sequence.line) ++ seqBytes q.lit q.off q.len := by
  have hq : assemble [q.line] = seqBytes q.lit q.off q.len := List.append_nil _
  rw [← hq, List.map_append]
  exact List.flatMap_append

/-- One more sequence is legal after the output of those before it. -/
theorem legalFrom_snoc {qs : List Sequence} {out : List Byte} {q : Sequence} (h : legalFrom out qs)
    (hq : q.legal (qs.foldl Sequence.expand out)) : legalFrom out (qs ++ [q]) := by
  induction qs generalizing out with
  | nil => exact ⟨hq, trivial⟩
  | cons r qs ih => exact ⟨h.1, ih h.2 hq⟩

/-- DST below `di` is a list of legal sequences that expand to SRC below `anchor`. -/
def Encodes (v : State) : Prop :=
  ∃ qs, legalFrom [] qs ∧ assemble (qs.map Sequence.line) = bytesFrom v.dstByte 0 v.wk.di ∧
    qs.foldl Sequence.expand [] = bytesFrom v.srcByte 0 v.wk.anchor

theorem encodes_start {v : State} (hdi : v.wk.di = 0) (hanchor : v.wk.anchor = 0) : Encodes v :=
  ⟨[], trivial, by rw [hdi]; rfl, by rw [hanchor]; rfl⟩

theorem Encodes.prepared {v m : State} (h : Encodes v) (p : Prepared v m) : Encodes m := by
  have hdst : m.dstByte = v.dstByte := funext (dstByte_congr p.dst)
  rw [Encodes, hdst, srcByte_congr_fun p.src, p.di, p.anchor]
  exact h

/-- The sequence that the working registers of `m` describe. -/
def State.sequence (m : State) : Sequence := ⟨m.literals m.wk.litLen, m.wk.off, m.wk.matchLen⟩

/-- A match emitted after the literals since `anchor` encodes the source up to the match end. -/
theorem Encodes.emit {m : State} (h : Encodes m) (ha : m.wk.anchor ≤ m.wk.si)
    (hlit : m.wk.litLen = m.wk.si - m.wk.anchor) (hlen : 4 ≤ m.wk.matchLen)
    (hm : IsMatch m.srcByte m.wk.si m.wk.off m.wk.matchLen) : Encodes (Plan.emit m).next := by
  obtain ⟨qs, hlegal, hbytes, hout⟩ := h
  have hrun : bytesFrom m.srcByte 0 m.wk.anchor ++ m.literals m.wk.litLen = bytesFrom m.srcByte 0 m.wk.si := by
    have happ := bytesFrom_append m.srcByte 0 m.wk.anchor m.wk.litLen
    rw [Nat.zero_add, hlit, Nat.add_sub_cancel' ha] at happ
    rw [happ, State.literals, hlit]
  refine ⟨qs ++ [m.sequence], legalFrom_snoc hlegal ⟨hlen, hm.pos, hm.max, ?_⟩, ?_, ?_⟩
  · rw [hout]
    show m.wk.off ≤ (bytesFrom m.srcByte 0 m.wk.anchor ++ m.literals m.wk.litLen).length
    rw [hrun, bytesFrom_length]
    exact hm.inside
  · rw [assemble_snoc, hbytes]
    exact (output_emitted m.sequenceBytes m).symm
  · rw [List.foldl_append, hout]
    show overlapCopy m.wk.matchLen m.wk.off (bytesFrom m.srcByte 0 m.wk.anchor ++ m.literals m.wk.litLen) = _
    rw [hrun, hm.overlapCopy_eq]
    rfl

/-! ### The scan loop -/

/-- A plan emits matches only; `I` is what it needs of the states the loop passes. -/
structure FaithfulPlan (I : State → Prop) (plan : State → Plan) : Prop where
  next : ∀ v, v.wk.si < v.wk.sn → I v → I (plan v).next
  isMatch : ∀ v m, I v → plan v = .emit m → IsMatch m.srcByte m.wk.si m.wk.off m.wk.matchLen

section Loop
variable {slack : Nat} {plan : State → Plan} {I : State → Prop} (good : GoodPlan slack plan)
  (faithful : FaithfulPlan I plan)
include good faithful

theorem Encodes.next {s v : State} (h : Encodes v) (hs : ScanState slack s v) (hlt : v.wk.si < v.wk.sn) (hI : I v) :
    Encodes (plan v).next := by
  have prep := good.prepared v
  cases hp : plan v with
  | skip m =>
    rw [hp] at prep
    exact Encodes.prepared (m := m) h prep
  | emit m =>
    obtain ⟨hlit, hlen, -⟩ := good.measured v m hlt hp
    rw [hp] at prep
    exact (h.prepared prep).emit (hs.prepared prep).anchor hlit hlen (faithful.isMatch v m hI hp)

theorem Encodes.scanEnd {s v : State} (h : Encodes v) (hs : ScanState slack s v) (hI : I v) (k : Nat) :
    Encodes (scanEnd plan k v) := by
  induction k generalizing v with
  | zero => exact h
  | succ k ih =>
    rw [Machine.scanEnd]
    split
    · exact ih (h.next good faithful hs ‹_› hI) (hs.next good ‹_›) (faithful.next v ‹_› hI)
    · exact h

/-- What a scan loop from the start of a command leaves when it has refused no byte. -/
theorem encodes_of_scanLoop (hs : slack ≤ 12) {s v u : State} (h : ScanState slack s v) (hI : I v) (hdi : v.wk.di = 0)
    (hanchor : v.wk.anchor = 0) {k : Nat} (hu : scanLoop plan k v = .go u) (hn : 12 ≤ s.wk.n) :
    Encodes u ∧ u.srcByte = s.srcByte ∧ u.wk.anchor ≤ s.wk.n := by
  have ha := scanLoop_anchor_le good hs hu h (by omega) hn
  obtain rfl := scanLoop_go good (by omega) hu
  exact ⟨(encodes_start hdi hanchor).scanEnd good faithful h hI k, srcByte_congr_fun (h.scanEnd good k).src, ha⟩

end Loop

/-! ### The outcome -/

/-- A nonzero byte count is that of R116's whole output. -/
theorem EncodeOutcome.whole {s u t : State} (h : EncodeOutcome s u t) (hr : t.result ≠ 0) :
    ∃ r, r ≤ s.wk.cap ∧ t.result = BitVec.ofNat 32 r ∧
      bytesFrom t.dstByte 0 r = bytesFrom u.dstByte 0 u.wk.di ++ lastHeader (s.wk.n - u.wk.anchor) ++
        bytesFrom s.srcByte u.wk.anchor (s.wk.n - u.wk.anchor) := by
  obtain ⟨noMatch, short, reached, shortLiterals, whole⟩ := h
  have nonzero {e : Err} (hc : Completed e 0 s t) : False := hr hc.result
  by_cases hzero : u.wk.anchor = 0
  · exact (nonzero (noMatch hzero).1).elim
  · rcases Nat.lt_or_ge s.wk.cap _ with hfull | hhead
    · exact (nonzero (short hzero hfull)).elim
    · rcases Nat.lt_or_ge _ u.wk.anchor with hlt | hreach
      · rcases Nat.lt_or_ge s.wk.cap _ with hfull | hfit
        · exact (nonzero (shortLiterals hlt hhead hfull)).elim
        · obtain ⟨hc, hbytes⟩ := whole hlt hfit
          exact ⟨_, hfit, hc.result, hbytes⟩
      · exact (nonzero (reached hzero hhead hreach)).elim

/-- The block of the sequences emitted and the last literals decodes to the source. -/
theorem Encodes.decodeBlock_eq {u : State} (h : Encodes u) {n cap : Nat} (ha : u.wk.anchor ≤ n) (hcap : n ≤ cap) :
    decodeBlock cap (bytesFrom u.dstByte 0 u.wk.di ++ lastHeader (n - u.wk.anchor) ++
      bytesFrom u.srcByte u.wk.anchor (n - u.wk.anchor)) = some (bytesFrom u.srcByte 0 n) := by
  obtain ⟨qs, hlegal, hbytes, hout⟩ := h
  have hblock := blocksDecodeToTheirSequences qs (bytesFrom u.srcByte u.wk.anchor (n - u.wk.anchor)) cap hlegal
    (by rw [hout, bytesFrom_length, bytesFrom_length]; omega)
  have hsrc : bytesFrom u.srcByte 0 u.wk.anchor ++ bytesFrom u.srcByte u.wk.anchor (n - u.wk.anchor) =
      bytesFrom u.srcByte 0 n := by
    have happ := bytesFrom_append u.srcByte 0 u.wk.anchor (n - u.wk.anchor)
    rw [Nat.zero_add, Nat.add_sub_cancel' ha] at happ
    exact happ.symm
  rw [blockBytes_eq, bytesFrom_length, hbytes, hout, hsrc] at hblock
  rw [List.append_assoc]
  exact hblock

/-- DST below RESULT decodes to SRC below `n`. -/
def RoundTrips (s t : State) : Prop :=
  ∀ cap, t.result ≠ 0 → s.wk.n ≤ cap →
    decodeBlock cap (bytesFrom t.dstByte 0 t.result.toNat) = some (bytesFrom s.srcByte 0 s.wk.n)

theorem roundTrips_of_zero {s t : State} (h : t.result = 0) : RoundTrips s t := fun _ hr => absurd h hr

/-- A command round trips when R116 decides its outcome from a scan that encodes the source below `anchor`. -/
theorem Encodes.roundTrips {s u t : State} (h : Encodes u) (hsrc : u.srcByte = s.srcByte) (ha : u.wk.anchor ≤ s.wk.n)
    (hout : EncodeOutcome s u t) (hc : s.wk.cap < 2 ^ 32) : RoundTrips s t := by
  intro cap hr hcap
  obtain ⟨r, hle, hres, hbytes⟩ := hout.whole hr
  have hnat : t.result.toNat = r := by
    rw [hres, BitVec.toNat_ofNat]
    exact Nat.mod_eq_of_lt (Nat.lt_of_le_of_lt hle hc)
  have hdec := h.decodeBlock_eq ha hcap
  rw [hsrc] at hdec
  rw [hnat, hbytes]
  exact hdec

end Sys2Proof.Machine
end

section
/-! PROOFS of the statements of 41_fast_encoder.md, third part: the plans of the two encoders emit matches only, so both
encoders round trip (R140, R171). For COMPRESS_HC this rests on the chain tables, whose positions lie behind the scan
position. -/

namespace Sys2Proof.Machine

/-- A position and a capacity fit POS_W bits (00_scope.md R7). -/
theorem Params.valid_limits {p : Params} (hp : p.valid = true) :
    p.maxSrcLen < 2 ^ p.posW ∧ p.maxDstCap < 2 ^ p.posW := by
  simp only [Params.valid, Bool.and_eq_true, decide_eq_true_eq, and_assoc] at hp
  obtain ⟨-, hsrc, hdst, -⟩ := hp
  exact ⟨hsrc, hdst⟩

theorem Params.valid_maxDstCap {p : Params} (hp : p.valid = true) : p.maxDstCap < 2 ^ 32 :=
  lt_word_of_lt_posW hp (Params.valid_limits hp).2

/-! ### COMPRESS_FAST -/

/-- An accepted candidate is a match of 4 bytes (R143), and its extension repeats the bytes before it (R144). -/
theorem isMatch_of_fastAccepts {s : State} (h : fastAccepts (fastLookup s) = true) :
    IsMatch s.srcByte s.wk.si (fastLookup s).wk.off (fastMatchEnd (fastLookup s) - s.wk.si) := by
  obtain ⟨-, hpos, hmax, hword⟩ := (fastAccepts_iff _).mp h
  have hoff : (fastLookup s).wk.off = s.wk.si - (fastLookup s).wk.ref := rfl
  have hfirst := (srcWord_eq_iff s (fastLookup s).wk.ref s.wk.si).mp hword
  obtain ⟨-, -, hrest, -⟩ := fastMatchEndsAtTheFirstDifference (fastLookup s)
    (show (fastLookup s).wk.off ≤ s.wk.si + 4 by omega)
  refine ⟨hpos, hmax, by omega, fun k hk => ?_⟩
  by_cases h4 : k < 4
  · rw [show s.wk.si - (fastLookup s).wk.off = (fastLookup s).wk.ref by omega]
    exact hfirst k h4
  · have hq := hrest (s.wk.si + k) (show s.wk.si + 4 ≤ s.wk.si + k by omega) (by omega)
    rw [show s.wk.si - (fastLookup s).wk.off + k = s.wk.si + k - (fastLookup s).wk.off by omega]
    exact hq.symm

/-- COMPRESS_FAST emits matches only, whatever HT_F holds (R149). -/
theorem faithfulPlan_fast : FaithfulPlan (fun _ => True) fastPlan where
  next _ _ _ := trivial
  isMatch v m _ hp := by
    unfold fastPlan at hp
    split at hp <;> cases hp
    exact isMatch_of_fastAccepts ‹_›

theorem fastRun_roundTrips {s : State} (hc : s.wk.cap < 2 ^ 32) : RoundTrips s (fastRun s).settle := by
  by_cases hshort : s.tooShort = true
  · rw [fastRun_of_short hshort]
    exact roundTrips_of_zero rfl
  · obtain ⟨hn, hpos⟩ : 12 < s.wk.n ∧ 0 < s.wk.cap := not_not.mp (mt (tooShort_iff s).mpr hshort)
    obtain ⟨u, hu, -, -, hout⟩ := (fastRun_outcome s).2 hn hpos _ (Nat.le_refl _)
    rw [fastScan_eq_scanLoop] at hu
    obtain ⟨henc, hsrc, ha⟩ := encodes_of_scanLoop goodPlan_fast faithfulPlan_fast (by decide)
      (scanState_startScan (s.withCap _)) trivial rfl rfl hu hn.le
    exact henc.roundTrips hsrc ha hout hc

/-- Settles O25: an illegal request has the result 0, and the run of a legal one round trips. -/
theorem compressFastRoundTrips : Obligations.CompressFastRoundTrips := by
  intro s t cap hp ht
  obtain rfl := Host.Outcome.next.inj ht
  refine (?_ : RoundTrips s _) cap
  split
  · exact roundTrips_of_zero rfl
  · obtain ⟨-, hc⟩ := oversize_eq_false.mp ‹_›
    exact fastRun_roundTrips (hc.trans_lt (Params.valid_maxDstCap hp))

/-! ### COMPRESS_HC -/

/-- The chain tables hold 0 or positions behind the scan position (R176, R177). -/
def TablesBehind (s : State) : Prop := TablesUpTo (s.wk.si - 1) s

/-- The best match so far is none, or a match. -/
def BestMatches (s : State) : Prop := s.wk.bestLen = 0 ∨ IsMatch s.srcByte s.wk.si s.wk.bestOff s.wk.bestLen

/-- A position behind `si` and inside the window offers a match of CommonLen bytes (R174, R175). -/
theorem isMatch_commonLen {f : Nat → Byte} {si c : Nat} (limit : Nat) (hback : c < si) (hwin : si < c + 65536) :
    IsMatch f si (si - c) (commonLen f c si limit) := by
  refine ⟨by omega, by omega, Nat.sub_le si c, fun k hk => ?_⟩
  rw [Nat.sub_sub_self hback.le]
  exact eq_of_lt_commonLen f c si limit hk

theorem bestMatches_hcCandidate {s : State} (h : BestMatches s) (hback : s.wk.next < s.wk.si)
    (hwin : s.wk.si < s.wk.next + 65536) : BestMatches (hcCandidate s) := by
  unfold hcCandidate
  split
  · unfold hcMeasure
    split
    · exact .inr (isMatch_commonLen (f := s.srcByte) _ hback hwin)
    · exact h
  · exact h

theorem bestMatches_hcWalk (k : Nat) {s : State} (h : BestMatches s) (hback : s.wk.next ≤ s.wk.si - 1)
    (ht : TablesBehind s) : BestMatches (hcWalk k s) := by
  induction k generalizing s with
  | zero => exact h
  | succ k ih =>
    rw [hcWalk]
    split
    · obtain ⟨hne, hwin⟩ := ‹_ ∧ _›
      have hsi : (hcCandidate s).wk.si = s.wk.si := (prepared_hcCandidate s).si
      refine ih (bestMatches_hcCandidate h (by omega) hwin) ?_ ?_
      · show s.ctCell _ ≤ (hcCandidate s).wk.si - 1
        rw [hsi]
        exact (ht _).2
      · show TablesUpTo ((hcCandidate s).wk.si - 1) (hcCandidate s)
        rw [hsi]
        exact ht.hcCandidate
    · exact h

theorem bestMatches_hcSearch {s : State} (ht : TablesBehind s) : BestMatches (hcSearch s) :=
  bestMatches_hcWalk s.wk.effDepth (s := hcLookup s) (.inl rfl) (ht _).1 ht

/-- The insertion of positions up to a limit leaves no entry above it. -/
theorem tablesUpTo_hcInsertFrom {lim k q : Nat} {s : State} (h : TablesUpTo lim s) (hq : q + k ≤ lim + 1) :
    TablesUpTo lim (hcInsertFrom k q s) := by
  induction k generalizing q s with
  | zero => exact h
  | succ k ih => exact ih (h.hcInsert (by omega)) (by omega)

/-- The end of a match is not inserted (90_conflicts.md C9). -/
theorem tablesUpTo_hcInsertMatch {s : State} (h : TablesUpTo s.wk.si s) (hb : s.wk.bestLen ≠ 0) :
    TablesUpTo (s.wk.si + s.wk.bestLen - 1) (hcInsertMatch s) := by
  have hstart := hcInsertStart_le hb
  have hlim := h.mono (show s.wk.si ≤ s.wk.si + s.wk.bestLen - 1 by omega)
  unfold hcInsertMatch
  exact tablesUpTo_hcInsertFrom hlim (by omega)

/-- The emission of a match changes no entry, and the scan goes on at the match end. -/
theorem tablesBehind_emit_next {m : State} (h : TablesUpTo (m.wk.si + m.wk.bestLen - 1) m) :
    TablesBehind (Plan.emit (hcMeasured m)).next := h

theorem tablesBehind_hcPlan_next {v : State} (h : TablesBehind v) : TablesBehind (hcPlan v).next := by
  have hsearch : TablesUpTo v.wk.si (hcSearch v) := TablesUpTo.hcSearch (h.mono (Nat.sub_le _ _))
  rw [← (prepared_hcSearch v).si] at hsearch
  generalize hu : hcSearch v = u at hsearch
  unfold hcPlan
  rw [hu]
  split
  · exact hsearch
  · refine tablesBehind_emit_next ?_
    rw [hcInsertMatch_wk]
    exact tablesUpTo_hcInsertMatch hsearch ‹_›

/-- COMPRESS_HC emits matches only. -/
theorem faithfulPlan_hc : FaithfulPlan TablesBehind hcPlan where
  next _ _ h := tablesBehind_hcPlan_next h
  isMatch v m h hp := by
    by_cases hnone : (hcSearch v).wk.bestLen = 0
    · rw [hcPlan, if_pos hnone] at hp
      exact Plan.noConfusion hp
    · rw [hcPlan, if_neg hnone] at hp
      have hmatch := (bestMatches_hcSearch h).resolve_left hnone
      have hsrc := srcByte_congr_fun (prepared_hcInsertMatch (hcSearch v)).src
      rw [← Plan.emit.inj hp, srcByte_congr_fun (hcMeasured_src _), hsrc, hcMeasured_wk, hcInsertMatch_wk]
      exact hmatch

theorem hcRun_roundTrips {s : State} (hc : s.wk.cap < 2 ^ 32) : RoundTrips s (hcRun s).settle := by
  by_cases hshort : s.tooShort = true
  · rw [hcRun_of_short hshort]
    exact roundTrips_of_zero rfl
  · obtain ⟨hn, hpos⟩ : 12 < s.wk.n ∧ 0 < s.wk.cap := not_not.mp (mt (tooShort_iff s).mpr hshort)
    obtain ⟨u, hu, -, hout⟩ := (hcRun_outcome s).2 hn hpos _ (Nat.le_refl _)
    rw [hcScan_eq_scanLoop] at hu
    have hzero (v : State) : TablesBehind (hcStart v.zeroHc) := fun _ => ⟨Nat.le_refl 0, Nat.le_refl 0⟩
    obtain ⟨henc, hsrc, ha⟩ := encodes_of_scanLoop goodPlan_hc faithfulPlan_hc (by decide)
      (scanState_hcStart (s.withCap _)) (hzero _) rfl rfl hu hn.le
    exact henc.roundTrips hsrc ha hout hc

/-- Settles O26: an illegal request has the result 0, and the run of a legal one round trips. -/
theorem compressHcRoundTrips : Obligations.CompressHcRoundTrips := by
  intro s t cap hp ht
  obtain rfl := Host.Outcome.next.inj ht
  refine (?_ : RoundTrips s _) cap
  split
  · exact roundTrips_of_zero rfl
  · obtain ⟨-, hc⟩ := oversize_eq_false.mp ‹_›
    exact hcRun_roundTrips (hc.trans_lt (Params.valid_maxDstCap hp))

end Sys2Proof.Machine
end

section
/-! PROOFS of the statements of 41_fast_encoder.md, fourth part: COMPRESS_FAST writes HT_F at the scan positions it
visits, in increasing order, and nowhere else (R148, R149). -/

namespace Sys2Proof.Machine

/-! ### Scan positions -/

/-- An iteration moves `si` on and keeps `sn`. -/
theorem GoodPlan.si_lt_next {slack : Nat} {plan : State → Plan} (good : GoodPlan slack plan) {v : State}
    (h : v.wk.si < v.wk.sn) : v.wk.si < (plan v).next.wk.si ∧ (plan v).next.wk.sn = v.wk.sn := by
  have prep := good.prepared v
  cases hp : plan v with
  | skip m =>
    rw [hp] at prep
    exact ⟨Nat.lt_succ_of_le prep.si.ge, prep.sn⟩
  | emit m =>
    obtain ⟨-, hlen, -⟩ := good.measured v m h hp
    rw [hp] at prep
    have hsi : m.wk.si = v.wk.si := prep.si
    exact ⟨show v.wk.si < m.wk.si + m.wk.matchLen by omega, prep.sn⟩

theorem fastVisited_zero (v : State) : fastVisited 0 v = [] := rfl

theorem fastVisited_of_end {v : State} (k : Nat) (h : v.wk.sn ≤ v.wk.si) : fastVisited k v = [] := by
  cases k with
  | zero => rfl
  | succ k => rw [fastVisited, if_neg (Nat.not_lt.mpr h)]

/-- A sequence is emitted, or raises. -/
theorem emitSeq_cases (m : State) : (∃ t, emitSeq m = .go t) ∨ ∃ t, emitSeq m = .raise t := putAll_cases _ m

/-- An iteration goes on or raises. -/
theorem Plan.run_cases (p : Plan) : p.run = .go p.next ∨ ∃ t, p.run = .raise t := by
  cases p with
  | skip m => exact .inl rfl
  | emit m =>
    rcases emitSeq_cases m with ⟨t, ht⟩ | ⟨t, ht⟩
    · obtain rfl : t = m.emitted m.sequenceBytes := putAll_go ht
      exact .inl (congrArg (Run.andThen · advanceMatch) ht)
    · exact .inr ⟨t, congrArg (Run.andThen · advanceMatch) ht⟩

/-- The scan visits `si`, and goes on after an iteration that is not refused a byte. -/
theorem fastVisited_of_go {v t : State} (k : Nat) (h : v.wk.si < v.wk.sn) (ht : (fastPlan v).run = .go t) :
    fastVisited (k + 1) v = v.wk.si :: fastVisited k t := by
  rw [fastVisited, if_pos h]
  unfold fastPlan at ht
  split at ht
  · rw [if_pos ‹_›]
    rw [Plan.run] at ht
    rcases emitSeq_cases (fastMeasure (fastLookup v)) with ⟨u, he⟩ | ⟨u, he⟩ <;> rw [he] at ht
    · obtain ⟨d, hd⟩ := (putFrame_emitSeq he).wk
      have hend : u.wk.si + u.wk.matchLen = fastMatchEnd (fastLookup v) := by
        obtain ⟨hmin, -⟩ := fastMatchEnd_bounds (s := fastLookup v) h
        rw [hd, fastMeasure_wk]
        exact Nat.add_sub_cancel' (Nat.le_of_add_right_le hmin)
      rw [Run.andThen_go, advanceMatch, hend] at ht
      cases ht
      rw [he]
    · cases ht
  · rw [if_neg ‹_›]
    cases ht
    rfl

/-- After an emission that failed no position is visited (R148). -/
theorem fastVisited_of_raise {v t : State} (k : Nat) (h : v.wk.si < v.wk.sn) (ht : (fastPlan v).run = .raise t) :
    fastVisited (k + 1) v = [v.wk.si] := by
  rw [fastVisited, if_pos h]
  unfold fastPlan at ht
  split at ht
  · rw [if_pos ‹_›]
    rw [Plan.run] at ht
    rcases emitSeq_cases (fastMeasure (fastLookup v)) with ⟨u, he⟩ | ⟨u, he⟩
    · rw [he] at ht
      cases ht
    · rw [he]
  · cases ht

/-- The positions visited rise from `si` on and lie below `sn`. -/
theorem fastVisited_rising (k : Nat) (v : State) :
    (fastVisited k v).Pairwise (· < ·) ∧ ∀ p ∈ fastVisited k v, v.wk.si ≤ p ∧ p < v.wk.sn := by
  induction k generalizing v with
  | zero => exact ⟨List.Pairwise.nil, by simp [fastVisited]⟩
  | succ k ih =>
    rcases Nat.lt_or_ge v.wk.si v.wk.sn with h | h
    · rcases (fastPlan v).run_cases with ht | ⟨t, ht⟩
      · obtain ⟨hsi, hsn⟩ := goodPlan_fast.si_lt_next h
        obtain ⟨hrise, hbounds⟩ := ih (fastPlan v).next
        rw [fastVisited_of_go k h ht]
        refine ⟨List.pairwise_cons.mpr ⟨fun p hp => ?_, hrise⟩, List.forall_mem_cons.mpr ⟨⟨Nat.le_refl _, h⟩,
          fun p hp => ?_⟩⟩
        · exact hsi.trans_le (hbounds p hp).1
        · obtain ⟨hlo, hhi⟩ := hbounds p hp
          omega
      · rw [fastVisited_of_raise k h ht]
        exact ⟨List.pairwise_singleton _ _, by simpa using h⟩
    · rw [fastVisited_of_end _ h]
      exact ⟨List.Pairwise.nil, by simp⟩

/-! ### The writes -/

/-- What the writes `HT_F[fp(p)] <- p` over a list of positions leave in cell `i`, which held `c`. -/
def State.cellAfter (s : State) (i c : Nat) (ps : List Nat) : Nat :=
  ps.foldl (fun c p => if (s.fp p).toNat = i then p else c) c

theorem cellAfter_nil (s : State) (i c : Nat) : s.cellAfter i c [] = c := rfl

theorem cellAfter_cons (s : State) (i c p : Nat) (ps : List Nat) :
    s.cellAfter i c (p :: ps) = s.cellAfter i (if (s.fp p).toNat = i then p else c) ps := rfl

/-- A cell holds what it held, or a position of the list whose fingerprint is its index. -/
theorem cellAfter_eq_or_mem (s : State) (i c : Nat) (ps : List Nat) :
    s.cellAfter i c ps = c ∨ ∃ p ∈ ps, (s.fp p).toNat = i ∧ s.cellAfter i c ps = p := by
  induction ps generalizing c with
  | nil => exact .inl rfl
  | cons p ps ih =>
    rw [cellAfter_cons]
    rcases ih (if (s.fp p).toNat = i then p else c) with h | ⟨q, hq, hfp, h⟩
    · by_cases hi : (s.fp p).toNat = i
      · rw [if_pos hi] at h ⊢
        exact .inr ⟨p, List.mem_cons_self, hi, h⟩
      · rw [if_neg hi] at h ⊢
        exact .inl h
    · exact .inr ⟨q, List.mem_cons_of_mem _ hq, hfp, h⟩

/-- The scan of `s` has come to `v`: the fingerprints and parameters are those of `s`, and a position fits a cell. -/
structure FastScan (s v : State) : Prop where
  src : v.src = s.src
  cfg : v.cfg = s.cfg
  sn : v.wk.sn ≤ 2 ^ s.cfg.posW

/-- The rest of an iteration keeps the cells that the lookup left. -/
structure KeepsCells (v t : State) : Prop where
  htF : t.htF = v.htF
  src : t.src = v.src
  cfg : t.cfg = v.cfg
  sn : t.wk.sn = v.wk.sn

theorem keepsCells_fastPlan (v : State) : (fastPlan v).run.All (KeepsCells (fastLookup v)) := by
  unfold fastPlan
  split
  · refine Run.All.andThen (P := KeepsCells (fastLookup v)) ?_ (fun _ h => h) fun _ h => ⟨h.htF, h.src, h.cfg, h.sn⟩
    refine (putFrame_putAll _ (fastMeasure (fastLookup v))).mono fun t h => ?_
    obtain ⟨d, hd⟩ := h.wk
    exact ⟨h.tables.htF, h.enc.host.src, h.enc.host.cfg, by rw [hd]; rfl⟩
  · exact ⟨rfl, rfl, rfl, rfl⟩

/-- The lookup writes the scan position into the cell of its fingerprint. -/
theorem FastScan.htfCell_of_keeps {s v t : State} (h : FastScan s v) (hlt : v.wk.si < v.wk.sn)
    (kept : KeepsCells (fastLookup v) t) (i : Nat) :
    t.htfCell i = if (s.fp v.wk.si).toNat = i then v.wk.si else v.htfCell i := by
  have hcell : t.htfCell i = (fastLookup v).htfCell i := by
    rw [State.htfCell, kept.htF, kept.cfg]
    rfl
  rw [hcell, fastLookup_htfCell, fp_congr h.src, h.cfg, Nat.mod_eq_of_lt (hlt.trans_le h.sn)]
  exact ite_congr (propext eq_comm) (fun _ => rfl) fun _ => rfl

theorem FastScan.of_keeps {s v t : State} (h : FastScan s v) (kept : KeepsCells (fastLookup v) t) : FastScan s t :=
  ⟨kept.src.trans h.src, kept.cfg.trans h.cfg, kept.sn.le.trans h.sn⟩

/-- The loop leaves HT_F with the writes over the positions it visited, however it ends. -/
theorem FastScan.cells_scanLoop {s : State} (k : Nat) {v : State} (h : FastScan s v) :
    (scanLoop fastPlan k v).All fun t => t.cfg = s.cfg ∧
      ∀ i, t.htfCell i = s.cellAfter i (v.htfCell i) (fastVisited k v) := by
  induction k generalizing v with
  | zero => exact ⟨h.cfg, fun i => by rw [fastVisited_zero, cellAfter_nil]⟩
  | succ k ih =>
    rw [scanLoop]
    by_cases hlt : v.wk.si < v.wk.sn
    · have kept := keepsCells_fastPlan v
      rw [if_pos hlt]
      rcases (fastPlan v).run_cases with ht | ⟨t, ht⟩
      · rw [fastVisited_of_go k hlt ht]
        rw [ht] at kept ⊢
        refine (ih (h.of_keeps kept)).mono fun u ⟨hcfg, hu⟩ => ⟨hcfg, fun i => ?_⟩
        rw [hu, h.htfCell_of_keeps hlt kept, cellAfter_cons]
      · rw [fastVisited_of_raise k hlt ht]
        rw [ht] at kept ⊢
        exact ⟨(h.of_keeps kept).cfg, fun i => by rw [h.htfCell_of_keeps hlt kept, cellAfter_cons, cellAfter_nil]⟩
    · rw [if_neg hlt, fastVisited_of_end _ (Nat.not_lt.mp hlt)]
      exact ⟨h.cfg, fun i => by rw [cellAfter_nil]⟩

/-- Finish and the completion leave HT_F alone. -/
theorem htF_settle_finish {m : Run} {P : Table → Prop} (h : m.All fun t => P t.htF) :
    P (m.andThen finish).settle.htF := by
  have hend : (m.andThen finish).All fun t => P t.htF :=
    h.andThen (fun _ h => h) fun t ht => (sameFast_finish t).mono fun u (hu : u.htF = t.htF) => hu ▸ ht
  exact Run.settle_of_all (Q := fun t => P t.htF) hend (fun _ h => h) (fun _ _ h => h) (fun _ h => h) fun _ h => h

/-- Past the early return, the cells after the command are those after the writes at the visited positions. -/
theorem fastRun_htfCell {s : State} (hlong : ¬ s.tooShort = true) (hn : s.wk.n - 12 ≤ 2 ^ s.cfg.posW) (i : Nat) :
    (fastRun s).settle.htF.read .htF s.cfg.posW i =
      s.cellAfter i (s.htfCell i) (fastVisited (s.wk.n - 12) s.startScan) := by
  have start : FastScan s s.startScan := ⟨rfl, rfl, hn⟩
  rw [fastRun_of_long hlong]
  refine htF_settle_finish (P := fun table => table.read .htF s.cfg.posW i = _)
    ((start.cells_scanLoop (s.wk.n - 12)).mono fun t ⟨hcfg, ht⟩ => ?_)
  rw [← hcfg]
  exact ht i

/-- The scan starts at position 0 (R142). -/
theorem fastVisited_head {k : Nat} {v : State} (h : v.wk.si < v.wk.sn) :
    (fastVisited (k + 1) v).head? = some v.wk.si := by
  rcases (fastPlan v).run_cases with ht | ⟨t, ht⟩
  · rw [fastVisited_of_go k h ht, List.head?_cons]
  · rw [fastVisited_of_raise k h ht, List.head?_cons]

theorem fastVisited_startScan {s : State} (hn : 12 < s.wk.n) :
    (fastVisited (s.wk.n - 12) s.startScan).head? = some 0 ∧
      (fastVisited (s.wk.n - 12) s.startScan).Pairwise (· < ·) ∧
      ∀ p ∈ fastVisited (s.wk.n - 12) s.startScan, p < s.wk.n - 12 := by
  obtain ⟨hrise, hbounds⟩ := fastVisited_rising (s.wk.n - 12) s.startScan
  refine ⟨?_, hrise, fun p hp => (hbounds p hp).2⟩
  obtain ⟨k, hk⟩ := Nat.exists_eq_add_one.mpr (Nat.sub_pos_of_lt hn)
  rw [hk]
  exact fastVisited_head (v := s.startScan) (Nat.sub_pos_of_lt hn)

/-- An illegal request and the early return leave HT_F alone (R141, R241). -/
theorem htF_of_no_scan {s t : State} (ht : exec .compressFast s = .next t)
    (h : s.wk.n ≤ 12 ∨ s.wk.cap = 0 ∨ s.cfg.maxSrcLen < s.wk.n ∨ s.cfg.maxDstCap < s.wk.cap) : t.htF = s.htF := by
  by_cases hfits : s.wk.n ≤ s.cfg.maxSrcLen ∧ s.wk.cap ≤ s.cfg.maxDstCap
  · have short : s.tooShort = true := (tooShort_iff s).mpr (by omega)
    rw [exec_compressFast_of_fits hfits.1 hfits.2, fastRun_of_short short] at ht
    cases ht
    rfl
  · have large : s.oversize = true := not_not.mp (mt oversize_eq_false.mp hfits)
    rw [exec, execCompressFast, if_pos large] at ht
    cases ht
    rfl

/-- Settles O28: the scan's writes when it runs, and none otherwise. -/
theorem fastTableHoldsScanPositions : Obligations.FastTableHoldsScanPositions := by
  intro s t hp ht
  have hcfg : t.cfg = s.cfg := (instructionsKeepTheHostSide .compressFast s t ht).cfg
  have scanned (hn : s.wk.n ≤ s.cfg.maxSrcLen) (hc : s.wk.cap ≤ s.cfg.maxDstCap) (h12 : 12 < s.wk.n)
      (hpos : 0 < s.wk.cap) (i : Nat) :
      t.htfCell i = s.cellAfter i (s.htfCell i) (fastVisited (s.wk.n - 12) s.startScan) := by
    have hlimit := (Params.valid_limits hp).1
    rw [exec_compressFast_of_fits hn hc] at ht
    rw [State.htfCell, hcfg, ← Host.Outcome.next.inj ht]
    exact fastRun_htfCell (fun short => (tooShort_iff s).mp short ⟨h12, hpos⟩) (by omega) i
  refine ⟨fun i => ?_, htF_of_no_scan ht, fun hn hc h12 hpos => ?_⟩
  · by_cases hrun : s.wk.n ≤ s.cfg.maxSrcLen ∧ s.wk.cap ≤ s.cfg.maxDstCap ∧ 12 < s.wk.n ∧ 0 < s.wk.cap
    · obtain ⟨hn, hc, h12, hpos⟩ := hrun
      obtain ⟨-, -, hbelow⟩ := fastVisited_startScan h12
      rw [scanned hn hc h12 hpos]
      exact (cellAfter_eq_or_mem s i _ _).imp_right fun ⟨p, hmem, hfp, he⟩ => ⟨p, hbelow p hmem, hfp, he⟩
    · rw [State.htfCell, hcfg, htF_of_no_scan ht (by omega)]
      exact .inl rfl
  · obtain ⟨hhead, hrise, hbelow⟩ := fastVisited_startScan h12
    exact ⟨hhead, hrise, hbelow, scanned hn hc h12 hpos⟩

end Sys2Proof.Machine
end

section
/-! PROOFS of the statements of 42_hc_encoder.md, first part: the chain walk takes the longest match its candidates offer
(R174, R175, R181), and what an insertion, a search and a match taken leave of the chain tables (R176 to R178). -/

namespace Sys2Proof.Machine

/-! ### What a walk keeps -/

/-- The part of the state that a chain walk reads or hands on, and never writes: the parameters, the source, both chain
tables, the scan position and its limit, and the budget. -/
structure SameChain (s t : State) : Prop where
  cfg : t.cfg = s.cfg
  src : t.src = s.src
  htH : t.htH = s.htH
  ct : t.ct = s.ct
  si : t.wk.si = s.wk.si
  sn : t.wk.sn = s.wk.sn
  effDepth : t.wk.effDepth = s.wk.effDepth

theorem sameChain_refl (s : State) : SameChain s s := ⟨rfl, rfl, rfl, rfl, rfl, rfl, rfl⟩

theorem SameChain.trans {s t u : State} (h : SameChain s t) (k : SameChain t u) : SameChain s u :=
  ⟨k.cfg.trans h.cfg, k.src.trans h.src, k.htH.trans h.htH, k.ct.trans h.ct, k.si.trans h.si, k.sn.trans h.sn,
    k.effDepth.trans h.effDepth⟩

theorem sameChain_hcLookup (s : State) : SameChain s (hcLookup s) := ⟨rfl, rfl, rfl, rfl, rfl, rfl, rfl⟩

theorem sameChain_hcFollow (k link : Nat) (s : State) : SameChain s (hcFollow k link s) :=
  ⟨rfl, rfl, rfl, rfl, rfl, rfl, rfl⟩

theorem sameChain_hcCandidate (s : State) : SameChain s (hcCandidate s) := by
  unfold hcCandidate
  split
  · unfold hcMeasure
    split <;> exact ⟨rfl, rfl, rfl, rfl, rfl, rfl, rfl⟩
  · exact sameChain_refl s

/-- One candidate visited and the walk gone on at its link. -/
theorem sameChain_hcVisit (k : Nat) (s : State) :
    SameChain s (hcFollow k (s.ctCell (s.wk.next % Config.winSize)) (hcCandidate s)) :=
  (sameChain_hcCandidate s).trans (sameChain_hcFollow k _ _)

theorem sameChain_hcWalk (k : Nat) (s : State) : SameChain s (hcWalk k s) := by
  induction k generalizing s with
  | zero => exact sameChain_refl s
  | succ k ih =>
    rw [hcWalk]
    split
    · exact (sameChain_hcVisit k s).trans (ih _)
    · exact sameChain_refl s

/-- The walk of the search at a scan position. -/
theorem sameChain_search (s : State) : SameChain s (hcWalk s.wk.effDepth (hcLookup s)) :=
  (sameChain_hcLookup s).trans (sameChain_hcWalk s.wk.effDepth _)

section SameChain
variable {s t : State} (h : SameChain s t)
include h

theorem SameChain.hcOffers_eq (c : Nat) : hcOffers t c = hcOffers s c := by
  rw [hcOffers, hcOffers, commonLen_congr h.src, h.si, h.sn]

theorem SameChain.ctCell_eq (i : Nat) : t.ctCell i = s.ctCell i := by
  rw [State.ctCell, State.ctCell, h.ct, h.cfg]

theorem SameChain.hcVisited_eq (k next : Nat) : hcVisited t k next = hcVisited s k next := by
  induction k generalizing next with
  | zero => rfl
  | succ k ih => rw [hcVisited, hcVisited, h.si, h.ctCell_eq, ih]

theorem SameChain.hcLongest_iff {seen : List Nat} {len off : Nat} : HcLongest t seen len off ↔ HcLongest s seen len off := by
  simp only [HcLongest, h.hcOffers_eq, h.si]

/-- An insertion reads the parameters, the source and the chain tables. -/
theorem SameChain.hcInsert_tables (q : Nat) :
    (hcInsert q t).htH = (hcInsert q s).htH ∧ (hcInsert q t).ct = (hcInsert q s).ct := by
  simp only [hcInsert_htH, hcInsert_ct, State.hthCell, h.cfg, h.htH, h.ct, fp_congr h.src, and_self]

end SameChain

/-! ### The walk takes the longest match (R174, R175, R181) -/

theorem hcVisited_length_le (s : State) (tries next : Nat) : (hcVisited s tries next).length ≤ tries := by
  induction tries generalizing next with
  | zero => exact Nat.le_refl 0
  | succ k ih =>
    rw [hcVisited]
    split
    · exact Nat.succ_le_succ (ih _)
    · exact Nat.zero_le _

/-- The cheap probe of R175 passes over no longer match: a candidate that offers more than the best length so far agrees
with the scan position there. -/
theorem probe_of_lt_hcOffers {s : State} {c len : Nat} (h : len < hcOffers s c) :
    s.srcByte (c + len) = s.srcByte (s.wk.si + len) := eq_of_lt_commonLen s.srcByte c s.wk.si _ h

theorem hcMeasure_takes {s : State} (h : 4 ≤ s.wk.ml ∧ s.wk.bestLen < s.wk.ml) :
    (hcMeasure s).wk.bestLen = s.wk.ml ∧ (hcMeasure s).wk.bestOff = s.wk.si - s.wk.next := by
  rw [hcMeasure, if_pos h]
  exact ⟨rfl, rfl⟩

theorem hcMeasure_keeps {s : State} (h : ¬ (4 ≤ s.wk.ml ∧ s.wk.bestLen < s.wk.ml)) :
    (hcMeasure s).wk.bestLen = s.wk.bestLen ∧ (hcMeasure s).wk.bestOff = s.wk.bestOff := by
  rw [hcMeasure, if_neg h]
  exact ⟨rfl, rfl⟩

/-- A candidate that offers a longer match of at least 4 bytes becomes the best one. -/
theorem hcCandidate_takes {s : State} (hmin : 4 ≤ hcOffers s s.wk.next) (hlt : s.wk.bestLen < hcOffers s s.wk.next) :
    (hcCandidate s).wk.bestLen = hcOffers s s.wk.next ∧ (hcCandidate s).wk.bestOff = s.wk.si - s.wk.next := by
  rw [hcCandidate, if_pos (probe_of_lt_hcOffers hlt)]
  exact hcMeasure_takes ⟨hmin, hlt⟩

/-- Any other candidate leaves the best match as it is. -/
theorem hcCandidate_keeps {s : State} (h : ¬ (4 ≤ hcOffers s s.wk.next ∧ s.wk.bestLen < hcOffers s s.wk.next)) :
    (hcCandidate s).wk.bestLen = s.wk.bestLen ∧ (hcCandidate s).wk.bestOff = s.wk.bestOff := by
  rw [hcCandidate]
  split
  · exact hcMeasure_keeps h
  · exact ⟨rfl, rfl⟩

theorem hcLongest_nil (s : State) : HcLongest s [] 0 0 := .inl ⟨rfl, rfl, fun _ h => absurd h List.not_mem_nil⟩

section Longest
variable {s : State} {seen : List Nat} {len off c : Nat} (h : HcLongest s seen len off)
include h

/-- No candidate seen offers a match of at least 4 bytes that is longer than the best one. -/
theorem HcLongest.offers_le {d : Nat} (hd : d ∈ seen) : hcOffers s d < 4 ∨ hcOffers s d ≤ len := by
  obtain ⟨-, -, none⟩ | ⟨-, newer, best, older, rfl, hbest, -, hnewer, holder⟩ := h
  · exact .inl (none d hd)
  · obtain hd | hd := List.mem_append.mp hd
    · exact .inr (hnewer d hd).le
    · obtain rfl | hd := List.mem_cons.mp hd
      · exact .inr hbest.le
      · exact .inr (holder d hd)

/-- An older candidate with a longer match of at least 4 bytes is the best so far. -/
theorem HcLongest.snoc_takes (hmin : 4 ≤ hcOffers s c) (hlt : len < hcOffers s c) :
    HcLongest s (seen ++ [c]) (hcOffers s c) (s.wk.si - c) := by
  refine .inr ⟨hmin, seen, c, [], rfl, rfl, rfl, fun d hd => ?_, fun d hd => absurd hd List.not_mem_nil⟩
  have := h.offers_le hd
  omega

/-- An older candidate with a match that is no longer, or below 4 bytes, changes nothing. -/
theorem HcLongest.snoc_keeps (hc : ¬ (4 ≤ hcOffers s c ∧ len < hcOffers s c)) : HcLongest s (seen ++ [c]) len off := by
  obtain ⟨hlen, hoff, none⟩ | ⟨hmin, newer, best, older, rfl, hbest, hoff, hnewer, holder⟩ := h
  · refine .inl ⟨hlen, hoff, fun d hd => ?_⟩
    obtain hd | hd := List.mem_append.mp hd
    · exact none d hd
    · rw [List.mem_singleton.mp hd]
      omega
  · refine .inr ⟨hmin, newer, best, older ++ [c], by simp, hbest, hoff, hnewer, fun d hd => ?_⟩
    obtain hd | hd := List.mem_append.mp hd
    · exact holder d hd
    · rw [List.mem_singleton.mp hd]
      omega

end Longest

/-- The best match so far is the longest one, once its candidate is visited too. -/
theorem HcLongest.hcCandidate {s : State} {seen : List Nat} (h : HcLongest s seen s.wk.bestLen s.wk.bestOff) :
    HcLongest s (seen ++ [s.wk.next]) (hcCandidate s).wk.bestLen (hcCandidate s).wk.bestOff := by
  by_cases hc : 4 ≤ hcOffers s s.wk.next ∧ s.wk.bestLen < hcOffers s s.wk.next
  · obtain ⟨hlen, hoff⟩ := hcCandidate_takes hc.1 hc.2
    rw [hlen, hoff]
    exact h.snoc_takes hc.1 hc.2
  · obtain ⟨hlen, hoff⟩ := hcCandidate_keeps hc
    rw [hlen, hoff]
    exact h.snoc_keeps hc

/-- A walk that has seen `seen` and goes on ends with the longest match of these and of the candidates it then visits. -/
theorem HcLongest.hcWalk (k : Nat) {s : State} {seen : List Nat} (h : HcLongest s seen s.wk.bestLen s.wk.bestOff) :
    HcLongest s (seen ++ hcVisited s k s.wk.next) (hcWalk k s).wk.bestLen (hcWalk k s).wk.bestOff := by
  induction k generalizing s seen with
  | zero => rwa [hcVisited, List.append_nil]
  | succ k ih =>
    have same := sameChain_hcVisit k s
    rw [hcVisited, Machine.hcWalk]
    split
    · rw [List.append_cons, ← same.hcVisited_eq, ← same.hcLongest_iff]
      exact ih (same.hcLongest_iff.mpr h.hcCandidate)
    · rwa [List.append_nil]

/-- Settles O15: the walk starts with no candidate seen and no match. -/
theorem hcWalkTakesTheLongest : Obligations.HcWalkTakesTheLongest := by
  intro s tries hlen hoff
  have start : HcLongest s [] s.wk.bestLen s.wk.bestOff := by
    rw [hlen, hoff]
    exact hcLongest_nil s
  exact ⟨hcVisited_length_le s tries _, start.hcWalk tries⟩

/-! ### Insertion (R176, R177) -/

theorem hcInsert_hthCell (q i : Nat) (s : State) :
    (hcInsert q s).hthCell i = if i = (s.fp q).toNat then q % 2 ^ s.cfg.posW else s.hthCell i := Table.read_write ..

/-- The old head goes to the chain slot; it has POS_W bits already. -/
theorem hcInsert_ctCell {s : State} (h : s.htH.wf s.cfg.posW = true) (q i : Nat) :
    (hcInsert q s).ctCell i = if i = q % 65536 then s.hthCell (s.fp q).toNat else s.ctCell i := by
  have hread : (hcInsert q s).ctCell i =
      if i = q % 65536 then s.hthCell (s.fp q).toNat % 2 ^ s.cfg.posW else s.ctCell i := Table.read_write ..
  have hhead : s.hthCell (s.fp q).toNat < 2 ^ s.cfg.posW := Table.read_lt .htH s.htH _ h
  rwa [Nat.mod_eq_of_lt hhead] at hread

theorem hcTake_of_none {s : State} (h : s.wk.bestLen = 0) :
    hcTake s = .go { s with wk := { s.wk with si := s.wk.si + 1 } } := if_pos h

/-- A match that was taken: its interior is inserted, and the scan goes on at its end with the same budget. -/
theorem hcTake_match_go {s t : State} (h : s.wk.bestLen ≠ 0) (ht : hcTake s = .go t) :
    t.wk.si = s.wk.si + s.wk.bestLen ∧ t.wk.anchor = s.wk.si + s.wk.bestLen ∧ t.wk.effDepth = s.wk.effDepth ∧
      SameTables (hcInsertMatch s) t := by
  rw [hcTake_match h] at ht
  exact hcMeasured_emit (hcInsertMatch_wk s) ht

/-- The search inserts the scan position, as if there had been no walk. -/
theorem hcSearch_tables (s : State) :
    (hcSearch s).htH = (hcInsert s.wk.si s).htH ∧ (hcSearch s).ct = (hcInsert s.wk.si s).ct :=
  (sameChain_search s).hcInsert_tables s.wk.si

/-- Settles O16: the insertion cell by cell, the positions inside a match one by one, and the search's own insertion. -/
theorem hcInsertionLinksTheChain : Obligations.HcInsertionLinksTheChain := by
  refine ⟨fun s q hw => ⟨?_, fun i hi => ?_, ?_, fun i hi => ?_⟩, fun s => hcTake_of_none, fun s t hb ht => ?_,
    fun s => ⟨(sameChain_search s).si, hcSearch_tables s⟩⟩
  · rw [hcInsert_hthCell, if_pos rfl]
  · rw [hcInsert_hthCell, if_neg hi]
  · rw [hcInsert_ctCell hw, if_pos rfl]
  · rw [hcInsert_ctCell hw, if_neg hi]
  · obtain ⟨hsi, hanchor, -, tables⟩ := hcTake_match_go (by omega) ht
    have hinside := hcInsertMatch_eq_foldl s (positions_interior s)
    refine ⟨hsi, hanchor, ?_, ?_⟩
    · rw [tables.htH, hinside]
    · rw [tables.ct, hinside]

end Sys2Proof.Machine
end

section
/-! PROOFS of the statements of 42_hc_encoder.md, second part: COMPRESS_HC reads neither HT_F (R170) nor, once its budget is
known, the latched depth (R172): each piece of its pseudocode does the same with other values of both. Then the budget
itself, from DEPTH to the search. -/

namespace Sys2Proof.Machine

/-! ### What the scan does not read -/

/-- The state with another HT_F and another latched depth. -/
def State.withUnread (table : Table) (d : Int) (s : State) : State :=
  { s with htF := table, wk := { s.wk with depth := d } }

/-- The state with another HT_F. -/
def State.withFastTable (table : Table) (s : State) : State := { s with htF := table }

/-- A piece of pseudocode with another HT_F and another latched depth wherever it leaves the command. -/
def Run.withUnread (table : Table) (d : Int) : Run → Run
  | .go s => .go (s.withUnread table d)
  | .ret r s => .ret r (s.withUnread table d)
  | .incompressible s => .incompressible (s.withUnread table d)
  | .raise s => .raise (s.withUnread table d)

def Plan.withUnread (table : Table) (d : Int) : Plan → Plan
  | .skip m => .skip (m.withUnread table d)
  | .emit m => .emit (m.withUnread table d)

@[simp] theorem withUnread_wk (table : Table) (d : Int) (s : State) :
    (s.withUnread table d).wk = { s.wk with depth := d } := rfl

section Unread
variable (table : Table) (d : Int)

theorem Run.andThen_withUnread {f : State → Run} (hf : ∀ t, f (t.withUnread table d) = (f t).withUnread table d)
    (m : Run) : (m.withUnread table d).andThen f = (m.andThen f).withUnread table d := by
  cases m with
  | go t => exact hf t
  | ret r t => rfl
  | incompressible t => rfl
  | raise t => rfl

/-- The completion makes the latched depth unspecified with the other working registers (10_state.md R33). -/
theorem Run.settle_withUnread {m : Run} (ends : ∀ t, m ≠ .go t) :
    (m.withUnread table d).settle = m.settle.withFastTable table := by
  cases m with
  | go t => exact absurd rfl (ends t)
  | ret r t => rfl
  | incompressible t => rfl
  | raise t => rfl

/-! ### The packer -/

theorem put_withUnread (v : Byte) (s : State) : put v (s.withUnread table d) = (put v s).withUnread table d := by
  rw [put, put, apply_ite (Run.withUnread table d)]
  rfl

theorem putAll_withUnread (vs : List Byte) (s : State) :
    putAll vs (s.withUnread table d) = (putAll vs s).withUnread table d := by
  induction vs generalizing s with
  | nil => rfl
  | cons v r ih =>
    rw [putAll, putAll, put_withUnread]
    exact Run.andThen_withUnread table d ih _

theorem emitSeq_withUnread (s : State) : emitSeq (s.withUnread table d) = (emitSeq s).withUnread table d :=
  putAll_withUnread table d s.sequenceBytes s

theorem finishLiterals_withUnread (s : State) :
    finishLiterals (s.withUnread table d) = (finishLiterals s).withUnread table d := by
  have hlit : emitLastLiterals (s.withUnread table d) = (emitLastLiterals s).withUnread table d :=
    putAll_withUnread table d (s.literals s.wk.litLen) s
  rw [finishLiterals, finishLiterals, apply_ite (Run.withUnread table d), hlit, Run.andThen_withUnread table d fun _ => rfl]
  rfl

theorem finish_withUnread (s : State) : finish (s.withUnread table d) = (finish s).withUnread table d := by
  have hhead : emitLastHeader (s.lastMeasured.withUnread table d) = (emitLastHeader s.lastMeasured).withUnread table d :=
    putAll_withUnread table d (lastHeader (s.wk.n - s.wk.anchor)) s.lastMeasured
  have hrest := Run.andThen_withUnread table d (finishLiterals_withUnread table d) (emitLastHeader s.lastMeasured)
  rw [← hhead] at hrest
  rw [finish, finish, apply_ite (Run.withUnread table d)]
  exact ite_congr rfl (fun _ => rfl) fun _ => hrest

/-! ### The search -/

theorem hcMeasure_withUnread (s : State) : hcMeasure (s.withUnread table d) = (hcMeasure s).withUnread table d := by
  unfold hcMeasure
  rw [apply_ite (State.withUnread table d)]
  rfl

theorem hcCandidate_withUnread (s : State) : hcCandidate (s.withUnread table d) = (hcCandidate s).withUnread table d := by
  unfold hcCandidate
  rw [apply_ite (State.withUnread table d), ← hcMeasure_withUnread]
  rfl

theorem hcWalk_withUnread (k : Nat) (s : State) : hcWalk k (s.withUnread table d) = (hcWalk k s).withUnread table d := by
  induction k generalizing s with
  | zero => rfl
  | succ k ih =>
    rw [hcWalk, hcWalk, apply_ite (State.withUnread table d), ← ih, hcCandidate_withUnread]
    rfl

theorem hcSearch_withUnread (s : State) : hcSearch (s.withUnread table d) = (hcSearch s).withUnread table d :=
  congrArg (hcInsert s.wk.si) (hcWalk_withUnread table d s.wk.effDepth (hcLookup s))

theorem hcInsertFrom_withUnread (k q : Nat) (s : State) :
    hcInsertFrom k q (s.withUnread table d) = (hcInsertFrom k q s).withUnread table d := by
  induction k generalizing q s with
  | zero => rfl
  | succ k ih => exact ih (q + 1) (hcInsert q s)

theorem hcInsertMatch_withUnread (s : State) :
    hcInsertMatch (s.withUnread table d) = (hcInsertMatch s).withUnread table d := by
  simp only [hcInsertMatch, hcInsertStart, withUnread_wk, hcInsertFrom_withUnread]

theorem hcMeasured_withUnread (s : State) : hcMeasured (s.withUnread table d) = (hcMeasured s).withUnread table d := rfl

theorem hcPlan_withUnread (s : State) : hcPlan (s.withUnread table d) = (hcPlan s).withUnread table d := by
  unfold hcPlan
  rw [hcSearch_withUnread, hcInsertMatch_withUnread, hcMeasured_withUnread, withUnread_wk,
    apply_ite (Plan.withUnread table d)]
  simp only [Plan.withUnread]

/-! ### The command -/

theorem Plan.run_withUnread (p : Plan) : (p.withUnread table d).run = p.run.withUnread table d := by
  cases p with
  | skip m => rfl
  | emit m =>
    rw [Plan.withUnread, Plan.run, Plan.run, emitSeq_withUnread]
    exact Run.andThen_withUnread table d (fun _ => rfl) _

theorem scanLoop_withUnread (k : Nat) (s : State) :
    scanLoop hcPlan k (s.withUnread table d) = (scanLoop hcPlan k s).withUnread table d := by
  induction k generalizing s with
  | zero => rfl
  | succ k ih =>
    rw [scanLoop, scanLoop, apply_ite (Run.withUnread table d), hcPlan_withUnread, Plan.run_withUnread,
      Run.andThen_withUnread table d ih]
    rfl

variable {d}

/-- The scan starts with the budget of the depth (R172), and that is all it takes from it. -/
theorem hcStart_withUnread {s : State} (h : effectiveDepth d = effectiveDepth s.wk.depth) :
    hcStart (s.withUnread table d).zeroHc = (hcStart s.zeroHc).withUnread table d := by
  simp only [hcStart, startScan_wk, zeroHc_wk, withUnread_wk, h]
  rfl

theorem hcRun_withUnread {s : State} (h : effectiveDepth d = effectiveDepth s.wk.depth) :
    hcRun (s.withUnread table d) = (hcRun s).withUnread table d := by
  by_cases hshort : s.tooShort = true
  · rw [hcRun_of_short hshort, hcRun_of_short (s := s.withUnread table d) hshort]
    rfl
  · rw [hcRun_of_long hshort, hcRun_of_long (s := s.withUnread table d) hshort, hcStart_withUnread table h,
      withUnread_wk, scanLoop_withUnread]
    exact Run.andThen_withUnread table d (finish_withUnread table d) _

/-- COMPRESS_HC with another HT_F and a depth of the same budget. -/
theorem exec_compressHc_withUnread {s t : State} (h : effectiveDepth d = effectiveDepth s.wk.depth)
    (ht : exec .compressHc s = .next t) :
    exec .compressHc (s.withUnread table d) = .next (t.withFastTable table) := by
  cases ht
  rw [exec, execCompressHc, hcRun_withUnread table h, Run.settle_withUnread table d (hcRun_ends s),
    apply_ite (State.withFastTable table)]
  rfl

end Unread

/-- Settles O29: the depth is the same, and so is its budget. -/
theorem compressHcIgnoresFastTable : Obligations.CompressHcIgnoresFastTable :=
  fun s _ table ht => exec_compressHc_withUnread table (d := s.wk.depth) rfl ht

/-- Depths with one budget give one outcome: HT_F is the same. -/
theorem exec_compressHc_of_effectiveDepth {s : State} {d : Int} (h : effectiveDepth d = effectiveDepth s.wk.depth) :
    exec .compressHc { s with wk := { s.wk with depth := d } } = exec .compressHc s :=
  (exec_compressHc_withUnread s.htF h rfl).trans (exec_compressHc_withUnread s.htF (d := s.wk.depth) rfl rfl).symm

/-! ### The budget (R172) -/

theorem effectiveDepth_of_nonpos {d : Int} (h : d ≤ 0) : effectiveDepth d = 65536 := if_pos h

theorem effectiveDepth_of_pos {d : Int} (h : 0 < d) : effectiveDepth d = d.toNat := if_neg (Int.not_le.mpr h)

/-- The budget of DEPTH, read as two's complement (10_state.md R25). -/
theorem effectiveDepth_depthValue (w : Word) :
    effectiveDepth (depthValue w) = if w.toNat = 0 ∨ 2147483648 ≤ w.toNat then 65536 else w.toNat := by
  have hvalue : depthValue w = if 2 * w.toNat < 4294967296 then (w.toNat : Int) else (w.toNat : Int) - 4294967296 :=
    BitVec.toInt_eq_toNat_cond w
  have hw : w.toNat < 4294967296 := w.isLt
  split
  · exact effectiveDepth_of_nonpos (by omega)
  · rw [effectiveDepth_of_pos (by omega)]
    omega

/-- Each scan position keeps the budget for the next. -/
theorem hcTake_effDepth {s t : State} (ht : hcTake s = .go t) : t.wk.effDepth = s.wk.effDepth := by
  by_cases h : s.wk.bestLen = 0
  · rw [hcTake_of_none h] at ht
    rw [← Run.go.inj ht]
  · obtain ⟨-, -, heff, -⟩ := hcTake_match_go h ht
    exact heff

/-- The search's choice among the candidates that its whole budget visits. -/
theorem hcLongest_hcSearch (s : State) :
    HcLongest s (hcVisited s s.wk.effDepth (s.hthCell (s.fp s.wk.si).toNat)) (hcSearch s).wk.bestLen
      (hcSearch s).wk.bestOff := by
  have same := sameChain_hcLookup s
  have walk := (hcLongest_nil (hcLookup s)).hcWalk (s := hcLookup s) s.wk.effDepth
  rw [List.nil_append, same.hcVisited_eq, same.hcLongest_iff] at walk
  exact walk

/-- Settles O17: the budget of each depth, how the scan hands it on, and what a search does with it. -/
theorem effectiveDepthOfTheRegister : Obligations.EffectiveDepthOfTheRegister := by
  refine ⟨fun d => ⟨effectiveDepth_of_nonpos, fun h => ?_⟩, effectiveDepth_depthValue, fun _ => rfl, fun s t ht => ?_,
    fun s => ⟨hcVisited_length_le s _ _, hcLongest_hcSearch s⟩, fun _ _ => exec_compressHc_of_effectiveDepth⟩
  · rw [effectiveDepth_of_pos h]
    exact Int.toNat_of_nonneg h.le
  · exact (hcTake_effDepth ht).trans (sameChain_search s).effDepth

end Sys2Proof.Machine
end

section
/-! PROOFS of the statements of 43_decoder.md, first part: the start of a block (R200), the ends of the two length
extensions (R202 to R207), and the period of the copy (R207). -/

namespace Sys2Proof.Machine

/-! ### The start of a block (R200) -/

/-- The state in which the first token of a block is fetched. -/
def State.blockStarted (s : State) : State := { s with wk := { s.wk with si := 0, di := 0 }, engine := .busy .token }

theorem exec_decompress_of_fits {s : State} (hn : s.wk.n ≤ s.cfg.maxSrcLen) (hc : s.wk.cap ≤ s.cfg.maxDstCap) :
    exec .decompress s = .next (decompressRun s).settle :=
  congrArg Host.Outcome.next (if_neg (oversize_eq_false.mpr ⟨hn, hc⟩))

theorem decompressRun_empty {s : State} (h : s.wk.n = 0) : decompressRun s = .ret 0 s := if_pos h

theorem decompressRun_first {s : State} (h : s.wk.n ≠ 0) : decompressRun s = .go s.blockStarted := if_neg h

/-- Settles O31: a request within the limits, empty or not. -/
theorem decompressStartsTheBlock : Obligations.DecompressStartsTheBlock := by
  intro s hn hc
  rw [exec_decompress_of_fits hn hc]
  refine ⟨fun h0 => ?_, fun hne => ?_⟩
  · rw [decompressRun_empty h0]
    exact ⟨_, rfl, completed_complete .ok 0 0 s, hostSide_complete .ok 0 0 s, ⟨rfl, rfl, rfl⟩, fun _ => rfl⟩
  · rw [decompressRun_first hne]
    exact ⟨_, rfl, rfl, rfl, hostSide_update s s.dst _ _, ⟨rfl, rfl, rfl⟩, ⟨rfl, rfl, rfl⟩, fun _ => rfl⟩

/-! ### The ends of the extensions (R202) -/

theorem exec_litlenExtEnd (b : Byte) (s : State) :
    exec (.litlenExtEnd b) s = .next (literalRun ((s.consume 1).addLitLen b.toNat)).settle := rfl

theorem exec_matchlenExtEnd (b : Byte) (s : State) :
    exec (.matchlenExtEnd b) s = .next (matchCopy ((s.consume 1).addMatchLen b.toNat)).settle := rfl

/-- Settles O35: the two checks, then the end of an empty run. -/
theorem literalExtensionEnds : Obligations.LiteralExtensionEnds := by
  intro b s
  simp only [exec_litlenExtEnd]
  refine ⟨fun hn hc hpos => ?_, fun h0 hn hc => ?_, fun h0 hn hc => ?_, fun h => ?_⟩
  · rw [literalRun_literals (s := (s.consume 1).addLitLen b.toNat) hn hc hpos.ne']
    rfl
  · rw [literalRun_empty (s := (s.consume 1).addLitLen b.toNat) hn.le hc h0,
      endOfLiterals_offset (s := (s.consume 1).addLitLen b.toNat) hn.ne]
    rfl
  · rw [literalRun_empty (s := (s.consume 1).addLitLen b.toNat) hn.le hc h0,
      endOfLiterals_end (s := (s.consume 1).addLitLen b.toNat) hn]
    exact ⟨_, rfl, completed_of_faultLog rfl _ _ _, ⟨rfl, rfl, rfl, rfl, rfl, rfl, rfl, rfl⟩, ⟨rfl, rfl, rfl⟩,
      fun _ => rfl⟩
  · rw [literalRun_raise (s := (s.consume 1).addLitLen b.toNat) h]
    exact ⟨_, rfl, completed_raise rfl⟩

/-- Settles O38: the check of the match. -/
theorem matchExtensionEnds : Obligations.MatchExtensionEnds := by
  intro b s
  simp only [exec_matchlenExtEnd]
  refine ⟨fun h => ?_, fun h => ?_⟩
  · rw [matchCopy_fits (s := (s.consume 1).addMatchLen b.toNat) h]
    rfl
  · rw [matchCopy_raise (s := (s.consume 1).addMatchLen b.toNat) h]
    exact ⟨_, rfl, completed_raise rfl⟩

/-! ### The period of the copy (R207) -/

/-- Each byte of the copy repeats the one `off` before it, so the first `off` of them repeat the output and the others
repeat the copy. -/
theorem Buf.read_copyBytes_period {off di : Nat} (b : Buf) (hpos : 1 ≤ off) (hin : off ≤ di) (k : Nat) {count : Nat}
    (hk : k < count) : (copyBytes count off di b).read .dst (di + k) = b.read .dst (di - off + k % off) := by
  induction k using Nat.strong_induction_on generalizing count with
  | h k ih =>
    have source : (copyBytes count off di b).read .dst (di + k) = (copyBytes k off di b).read .dst (di + k - off) := by
      obtain ⟨more, rfl⟩ := Nat.exists_eq_add_of_lt hk
      rw [show k + more + 1 = k + 1 + more by omega, Buf.read_copyBytes_prefix (k + 1) more off di b (by omega),
        Buf.read_copyBytes_snoc k off di b hin]
    rw [source]
    by_cases hlt : k < off
    · rw [Buf.read_copyBytes_outside k off di b (.inl (by omega)), Nat.mod_eq_of_lt hlt, Nat.sub_add_comm hin]
    · rw [Nat.add_sub_assoc (Nat.not_lt.mp hlt), ih (k - off) (by omega) (by omega),
        ← Nat.mod_eq_sub_mod (Nat.not_lt.mp hlt)]

/-- Settles O39: the period by induction on the position, the frame by the copy's range. -/
theorem copyRepeatsThePeriod : Obligations.CopyRepeatsThePeriod := fun s count off hpos hin =>
  ⟨fun k hk => Buf.read_copyBytes_period s.dst hpos hin k hk,
    fun _ ha => Buf.read_copyBytes_outside count off s.wk.di s.dst ha⟩

end Sys2Proof.Machine
end

section
/-! PROOFS of the statements of 43_decoder.md, second part: DECOMPRESS as a whole (R200 to R209). The block function of
Machine/Block.lean is cut at the places where the engine fetches; each element of the block takes the machine from one
such place to a later one with the same answer, or ends the command with that answer. -/

namespace Sys2Proof.Machine

/-! ### The block function, cut where the engine fetches -/

/-- The rest of the block from an offset on (R205). -/
def afterLiterals (cap f mn : Nat) (bs out : List Byte) : Option (List Byte) :=
  (blockMatch cap mn bs out).bind fun p => blockLoop cap f p.2 p.1

/-- The rest of the block once the literal length is `l` (R203, R204). -/
def afterLength (cap f mn l : Nat) (bs out : List Byte) : Option (List Byte) :=
  if bs.length < l then none
  else if cap < out.length + l then none
  else if bs.length = l then some (out ++ bs)
  else afterLiterals cap f mn (bs.drop l) (out ++ bs.take l)

/-- The rest of the block once the match length without MIN_MATCH is `m` (R206, R207). -/
def afterMatchLength (cap f off m : Nat) (bs out : List Byte) : Option (List Byte) :=
  if cap < out.length + (m + 4) then none else blockLoop cap f bs (overlapCopy (m + 4) off out)

/-- The rest of the block once the offset is `off` (R205, R206). -/
def afterOffset (cap f mn off : Nat) (bs out : List Byte) : Option (List Byte) :=
  if off = 0 ∨ out.length < off then none
  else (nibbleLen mn bs).bind fun p => afterMatchLength cap f off p.1 p.2 out

theorem blockLoop_nil (cap f : Nat) (out : List Byte) : blockLoop cap f [] out = none := by
  cases f <;> rfl

/-- One round of the loop, from its token on. -/
theorem blockLoop_cons (cap f : Nat) (t : Byte) (r out : List Byte) : blockLoop cap (f + 1) (t :: r) out =
    (nibbleLen (t.toNat / 16) r).bind fun p => afterLength cap f (t.toNat % 16) p.1 p.2 out := by
  rw [blockLoop]
  cases nibbleLen (t.toNat / 16) r with
  | none => rfl
  | some p =>
    simp only [Option.bind_some, afterLength, afterLiterals]
    cases blockMatch cap (t.toNat % 16) (p.2.drop p.1) (out ++ p.2.take p.1) <;> rfl

theorem nibbleLen_extension {nib : BitVec 4} (bs : List Byte) (h : nib = 15#4) :
    nibbleLen nib.toNat bs = readLen nib.toNat bs := if_pos (congrArg BitVec.toNat h)

theorem nibbleLen_short {nib : BitVec 4} (bs : List Byte) (h : nib ≠ 15#4) :
    nibbleLen nib.toNat bs = some (nib.toNat, bs) := if_neg fun h15 => h (BitVec.eq_of_toNat_eq h15)

theorem afterLiterals_short (cap f mn : Nat) {bs : List Byte} (out : List Byte) (h : bs.length < 2) :
    afterLiterals cap f mn bs out = none := by
  rcases bs with _ | ⟨lo, _ | ⟨hi, r⟩⟩
  · rfl
  · rfl
  · simp at h

theorem afterLiterals_cons (cap f mn : Nat) (lo hi : Byte) (r out : List Byte) :
    afterLiterals cap f mn (lo :: hi :: r) out = afterOffset cap f mn (lo.toNat + 256 * hi.toNat) r out := by
  rw [afterLiterals, blockMatch, afterOffset]
  split
  · rfl
  · cases nibbleLen mn r with
    | none => rfl
    | some p =>
      simp only [Option.bind_some, afterMatchLength, Config.minMatch]
      split <;> rfl

theorem afterLength_short {cap f mn l : Nat} {bs out : List Byte} (h : bs.length < l ∨ cap < out.length + l) :
    afterLength cap f mn l bs out = none := by
  rw [afterLength]
  split
  · rfl
  · exact if_pos (h.resolve_left ‹_›)

/-- After an empty run the block ends, or an offset follows (R204). -/
theorem afterLength_zero {cap f mn : Nat} {bs out : List Byte} (h : out.length ≤ cap) :
    afterLength cap f mn 0 bs out = if bs = [] then some out else afterLiterals cap f mn bs out := by
  rw [afterLength, if_neg (Nat.not_lt_zero _), Nat.add_zero, if_neg (Nat.not_lt.mpr h), List.drop_zero, List.take_zero,
    List.append_nil]
  cases bs with
  | nil => exact congrArg some (List.append_nil out)
  | cons b r => rfl

/-- The first literal of a run may be moved to the output. -/
theorem afterLength_succ (cap f mn l : Nat) (b : Byte) (r out : List Byte) :
    afterLength cap f mn (l + 1) (b :: r) out = afterLength cap f mn l r (out ++ [b]) := by
  simp only [afterLength, List.length_cons, List.length_append, List.length_nil, Nat.add_lt_add_iff_right,
    Nat.add_right_cancel_iff, List.drop_succ_cons, List.take_succ_cons, List.append_assoc, List.singleton_append,
    Nat.add_assoc, Nat.zero_add, Nat.add_comm 1 l]

/-! ### Bytes that are still to be read, and bytes that are written -/

/-- The bytes of the block from `si` on. -/
def State.remaining (v : State) : List Byte := bytesFrom v.srcByte v.wk.si (v.wk.n - v.wk.si)

/-- The output so far. -/
def State.decoded (v : State) : List Byte := bytesFrom v.dstByte 0 v.wk.di

@[simp] theorem remaining_length (v : State) : v.remaining.length = v.wk.n - v.wk.si := bytesFrom_length _ _ _

@[simp] theorem decoded_length (v : State) : v.decoded.length = v.wk.di := bytesFrom_length _ _ _

theorem bytesFrom_drop (f : Nat → Byte) (a n k : Nat) : (bytesFrom f a n).drop k = bytesFrom f (a + k) (n - k) := by
  apply List.ext_getElem
  · simp
  · intro i _ _
    simp only [List.getElem_drop, bytesFrom_getElem, Nat.add_assoc]

theorem bytesFrom_take (f : Nat → Byte) (a n k : Nat) : (bytesFrom f a n).take k = bytesFrom f a (min k n) := by
  rw [bytesFrom, bytesFrom, ← List.map_take, List.take_range]

/-- The bytes left after `k` bytes of the block have been passed. -/
theorem remaining_after {v w : State} (k : Nat) (hsrc : w.src = v.src) (hn : w.wk.n = v.wk.n)
    (hsi : w.wk.si = v.wk.si + k) : w.remaining = v.remaining.drop k := by
  rw [State.remaining, State.remaining, bytesFrom_drop, srcByte_congr_fun hsrc, hn, hsi, Nat.sub_add_eq]

/-- A fetch inside a block reads its next two bytes, where there are two. -/
theorem fetchBytes_eq_take (v : State) {c : Ctx} (hc : c ≠ .command) : v.fetchBytes c = v.remaining.take 2 := by
  rw [fetchBytes_block v hc, State.remaining, bytesFrom_take]

/-- A byte written behind the output is the output's next. -/
theorem bytesFrom_read_write (b : Buf) (a : Nat) (x : Byte) :
    bytesFrom ((b.write a x).read .dst) 0 (a + 1) = bytesFrom (b.read .dst) 0 a ++ [x] := by
  rw [bytesFrom_append, bytesFrom_succ, bytesFrom_zero, Nat.zero_add, Buf.read_write_same]
  congr 1
  exact bytesFrom_congr fun i _ hi => Buf.read_write_other .dst b x (by omega)

theorem decoded_literalCopy (b : Byte) (v : State) : (literalCopy b v).decoded = v.decoded ++ [b] :=
  bytesFrom_read_write v.dst v.wk.di b

/-- The copy into DST makes of the output what the copy over lists makes of it (R207). -/
theorem bytesFrom_copyBytes (count : Nat) {off di : Nat} (b : Buf) (hpos : 1 ≤ off) (hin : off ≤ di) :
    bytesFrom ((copyBytes count off di b).read .dst) 0 (di + count) =
      overlapCopy count off (bytesFrom (b.read .dst) 0 di) := by
  induction count generalizing di b with
  | zero => rfl
  | succ k ih =>
    have hlt : di - off < (bytesFrom (b.read .dst) 0 di).length := by rw [bytesFrom_length]; omega
    have hbyte : (bytesFrom (b.read .dst) 0 di).getD ((bytesFrom (b.read .dst) 0 di).length - off) 0 =
        b.read .dst (di - off) := by
      rw [bytesFrom_length, List.getD_eq_getElem _ _ hlt, bytesFrom_getElem, Nat.zero_add]
    rw [copyBytes, overlapCopy, hbyte, ← bytesFrom_read_write, ← ih _ (by omega), Nat.add_assoc, Nat.add_comm 1 k]

theorem decoded_matched (len : Nat) {v : State} (hpos : 1 ≤ v.wk.off) (hin : v.wk.off ≤ v.wk.di) :
    (v.matched len).decoded = overlapCopy len v.wk.off v.decoded :=
  bytesFrom_copyBytes len v.dst hpos hin

/-! ### States of a block in progress -/

/-- A state that decoding the block of `s` can pass: the cursors are inside the block and the buffer, DST from `di` on
is as before, and so is what no element changes. -/
structure Decoding (s v : State) : Prop where
  frame : ElemFrame s v
  unseen : v.unseen = s.unseen
  si : v.wk.si ≤ v.wk.n
  di : v.wk.di ≤ v.wk.cap
  beyond : SameDstFrom v.wk.di s v

/-- An element may pass bytes of the block and write DST between the old output and the new one. -/
theorem Decoding.update {s v : State} (h : Decoding s v) {b : Buf} {e : Engine} {w : Working} (hn : w.n = v.wk.n)
    (hc : w.cap = v.wk.cap) (hsi : w.si ≤ v.wk.n) (hdi : w.di ≤ v.wk.cap) (hle : v.wk.di ≤ w.di)
    (hb : ∀ a, w.di ≤ a → b.read .dst a = v.dstByte a) : Decoding s { v with dst := b, engine := e, wk := w } where
  frame := h.frame.trans (elemFrame_update v b e w hn hc)
  unseen := h.unseen
  si := hn ▸ hsi
  di := hc ▸ hdi
  beyond := fun a ha => (hb a ha).trans (h.beyond a (hle.trans ha))

/-- Passing bytes of the block stores nothing. -/
theorem Decoding.pass {s v : State} (h : Decoding s v) {e : Engine} {w : Working} (hn : w.n = v.wk.n)
    (hc : w.cap = v.wk.cap) (hsi : w.si ≤ v.wk.n) (hdi : w.di = v.wk.di) :
    Decoding s { v with engine := e, wk := w } :=
  h.update hn hc hsi (hdi ▸ h.di) hdi.ge fun _ _ => rfl

/-- A block in progress whose next element, in the context `c`, is still to be fetched. -/
structure Awaits (s : State) (c : Ctx) (v : State) : Prop where
  decoding : Decoding s v
  engine : v.engine = .busy c
  block : c ≠ .command
  fits : FitsContext c v

/-- What the block function makes of the rest of the block, from a fetch in the given context on. -/
def State.expected (f : Nat) (v : State) : Ctx → Option (List Byte)
  | .command => none
  | .token => blockLoop v.wk.cap f v.remaining v.decoded
  | .litExt => (readLen v.wk.litLen v.remaining).bind fun p =>
      afterLength v.wk.cap f v.wk.mn.toNat p.1 p.2 v.decoded
  | .literal => afterLength v.wk.cap f v.wk.mn.toNat v.wk.litLen v.remaining v.decoded
  | .offset => afterLiterals v.wk.cap f v.wk.mn.toNat v.remaining v.decoded
  | .matchExt => (readLen v.wk.matchLen v.remaining).bind fun p =>
      afterMatchLength v.wk.cap f v.wk.off p.1 p.2 v.decoded

/-- A piece of pseudocode takes the decoding of `s` to the answer `r`: it goes on at `lo` or later, with enough fuel for
that answer, or it ends the command with it. -/
def Run.Decodes (s : State) (lo : Nat) (r : Option (List Byte)) : Run → Prop
  | .go w => lo ≤ w.wk.si ∧ ∃ c f, Awaits s c w ∧ w.remaining.length ≤ f ∧ w.expected f c = r
  | .ret k w => Decoding s w ∧ k = w.wk.di ∧ r = some w.decoded
  | .incompressible _ => False
  | .raise w => Decoding s w ∧ r = none

/-! ### The pieces of the copy engine -/

section Pieces
variable {s u : State} {lo f : Nat} (h : Decoding s u) (hlo : lo ≤ u.wk.si) (hf : u.remaining.length ≤ f)
include h hlo hf

theorem Decoding.decodes_await {c : Ctx} (hc : c ≠ .command) (fits : FitsContext c u) :
    (Run.go (u.await c)).Decodes s lo (u.expected f c) :=
  ⟨hlo, c, f, ⟨h.pass rfl rfl h.si rfl, rfl, hc, fits⟩, hf, rfl⟩

/-- R204. -/
theorem Decoding.decodes_endOfLiterals :
    (endOfLiterals u).Decodes s lo (afterLength u.wk.cap f u.wk.mn.toNat 0 u.remaining u.decoded) := by
  rw [afterLength_zero (by rw [decoded_length]; exact h.di)]
  have hsi := h.si
  have hlen := remaining_length u
  rcases endOfLiterals_cases u with ⟨hend, hr⟩ | ⟨hmore, hr⟩ <;> rw [hr]
  · rw [if_pos (List.length_eq_zero_iff.mp (by omega))]
    exact ⟨h, rfl, rfl⟩
  · rw [if_neg fun hnil => by rw [hnil, List.length_nil] at hlen; omega]
    exact h.decodes_await (c := .offset) hlo hf (by decide) (by simp [FitsContext])

/-- R203. -/
theorem Decoding.decodes_literalRun :
    (literalRun u).Decodes s lo (afterLength u.wk.cap f u.wk.mn.toNat u.wk.litLen u.remaining u.decoded) := by
  have hsi := h.si
  rcases literalRun_cases u with ⟨hshort, hr⟩ | ⟨hsrc, hdst, ⟨h0, hr⟩ | ⟨hpos, hr⟩⟩ <;> rw [hr]
  · exact ⟨h, afterLength_short (by rw [remaining_length, decoded_length]; omega)⟩
  · rw [h0]
    exact h.decodes_endOfLiterals hlo hf
  · exact h.decodes_await (c := .literal) hlo hf (by decide) ⟨fun _ => ⟨by omega, hsrc, hdst⟩, by simp⟩

/-- R206 and R207. -/
theorem Decoding.decodes_matchCopy (hpos : 1 ≤ u.wk.off) (hin : u.wk.off ≤ u.wk.di) :
    (matchCopy u).Decodes s lo (afterMatchLength u.wk.cap f u.wk.off u.wk.matchLen u.remaining u.decoded) := by
  rw [afterMatchLength, decoded_length]
  rcases matchCopy_cases u with ⟨hshort, hr⟩ | ⟨hfit, hr⟩ <;> rw [hr]
  · exact ⟨h, if_pos hshort⟩
  · rw [if_neg (Nat.not_lt.mpr hfit), ← decoded_matched _ hpos hin]
    have hm : Decoding s (u.matched (u.wk.matchLen + 4)) :=
      h.update rfl rfl h.si hfit (Nat.le_add_right _ _) fun a ha => Buf.read_copyBytes_outside _ _ _ _ (.inr ha)
    exact hm.decodes_await (c := .token) hlo hf (by decide) (by simp [FitsContext])

/-- R205 and R206. -/
theorem Decoding.decodes_offsetRun (off : Nat) :
    (offsetRun off u).Decodes s lo (afterOffset u.wk.cap f u.wk.mn.toNat off u.remaining u.decoded) := by
  have ht : Decoding s (u.offsetTaken off) := h.pass rfl rfl h.si rfl
  rw [afterOffset, decoded_length]
  rcases offsetRun_cases off u with ⟨hbad, hr⟩ | ⟨hpos, hin, ⟨hmn, hr⟩ | ⟨hmn, hr⟩⟩ <;> rw [hr]
  · exact ⟨h, if_pos hbad⟩
  · rw [if_neg (by omega), nibbleLen_extension _ hmn]
    exact ht.decodes_await (c := .matchExt) hlo hf (by decide) ⟨by simp, fun _ => ⟨hpos, hin⟩⟩
  · rw [if_neg (by omega), nibbleLen_short _ hmn]
    exact ht.decodes_matchCopy hlo hf hpos hin

end Pieces

/-! ### The elements of a block -/

section Elements
variable {s v : State} {f : Nat} {b : Byte} {r : List Byte}

theorem si_lt_of_remaining (hr : v.remaining = b :: r) : v.wk.si + 1 ≤ v.wk.n := by
  have hlen := remaining_length v
  rw [hr, List.length_cons] at hlen
  omega

theorem remaining_next {w : State} (hr : v.remaining = b :: r) (hsrc : w.src = v.src) (hn : w.wk.n = v.wk.n)
    (hsi : w.wk.si = v.wk.si + 1) : w.remaining = r :=
  (remaining_after 1 hsrc hn hsi).trans (congrArg (List.drop 1) hr)

theorem length_next_le {w : State} (hr : v.remaining = b :: r) (hw : w.remaining = r) (hf : v.remaining.length ≤ f) :
    w.remaining.length ≤ f := by
  rw [hr] at hf
  rw [hw]
  exact Nat.le_of_succ_le hf

/-- R203: the token's literal nibble, with its extension where it is 15. -/
theorem Decoding.decodes_tokenRun (h : Decoding s v) (ln mn : BitVec 4) (hr : v.remaining = b :: r)
    (hf : r.length ≤ f) : (tokenRun ln mn v).Decodes s (v.wk.si + 1)
      ((nibbleLen ln.toNat r).bind fun p => afterLength v.wk.cap f mn.toNat p.1 p.2 v.decoded) := by
  have ht : Decoding s (takeToken ln mn v) := h.pass rfl rfl (si_lt_of_remaining hr) rfl
  have hrem : (takeToken ln mn v).remaining = r := remaining_next hr rfl rfl rfl
  rw [← hrem] at hf ⊢
  by_cases hln : ln = 15#4
  · rw [tokenRun, if_pos hln, nibbleLen_extension _ hln]
    exact ht.decodes_await (c := .litExt) (Nat.le_refl _) hf (by decide) (by simp [FitsContext])
  · rw [tokenRun, if_neg hln, nibbleLen_short _ hln]
    exact ht.decodes_literalRun (Nat.le_refl _) hf

/-- A literal of a run that fits: what comes next is what the run without it would be (R203, R204). -/
theorem literalNext_eq_literalRun (hsrc : v.wk.si + v.wk.litLen ≤ v.wk.n) (hdst : v.wk.di + v.wk.litLen ≤ v.wk.cap) :
    literalNext v = literalRun v := by
  rw [literalRun, if_neg (Nat.not_lt.mpr hsrc), if_neg (Nat.not_lt.mpr hdst), literalNext]

/-- The engine's turn takes the decoding of `s` past at least one byte of the block, to the answer `ans`. -/
def TurnDecodes (s v : State) (ans : Option (List Byte)) : Prop :=
  ∃ m : Run, engineTurn v = .next m.settle ∧ m.Decodes s (v.wk.si + 1) ans

/-- The instruction that the next bytes of the block are. -/
theorem Awaits.turn {c : Ctx} {i : Instr} {rest : List Byte} {m : Run} {ans : Option (List Byte)} (h : Awaits s c v)
    (hd : decode c (v.remaining.take 2) = .ok i rest) (hm : exec i v = .next m.settle)
    (dec : m.Decodes s (v.wk.si + 1) ans) : TurnDecodes s v ans :=
  ⟨m, (engineTurn_of_decoded h.engine ((congrArg _ (fetchBytes_eq_take v h.block)).trans hd)).trans hm, dec⟩

/-- Bytes that are no element (R201, R205). -/
theorem Awaits.turn_rejected {c : Ctx} {why : Reject} {ans : Option (List Byte)} (h : Awaits s c v)
    (hd : decode c (v.remaining.take 2) = .rejected why) (hans : ans = none) : TurnDecodes s v ans :=
  ⟨.raise v, engineTurn_of_rejected h.engine ((congrArg _ (fetchBytes_eq_take v h.block)).trans hd), h.decoding, hans⟩

theorem decode_nil {c : Ctx} : decode c [] = .rejected .truncated := by
  cases c <;> rfl

/-- Where the block is truncated the block function has no answer (R201). -/
theorem Awaits.expected_nil {c : Ctx} (h : Awaits s c v) (hnil : v.remaining = []) : v.expected f c = none := by
  cases c with
  | command => exact absurd rfl h.block
  | token => rw [State.expected, hnil, blockLoop_nil]
  | litExt => rw [State.expected, hnil]; rfl
  | literal =>
    obtain ⟨hpos, -, -⟩ := h.fits.1 rfl
    exact afterLength_short (.inl (by rwa [hnil]))
  | offset => exact afterLiterals_short _ _ _ _ (by rw [hnil]; decide)
  | matchExt => rw [State.expected, hnil]; rfl

/-- TOKEN: one round of the loop begins (R203, R208). -/
theorem Awaits.turn_token (h : Awaits s .token v) (hr : v.remaining = b :: r) (hf : v.remaining.length ≤ f) :
    TurnDecodes s v (v.expected f .token) := by
  rw [hr, List.length_cons] at hf
  obtain ⟨g, rfl⟩ : ∃ g, f = g + 1 := ⟨f - 1, by omega⟩
  have hln : (b.extractLsb' 4 4).toNat = b.toNat / 16 := by
    rw [BitVec.extractLsb'_toNat, Nat.shiftRight_eq_div_pow]
    omega
  have hmn : (b.extractLsb' 0 4).toNat = b.toNat % 16 := by
    rw [BitVec.extractLsb'_toNat, Nat.shiftRight_zero]
  refine h.turn (rest := r.take 1) (by rw [hr]; rfl) rfl ?_
  rw [State.expected, hr, blockLoop_cons, ← hln, ← hmn]
  exact h.decoding.decodes_tokenRun _ _ hr (Nat.le_of_succ_le_succ hf)

/-- LITLEN_EXT_CONT and LITLEN_EXT_END (R202). -/
theorem Awaits.turn_litExt (h : Awaits s .litExt v) (hr : v.remaining = b :: r) (hf : v.remaining.length ≤ f) :
    TurnDecodes s v (v.expected f .litExt) := by
  have hu (k : Nat) : Decoding s ((v.consume 1).addLitLen k) := h.decoding.pass rfl rfl (si_lt_of_remaining hr) rfl
  have hrem (k : Nat) : ((v.consume 1).addLitLen k).remaining = r := remaining_next hr rfl rfl rfl
  rw [State.expected, hr]
  by_cases hb : b = Config.extCont
  · subst hb
    refine h.turn (m := .go (((v.consume 1).addLitLen 255).await .litExt)) (by rw [hr]; rfl) rfl ?_
    rw [readLen_cont, ← hrem 255]
    exact (hu 255).decodes_await (c := .litExt) (Nat.le_refl _) (length_next_le hr (hrem 255) hf) (by decide)
      (by simp [FitsContext])
  · have hd : decode .litExt ((b :: r).take 2) = .ok (.litlenExtEnd b) (r.take 1) :=
      congrArg (Decoded.ok · (r.take 1)) (if_neg hb)
    refine h.turn (hr ▸ hd) rfl ?_
    rw [readLen_end _ _ hb, ← hrem b.toNat]
    exact (hu b.toNat).decodes_literalRun (Nat.le_refl _) (length_next_le hr (hrem b.toNat) hf)

/-- LITERAL (R203). -/
theorem Awaits.turn_literal (h : Awaits s .literal v) (hr : v.remaining = b :: r) (hf : v.remaining.length ≤ f) :
    TurnDecodes s v (v.expected f .literal) := by
  obtain ⟨hpos, hsrc, hdst⟩ := h.fits.1 rfl
  have hu : Decoding s (literalCopy b v) :=
    h.decoding.update rfl rfl (si_lt_of_remaining hr) (show v.wk.di + 1 ≤ v.wk.cap by omega) (Nat.le_succ _)
      fun a ha => Buf.read_write_other .dst v.dst b (Nat.ne_of_gt ha)
  have hrem : (literalCopy b v).remaining = r := remaining_next hr rfl rfl rfl
  have hlen : v.wk.litLen = (literalCopy b v).wk.litLen + 1 := (Nat.sub_add_cancel hpos).symm
  refine h.turn (rest := r.take 1) (by rw [hr]; rfl) rfl ?_
  rw [State.expected, hr, hlen, afterLength_succ, ← decoded_literalCopy, ← hrem,
    literalNext_eq_literalRun (by simp only [literalCopy_wk]; omega) (by simp only [literalCopy_wk]; omega)]
  exact hu.decodes_literalRun (Nat.le_refl _) (length_next_le hr hrem hf)

/-- OFFSET16 (R205). -/
theorem Awaits.turn_offset {hi : Byte} (h : Awaits s .offset v) (hr : v.remaining = b :: hi :: r)
    (hf : v.remaining.length ≤ f) : TurnDecodes s v (v.expected f .offset) := by
  have hoff : (hi ++ b : BitVec 16).toNat = b.toNat + 256 * hi.toNat :=
    (append_byte_toNat hi b).trans (Nat.add_comm _ _)
  rw [State.expected, hr, afterLiterals_cons, ← hoff]
  by_cases hzero : hi ++ b = 0#16
  · refine h.turn_rejected (why := .zeroOffset) (by rw [hr]; exact if_pos hzero) ?_
    exact if_pos (.inl (congrArg BitVec.toNat hzero))
  · refine h.turn (i := .offset16 (hi ++ b)) (rest := []) (by rw [hr]; exact if_neg hzero) rfl ?_
    have hrem : (v.consume 2).remaining = r :=
      (remaining_after (v := v) (w := v.consume 2) 2 rfl rfl rfl).trans (congrArg (List.drop 2) hr)
    have hlen := remaining_length v
    rw [hr, List.length_cons, List.length_cons] at hf hlen
    have hu : Decoding s (v.consume 2) := h.decoding.pass rfl rfl (show v.wk.si + 2 ≤ v.wk.n by omega) rfl
    rw [← hrem]
    exact hu.decodes_offsetRun (show v.wk.si + 1 ≤ v.wk.si + 2 by omega) (by rw [hrem]; omega) _

/-- MATCHLEN_EXT_CONT and MATCHLEN_EXT_END (R202, R206). -/
theorem Awaits.turn_matchExt (h : Awaits s .matchExt v) (hr : v.remaining = b :: r) (hf : v.remaining.length ≤ f) :
    TurnDecodes s v (v.expected f .matchExt) := by
  obtain ⟨hpos, hin⟩ := h.fits.2 rfl
  have hu (k : Nat) : Decoding s ((v.consume 1).addMatchLen k) := h.decoding.pass rfl rfl (si_lt_of_remaining hr) rfl
  have hrem (k : Nat) : ((v.consume 1).addMatchLen k).remaining = r := remaining_next hr rfl rfl rfl
  rw [State.expected, hr]
  by_cases hb : b = Config.extCont
  · subst hb
    refine h.turn (m := .go (((v.consume 1).addMatchLen 255).await .matchExt)) (by rw [hr]; rfl) rfl ?_
    rw [readLen_cont, ← hrem 255]
    exact (hu 255).decodes_await (c := .matchExt) (Nat.le_refl _) (length_next_le hr (hrem 255) hf) (by decide)
      ⟨by simp, fun _ => ⟨hpos, hin⟩⟩
  · have hd : decode .matchExt ((b :: r).take 2) = .ok (.matchlenExtEnd b) (r.take 1) :=
      congrArg (Decoded.ok · (r.take 1)) (if_neg hb)
    refine h.turn (hr ▸ hd) rfl ?_
    rw [readLen_end _ _ hb, ← hrem b.toNat]
    exact (hu b.toNat).decodes_matchCopy (Nat.le_refl _) (length_next_le hr (hrem b.toNat) hf) hpos hin

/-- The engine's turn agrees with the block function, whatever the block holds. -/
theorem Awaits.turn_decodes {c : Ctx} (h : Awaits s c v) (hf : v.remaining.length ≤ f) :
    TurnDecodes s v (v.expected f c) := by
  rcases hr : v.remaining with _ | ⟨b, r⟩
  · exact h.turn_rejected (by rw [hr]; exact decode_nil) (h.expected_nil hr)
  · cases c with
    | command => exact absurd rfl h.block
    | token => exact h.turn_token hr hf
    | litExt => exact h.turn_litExt hr hf
    | literal => exact h.turn_literal hr hf
    | offset =>
      rcases r with _ | ⟨hi, r⟩
      · refine h.turn_rejected (why := .truncated) (by rw [hr]; rfl) (afterLiterals_short _ _ _ _ ?_)
        rw [hr]
        exact Nat.one_lt_two
      · exact h.turn_offset hr hf
    | matchExt => exact h.turn_matchExt hr hf

end Elements

/-! ### The whole block -/

/-- How a DECOMPRESS of `s` ends when its block decodes to `ans`: with the output, or with InvalidSourceShortBuffer. -/
structure DecodeEnds (s : State) (ans : Option (List Byte)) (t : State) : Prop where
  host : HostSide s t
  tables : SameTables s t
  decoded : ∀ out, ans = some out → Completed .ok out.length s t ∧ out.length ≤ s.wk.cap ∧
    bytesFrom t.dstByte 0 out.length = out ∧ SameDstFrom out.length s t ∧ HidesBelow out.length s t
  raised : ans = none → Completed .invalidSourceShortBuffer 0 s t ∧ SameDstFrom s.wk.cap s t

/-- The block has ended after its last literal (R204). -/
theorem Decoding.ends_ret {s w : State} (h : Decoding s w) :
    DecodeEnds s (some w.decoded) (w.complete .ok w.wk.di w.wk.di) where
  host := h.frame.host.trans (hostSide_complete .ok _ _ w)
  tables := ⟨h.frame.tables.htF, h.frame.tables.htH, h.frame.tables.ct⟩
  decoded := by
    rintro out ⟨⟩
    rw [decoded_length]
    refine ⟨completed_of_faultLog h.frame.outcome.faultLog _ _ _, h.frame.cap ▸ h.di, rfl, h.beyond, ?_⟩
    rw [HidesBelow, ← h.unseen]
    exact hidesBelow_complete .ok _ _ w
  raised := fun hnone => nomatch hnone

/-- The block is invalid, or its output does not fit (R209). -/
theorem Decoding.ends_raise {s w : State} (h : Decoding s w) : DecodeEnds s none w.raiseShort where
  host := h.frame.host.trans (hostSide_raiseShort w)
  tables := ⟨h.frame.tables.htF, h.frame.tables.htH, h.frame.tables.ct⟩
  decoded := fun _ hsome => nomatch hsome
  raised := fun _ => ⟨completed_raise h.frame.outcome.faultLog, fun a ha =>
    (sameDst_raiseShort w a (h.frame.cap ▸ ha)).trans (h.beyond a (h.di.trans (h.frame.cap ▸ ha)))⟩

/-- From any fetch on, the machine reaches the block function's answer, by induction on the bytes that are left: each
turn passes at least one of them or ends the command. -/
theorem Awaits.run_ends {s v : State} {c : Ctx} {f : Nat} (h : Awaits s c v) (hf : v.remaining.length ≤ f)
    (hin : s.inbox = []) :
    ∃ k t, k ≤ v.wk.n - v.wk.si + 1 ∧ core.run k v = .next t ∧ DecodeEnds s (v.expected f c) t := by
  induction hleft : v.wk.n - v.wk.si using Nat.strong_induction_on generalizing v c f with
  | h left ih =>
    obtain ⟨m, hturn, dec⟩ := h.turn_decodes hf
    have hstep : step v = .next m.settle := (step_of_inbox_nil (h.decoding.frame.host.inbox.trans hin)).trans hturn
    cases m with
    | go w =>
      obtain ⟨hpassed, c', f', hw, hf', hans⟩ := dec
      have hwn : w.wk.n = v.wk.n := hw.decoding.frame.n.trans h.decoding.frame.n.symm
      have hsi := hw.decoding.si
      obtain ⟨k, t, hk, hrun, ends⟩ := ih (w.wk.n - w.wk.si) (by omega) hw hf' rfl
      exact ⟨k + 1, t, by omega, (core_run_succ hstep k).trans hrun, hans ▸ ends⟩
    | ret r w =>
      obtain ⟨hw, rfl, hans⟩ := dec
      exact ⟨1, _, by omega, core_run_succ hstep 0, hans ▸ hw.ends_ret⟩
    | incompressible w => exact dec.elim
    | raise w =>
      obtain ⟨hw, hans⟩ := dec
      exact ⟨1, _, by omega, core_run_succ hstep 0, hans ▸ hw.ends_raise⟩

/-- Before the first token nothing is written. -/
theorem awaits_blockStarted (s : State) : Awaits s .token s.blockStarted where
  decoding := ⟨elemFrame_update s s.dst _ _ rfl rfl, rfl, Nat.zero_le _, Nat.zero_le _, fun _ _ => rfl⟩
  engine := rfl
  block := by decide
  fits := by simp [FitsContext]

/-- The command word 3 is DECOMPRESS (30_encoding.md R80). -/
theorem engineTurn_decompress {s : State} (he : s.engine = .busy .command) (hcmd : s.cmd = 3) :
    engineTurn s = exec .decompress s := by
  refine engineTurn_of_decoded (rest := []) he ?_
  rw [State.fetchBytes, hcmd]
  decide

/-- Decoding from the start of the command, empty block or not (R200). -/
theorem decompress_run_ends {s : State} (he : s.engine = .busy .command) (hcmd : s.cmd = 3) (hin : s.inbox = [])
    (hn : s.wk.n ≤ s.cfg.maxSrcLen) (hc : s.wk.cap ≤ s.cfg.maxDstCap) :
    ∃ k t, k ≤ s.wk.n + 2 ∧ core.run k s = .next t ∧
      DecodeEnds s (decodeBlock s.wk.cap (bytesFrom s.srcByte 0 s.wk.n)) t := by
  have hstep : step s = .next (decompressRun s).settle := by
    rw [step_of_inbox_nil hin, engineTurn_decompress he hcmd, exec_decompress_of_fits hn hc]
  by_cases h0 : s.wk.n = 0
  · rw [decompressRun_empty h0] at hstep
    refine ⟨1, _, by omega, core_run_succ hstep 0, hostSide_complete .ok 0 0 s, ⟨rfl, rfl, rfl⟩, ?_, ?_⟩
    · rw [h0]
      rintro out ⟨⟩
      exact ⟨completed_complete .ok 0 0 s, Nat.zero_le _, rfl, fun _ _ => rfl, hidesBelow_complete .ok 0 0 s⟩
    · rw [h0]
      exact fun hnone => nomatch hnone
  · rw [decompressRun_first h0] at hstep
    have hne : bytesFrom s.srcByte 0 s.wk.n ≠ [] :=
      List.ne_nil_of_length_pos (by rw [bytesFrom_length]; exact Nat.pos_of_ne_zero h0)
    obtain ⟨k, t, hk, hrun, ends⟩ := (awaits_blockStarted s).run_ends (Nat.le_refl _) hin
    rw [decodeBlock, if_neg hne]
    exact ⟨k + 1, t, Nat.succ_le_succ hk, (core_run_succ hstep k).trans hrun, ends⟩

/-- Settles O32: what the block function answers decides the end. -/
theorem decompressRunsTheBlock : Obligations.DecompressRunsTheBlock := by
  intro s he hcmd hin hn hc
  obtain ⟨k, t, hk, hrun, ends⟩ := decompress_run_ends he hcmd hin hn hc
  refine ⟨k, t, hk, hrun, ends.host, ends.tables, ?_⟩
  split
  · exact ends.decoded _ ‹_›
  · exact ends.raised ‹_›

end Sys2Proof.Machine
end

section
/-! PROOFS of the statements of 44_bound.md: the command BOUND (R230), and that a capacity of BOUND(n) is enough for both
encoders (R231). -/

namespace Sys2Proof.Machine

/-! ### BOUND (R230) -/

/-- The bound of every accepted length fits RESULT (00_scope.md R7). -/
theorem Params.valid_bound {p : Params} (hp : p.valid = true) {n : Nat} (hn : n ≤ p.maxSrcLen) :
    n + n / 255 + 16 < 2 ^ 32 := by
  simp only [Params.valid, Bool.and_eq_true, decide_eq_true_eq, and_assoc] at hp
  obtain ⟨-, -, -, hmax, -⟩ := hp
  omega

theorem exec_bound_of_fits {s : State} (h : s.wk.n ≤ s.cfg.maxSrcLen) :
    exec .bound s = .next (s.complete .ok (s.wk.n + s.wk.n / 255 + 16) 0) :=
  congrArg Host.Outcome.next (if_neg (by simpa [State.oversizeSrc] using h))

theorem exec_bound_of_long {s : State} (h : s.cfg.maxSrcLen < s.wk.n) : exec .bound s = .next s.rejectRequest :=
  congrArg Host.Outcome.next (if_pos (decide_eq_true h))

/-- Settles O18: a length within the limit completes with the formula, and a longer one is rejected. -/
theorem boundReturnsTheFormula : Obligations.BoundReturnsTheFormula := by
  refine ⟨rfl, fun s hp => ?_⟩
  rcases Nat.lt_or_ge s.cfg.maxSrcLen s.wk.n with hlong | hfits
  · exact ⟨_, exec_bound_of_long hlong, hostSide_rejectRequest s, ⟨rfl, rfl, rfl⟩, fun _ => rfl,
      fun hfits => absurd hfits (Nat.not_le.mpr hlong), fun _ => completed_rejectRequest s⟩
  · exact ⟨_, exec_bound_of_fits hfits, hostSide_complete _ _ _ s, ⟨rfl, rfl, rfl⟩, fun _ => rfl,
      fun _ => ⟨completed_complete _ _ _ s,
        (BitVec.toNat_ofNat _ _).trans (Nat.mod_eq_of_lt (Params.valid_bound hp hfits))⟩,
      fun hlong => absurd hfits (Nat.not_le.mpr hlong)⟩

/-! ### BOUND(n) bytes are enough (R231) -/

/-- Every match found so far ends inside the source. -/
theorem ScanState.anchor_le {slack : Nat} {s v : State} (h : ScanState slack s v) (hs : slack ≤ 12) (hn : 12 ≤ s.wk.n) :
    v.wk.anchor ≤ s.wk.n := by
  have hle := h.anchor
  have hsi := h.si
  have hsn := h.sn
  omega

/-- What the scan emitted, the final header and the last literals together: the sequences have at most 256/255 of the
source below `anchor`, and the final header has one extension byte for each 255 literals. -/
theorem ScanState.whole_le_bound {slack : Nat} {s v : State} (h : ScanState slack s v) (ha : v.wk.anchor ≤ s.wk.n) :
    v.headedLength + (v.wk.n - v.wk.anchor) ≤ s.wk.n + s.wk.n / 255 + 16 := by
  have hsize := h.size
  have hn := h.n
  have hheader : (lastHeader (v.wk.n - v.wk.anchor)).length ≤ (v.wk.n - v.wk.anchor) / 255 + 2 := by
    rw [lastHeader, List.length_cons, lenExt_length]
    split <;> omega
  rw [State.headedLength]
  omega

/-- The command has completed without an error, its byte count at most `n`. -/
def EncodesWithoutError (s t : State) : Prop := ∃ r, r ≤ s.wk.n ∧ Completed .ok r s t

/-- R116 has no error left when the whole output fits. -/
theorem EncodeOutcome.withoutError {s u t : State} (h : EncodeOutcome s u t) (hn : u.wk.n = s.wk.n)
    (ha : u.wk.anchor ≤ s.wk.n) (hfit : u.headedLength + (u.wk.n - u.wk.anchor) ≤ s.wk.cap) :
    EncodesWithoutError s t := by
  obtain ⟨noMatch, -, reached, -, whole⟩ := (encodeOutcome_iff hn).mp h
  by_cases hzero : u.wk.anchor = 0
  · exact ⟨0, Nat.zero_le _, (noMatch hzero).1⟩
  · rcases Nat.lt_or_ge u.headedLength u.wk.anchor with hlt | hreach
    · exact ⟨_, by omega, (whole hlt hfit).1⟩
    · exact ⟨0, Nat.zero_le _, reached hzero (Nat.le_of_add_right_le hfit) hreach⟩

/-- The scan loop of either encoder, and what follows it, with a capacity of BOUND(n) or more. -/
theorem ScanState.withoutError {slack : Nat} {plan : State → Plan} (good : GoodPlan slack plan) (hs : slack ≤ 12)
    {s v : State} (h : ScanState slack s v) (hn : 12 < s.wk.n) (hcap : s.wk.n + s.wk.n / 255 + 16 ≤ s.wk.cap) :
    EncodesWithoutError s ((scanLoop plan (s.wk.n - 12) v).andThen finish).settle := by
  have hend := h.scanEnd good (s.wk.n - 12)
  have hanchor := hend.anchor_le hs hn.le
  have hwhole := (hend.whole_le_bound hanchor).trans hcap
  have hscan : (Machine.scanEnd plan (s.wk.n - 12) v).wk.di ≤ s.wk.cap :=
    Nat.le_of_add_right_le (Nat.le_of_add_right_le hwhole)
  rw [scanLoop_fits good (h.cap ▸ hscan), Run.andThen_go]
  exact (finish_outcome hend hscan).1.withoutError hend.n hanchor hwhole

theorem fastRun_withoutError {s : State} (hcap : s.wk.n + s.wk.n / 255 + 16 ≤ s.wk.cap) :
    EncodesWithoutError s (fastRun s).settle := by
  by_cases hshort : s.tooShort = true
  · rw [fastRun_of_short hshort]
    exact ⟨0, Nat.zero_le _, completed_complete _ _ _ s⟩
  · obtain ⟨hn, -⟩ : 12 < s.wk.n ∧ 0 < s.wk.cap := not_not.mp (mt (tooShort_iff s).mpr hshort)
    rw [fastRun_of_long hshort]
    exact (scanState_startScan s).withoutError goodPlan_fast (by decide) hn hcap

theorem hcRun_withoutError {s : State} (hcap : s.wk.n + s.wk.n / 255 + 16 ≤ s.wk.cap) :
    EncodesWithoutError s (hcRun s).settle := by
  by_cases hshort : s.tooShort = true
  · rw [hcRun_of_short hshort]
    exact ⟨0, Nat.zero_le _, completed_of_faultLog (s := s) (v := s.zeroHc) rfl _ _ _⟩
  · obtain ⟨hn, -⟩ : 12 < s.wk.n ∧ 0 < s.wk.cap := not_not.mp (mt (tooShort_iff s).mpr hshort)
    rw [hcRun_of_long hshort]
    exact (scanState_hcStart s).withoutError goodPlan_hc (by decide) hn hcap

/-- An encoder's request beyond a limit is rejected (60_exceptions.md R241). -/
theorem exec_encoder_of_oversize {i : Instr} {s : State} (hi : i = .compressFast ∨ i = .compressHc)
    (h : s.oversize = true) : exec i s = .next s.rejectRequest := by
  rcases hi with rfl | rfl
  · rw [exec, execCompressFast, if_pos h]
  · rw [exec, execCompressHc, if_pos h]

/-- An encoder's request within the limits, with a capacity of BOUND(n) or more. -/
theorem exec_encoder_withoutError {i : Instr} {s : State} (hi : i = .compressFast ∨ i = .compressHc)
    (hcap : s.wk.n + s.wk.n / 255 + 16 ≤ s.wk.cap) (hn : s.wk.n ≤ s.cfg.maxSrcLen) (hc : s.wk.cap ≤ s.cfg.maxDstCap) :
    ∃ t, exec i s = .next t ∧ EncodesWithoutError s t := by
  rcases hi with rfl | rfl
  · exact ⟨_, exec_compressFast_of_fits hn hc, fastRun_withoutError hcap⟩
  · obtain ⟨r, hr, hdone⟩ := hcRun_withoutError hcap
    exact ⟨_, exec_compressHc_of_fits hn hc, r, hr, hdone.forgetHc⟩

theorem Completed.statusErr_eq {e : Err} {r : Nat} {s t : State} (h : Completed e r s t) :
    statusErr t.status = e.code := by
  rw [h.status, statusErr_statusWord]

/-- Settles O27: within the limits ERR is 0, because the whole output fits; beyond them it is 2. -/
theorem boundCapacitySuffices : Obligations.BoundCapacitySuffices := by
  intro i s hi hcap
  by_cases hfits : s.wk.n ≤ s.cfg.maxSrcLen ∧ s.wk.cap ≤ s.cfg.maxDstCap
  · obtain ⟨t, ht, r, hr, hdone⟩ := exec_encoder_withoutError hi hcap hfits.1 hfits.2
    refine ⟨t, ht, ?_, fun _ _ => ⟨r, hr, hdone⟩⟩
    rw [hdone.statusErr_eq]
    decide
  · refine ⟨_, exec_encoder_of_oversize hi (not_not.mp (mt oversize_eq_false.mp hfits)), ?_,
      fun hn hc => absurd ⟨hn, hc⟩ hfits⟩
    rw [(completed_rejectRequest s).statusErr_eq]
    decide

end Sys2Proof.Machine
end

section
/-! PROOFS of the statements of 60_exceptions.md: requests beyond a limit (R241), that every command completes (R242), the
permanent fault log (R246), and the idle engine (R253). R242 and R246 rest on one fact: each instruction completes its
command or leaves STATUS, RESULT and the log as they are. -/

namespace Sys2Proof.Machine

/-! ### Illegal requests (R241) -/

/-- A request of any command but BOUND beyond a limit is rejected. -/
theorem exec_of_oversize {i : Instr} {s : State} (hi : i = .compressFast ∨ i = .compressHc ∨ i = .decompress)
    (h : s.oversize = true) : exec i s = .next s.rejectRequest := by
  rcases hi with hfast | hhc | rfl
  · exact exec_encoder_of_oversize (.inl hfast) h
  · exact exec_encoder_of_oversize (.inr hhc) h
  · rw [exec, execDecompress, if_pos h]

theorem oversize_iff {s : State} : s.oversize = true ↔ s.cfg.maxSrcLen < s.wk.n ∨ s.cfg.maxDstCap < s.wk.cap := by
  simp [State.oversize]

/-- Settles O20: the request is rejected, and a rejection touches no buffer and no table. -/
theorem oversizeRequestsAreIllegal : Obligations.OversizeRequestsAreIllegal := by
  intro i s hlimit
  have hreject : exec i s = .next s.rejectRequest := by
    rcases hlimit with ⟨hi, hlong⟩ | ⟨rfl, hlong⟩
    · exact exec_of_oversize hi (oversize_iff.mpr hlong)
    · exact exec_bound_of_long hlong
  exact ⟨_, hreject, completed_rejectRequest s, hostSide_rejectRequest s, ⟨rfl, rfl, rfl⟩, fun _ => rfl⟩

/-! ### The idle engine (R253) -/

theorem engineTurn_of_idle {s : State} (he : s.engine = .idle) : engineTurn s = .next s := by
  simp only [engineTurn, he]

/-- Settles O44: with nothing pending the step is the engine's turn. -/
theorem idleEngineWaits : Obligations.IdleEngineWaits := fun _ he hin =>
  (step_of_inbox_nil hin).trans (engineTurn_of_idle he)

/-! ### Completion or none (R242) -/

/-- The command has completed, whatever its outcome and byte count. -/
def Completes (s t : State) : Prop := ∃ e r, Completed e r s t

theorem Run.completes_settle {s : State} {m : Run} (h : m.All (SameOutcome s)) (ends : ∀ t, m ≠ .go t) :
    Completes s m.settle := by
  cases m with
  | go t => exact absurd rfl (ends t)
  | ret r t => exact ⟨.ok, r, completed_of_faultLog h.faultLog _ _ _⟩
  | incompressible t => exact ⟨.ok, 0, completed_of_faultLog (v := t.forgetDst) h.faultLog _ _ _⟩
  | raise t => exact ⟨_, _, completed_raise h.faultLog⟩

theorem Completes.forgetHc {s t : State} : Completes s t → Completes s t.forgetHc
  | ⟨e, r, h⟩ => ⟨e, r, h.forgetHc⟩

theorem completes_rejectRequest (s : State) : Completes s s.rejectRequest := ⟨_, _, completed_rejectRequest s⟩

/-- Every command completes in its own step, but for a DECOMPRESS that starts its block. -/
theorem command_completes_or_starts {i : Instr} (hi : i.ctx = .command) (s : State) :
    ∃ t, exec i s = .next t ∧ (Completes s t ∨ t = s.blockStarted) := by
  cases i with
  | compressFast =>
    refine ⟨_, rfl, .inl ?_⟩
    split
    · exact completes_rejectRequest s
    · exact Run.completes_settle ((scanFrame_fastRun s).mono fun _ f => f.enc.outcome) (fastRun_ends s)
  | compressHc =>
    refine ⟨_, rfl, .inl ?_⟩
    split
    · exact completes_rejectRequest s
    · exact (Run.completes_settle ((scanFrame_hcRun s).mono fun _ f => f.enc.outcome) (hcRun_ends s)).forgetHc
  | decompress =>
    refine ⟨_, rfl, ?_⟩
    split
    · exact .inl (completes_rejectRequest s)
    · by_cases hn : s.wk.n = 0
      · rw [decompressRun_empty hn]
        exact .inl ⟨_, _, completed_complete _ _ _ s⟩
      · rw [decompressRun_first hn]
        exact .inr rfl
  | bound =>
    refine ⟨_, rfl, .inl ?_⟩
    split
    · exact completes_rejectRequest s
    · exact ⟨_, _, completed_complete _ _ _ s⟩
  | illegalCommand op reserved => exact ⟨_, rfl, .inl (completes_rejectRequest s)⟩
  | token | litlenExtCont | litlenExtEnd | literal | offset16 | matchlenExtCont | matchlenExtEnd => cases hi

/-- An element completes the command or goes on with the outcome registers as they are. -/
theorem Run.StoresIn.completes_or_keeps {lo hi : Nat} {s : State} {m : Run} (h : m.StoresIn lo hi s) :
    Completes s m.settle ∨ SameOutcome s m.settle := by
  cases m with
  | go t => exact .inr h.1.outcome
  | ret r t => exact .inl (Run.completes_settle (m := .ret r t) h.1.outcome nofun)
  | incompressible t => exact h.elim
  | raise t => exact .inl (Run.completes_settle (m := .raise t) h.1.outcome nofun)

/-- So does every instruction. -/
theorem exec_completes_or_keeps (i : Instr) (s : State) :
    ∃ t, exec i s = .next t ∧ (Completes s t ∨ SameOutcome s t) := by
  by_cases hi : i.ctx = .command
  · obtain ⟨t, ht, hdone | rfl⟩ := command_completes_or_starts hi s
    · exact ⟨t, ht, .inl hdone⟩
    · exact ⟨_, ht, .inr ⟨rfl, rfl, rfl⟩⟩
  · obtain ⟨m, hm, stores⟩ := element_storesIn hi s
    exact ⟨_, hm, stores.completes_or_keeps⟩

/-! ### The fault log (R246) -/

/-- The fault log is as before, or has one more error at its head. -/
def LogGrows (s t : State) : Prop := t.faultLog = s.faultLog ∨ ∃ e, e ≠ Err.ok ∧ t.faultLog = e :: s.faultLog

theorem Completes.logGrows {s t : State} : Completes s t → LogGrows s t := by
  rintro ⟨e, r, h⟩
  rw [LogGrows, h.faultLog]
  cases e with
  | ok => exact .inl rfl
  | invalidSourceShortBuffer => exact .inr ⟨.invalidSourceShortBuffer, nofun, rfl⟩
  | illegalRequest => exact .inr ⟨.illegalRequest, nofun, rfl⟩

theorem engineTurn_logGrows {s t : State} (ht : engineTurn s = .next t) : LogGrows s t := by
  rcases engineTurn_cases s with ⟨-, hu⟩ | ⟨c, -, ⟨i, rest, -, hu⟩ | ⟨why, -, hu⟩⟩
  · obtain rfl : s = t := Host.Outcome.next.inj (hu.symm.trans ht)
    exact .inl rfl
  · obtain ⟨u, hexec, hout⟩ := exec_completes_or_keeps i s
    obtain rfl : u = t := Host.Outcome.next.inj (hexec.symm.trans (hu.symm.trans ht))
    exact hout.elim Completes.logGrows fun kept => .inl kept.faultLog
  · obtain rfl : s.raiseShort = t := Host.Outcome.next.inj (hu.symm.trans ht)
    exact Completes.logGrows ⟨_, _, completed_raiseShort s⟩

theorem writeSlot_faultLog (i : Nat) (data : Word) (s : State) : (writeSlot i data s).faultLog = s.faultLog := by
  unfold writeSlot
  repeat' split
  all_goals rfl

theorem hostWrite_faultLog {a : Nat} {w : Width} {data : Word} {s t : State} (ht : hostWrite a w data s = .next t) :
    t.faultLog = s.faultLog := by
  unfold hostWrite at ht
  split at ht
  · cases ht
  · rcases hostWriteIdle_cases ht with ⟨i, rfl⟩ | ⟨_, _, rfl⟩ | ⟨_, _, _, rfl⟩ | ⟨_, _, _, rfl⟩
    · exact writeSlot_faultLog i data s
    all_goals rfl

/-- Only a pause, which is the engine's turn, can add to the log. -/
theorem hostTurn_logGrows {e : HostEvent} {s t : State} (ht : hostTurn e s = .next t) : LogGrows s t := by
  cases e with
  | read a w =>
    obtain ⟨d, u, k, rfl⟩ := hostRead_changes ht
    exact .inl rfl
  | write a w data => exact .inl (hostWrite_faultLog ht)
  | reset =>
    obtain rfl : s.platformReset = t := Host.Outcome.next.inj ht
    exact .inl (platformReset_faultLog s)
  | pause => exact engineTurn_logGrows ht

/-- Settles O55: the step is the engine's turn or an action from outside. -/
theorem faultLogIsPermanent : Obligations.FaultLogIsPermanent := by
  intro s t ht
  cases hin : s.inbox with
  | nil => exact engineTurn_logGrows ((step_of_inbox_nil hin).symm.trans ht)
  | cons e rest => exact hostTurn_logGrows (s := { s with inbox := rest }) ((step_of_inbox_cons hin).symm.trans ht)

/-! ### Every command completes (R242) -/

theorem DecodeEnds.completes {s t : State} {ans : Option (List Byte)} (h : DecodeEnds s ans t) : Completes s t := by
  cases ans with
  | none => exact ⟨_, _, (h.raised rfl).1⟩
  | some out => exact ⟨_, _, (h.decoded out rfl).1⟩

/-- Inside a block the invariant is all that the induction over the rest of the block asks for. -/
theorem Invariant.awaits {s : State} {c : Ctx} (h : Invariant s) (he : s.engine = .busy c) (hc : c ≠ .command) :
    Awaits s c s := by
  obtain ⟨inBlock, fits⟩ := h.inBlock he hc
  exact ⟨⟨elemFrame_refl s, rfl, inBlock.si, inBlock.di, fun _ _ => rfl⟩, he, hc, fits⟩

/-- Some run of at most `k` steps from `v` completes the command of `s`. -/
def CompletesWithin (k : Nat) (s v : State) : Prop := ∃ j t, j ≤ k ∧ core.run j v = .next t ∧ Completes s t

/-- From any fetch inside a block: each step passes a byte of the block or ends the command. -/
theorem Awaits.completesWithin {s v : State} {c : Ctx} (h : Awaits s c v) (hin : s.inbox = []) :
    CompletesWithin (v.wk.n - v.wk.si + 1) s v := by
  obtain ⟨k, t, hk, hrun, ends⟩ := h.run_ends (Nat.le_refl _) hin
  exact ⟨k, t, hk, hrun, ends.completes⟩

/-- The engine's turn at a command word runs that word: every word is an instruction (30_encoding.md R81). -/
theorem engineTurn_command {s : State} (he : s.engine = .busy .command) :
    engineTurn s = exec (decodeCommand s.cmd) s :=
  engineTurn_of_decoded he (decode_command s.cmd [])

/-- From the start of a command: its own step, and, for a DECOMPRESS, its block from the first byte on. -/
theorem command_completesWithin {s : State} (he : s.engine = .busy .command) (hin : s.inbox = []) :
    CompletesWithin (s.wk.n + 2) s s := by
  obtain ⟨t, ht, hout⟩ := command_completes_or_starts (decodeCommand_sound s.cmd).2 s
  have hstep : step s = .next t := (step_of_inbox_nil hin).trans ((engineTurn_command he).trans ht)
  rcases hout with hdone | rfl
  · exact ⟨1, t, by omega, core_run_succ hstep 0, hdone⟩
  · obtain ⟨k, u, hk, hrun, hdone⟩ := (awaits_blockStarted s).completesWithin hin
    exact ⟨k + 1, u, Nat.succ_le_succ hk, (core_run_succ hstep k).trans hrun, hdone⟩

/-- Settles O60: the engine is at a command word or inside a block, and a completion leaves it idle with DONE = 1. -/
theorem everyCommandCompletes : Obligations.EveryCommandCompletes := by
  intro s h hbusy hin
  have hwithin : CompletesWithin (s.wk.n + 2) s s := by
    cases he : s.engine with
    | idle => exact absurd he hbusy
    | busy c =>
      by_cases hc : c = .command
      · exact command_completesWithin (hc ▸ he) hin
      · obtain ⟨k, t, hk, hrun, hdone⟩ := (h.awaits he hc).completesWithin hin
        exact ⟨k, t, by omega, hrun, hdone⟩
  obtain ⟨k, t, hk, hrun, e, r, hdone⟩ := hwithin
  exact ⟨k, t, hk, hrun, hdone.engine, by simp [hdone.status], by simp [hdone.status]⟩

end Sys2Proof.Machine
end

section
/-! PROOFS of the statements of 70_reset_and_hazards.md: the host's writes while BUSY = 1 (R281). -/

namespace Sys2Proof.Machine

/-- The refusal comes before the address is looked at, so it is the same for every space and for none. -/
theorem hostWrite_busy {s : State} (h : s.isBusy = true) (a : Nat) (w : Width) (data : Word) :
    hostWrite a w data s = .refused (.hostWriteWhileBusy a) := by
  rw [hostWrite, if_pos h]

/-- Settles O46: taking the event from the inbox leaves STATUS, so the host's write finds BUSY = 1. -/
theorem busyWritesAreRefused : Obligations.BusyWritesAreRefused := by
  intro s a w data later hbusy hin
  have hwrite : step s = hostWrite a w data { s with inbox := later } := step_of_inbox_cons hin
  exact hwrite.trans (hostWrite_busy (s := { s with inbox := later }) hbusy a w data)

end Sys2Proof.Machine
end
